-- ==== Sys2Proof/Word.lean ====
section
/-! DEFINITION. The two word types of the block.

Every register of the two controllers and of the UARTs is one byte (20_memory.md rule R41), every
port number is 16 bits wide (rule R40), and nothing is signed (00_scope.md rule R7). -/

namespace Sys2Proof

/-- A register value or a transferred byte (rules R7 and R41). -/
abbrev Byte := BitVec 8

/-- A number in the I/O port space, 0x0000 to 0xFFFF (rule R40). -/
abbrev Port := BitVec 16

end Sys2Proof
end

