-- ==== Sys2Proof/Syntax.lean ====
section
/-! DEFINITION. The transactions as syntax: the names the spec gives to controllers, UARTs, phases
and registers, the two word formats, and `Instr`, one constructor per row of the opcode table. -/

namespace Sys2Proof

/-- The two interrupt controllers (10_state.md rule R10): `P` at ports 0x20 and 0x21, `S` at 0xA0
and 0xA1, its output wired to input 2 of `P`. -/
inductive Ctl where
  | P
  | S
deriving DecidableEq, Repr

/-- The eight places a UART can stand at, COM1 to COM8 in the order of `SERIAL_BASES`
(00_scope.md rule R5). -/
inductive Com where
  | com1 | com2 | com3 | com4 | com5 | com6 | com7 | com8
deriving DecidableEq, Repr

/-- The initialisation sequencer of one controller (10_state.md rule R15). -/
inductive Phase where
  | uninit
  | waitIcw2
  | waitIcw3
  | waitIcw4
  | ready
deriving DecidableEq, Repr

/-- The read-select latch of one controller (10_state.md rule R17). -/
inductive ReadSel where
  | selIrr
  | selIsr
deriving DecidableEq, Repr

/-- The fifteen request lines a device can raise: 0 to 15 without 2, which is the cascade line and
no source (60_exceptions.md rule R172). -/
inductive Source where
  | irq0 | irq1 | irq3 | irq4 | irq5 | irq6 | irq7
  | irq8 | irq9 | irq10 | irq11 | irq12 | irq13 | irq14 | irq15
deriving DecidableEq, Repr

/-- A transaction word (30_encoding.md rules R60 to R62). A `UART12` word is relative to the base of
an instance, which is named beside it. -/
inductive TxnWord where
  /-- Bit 24 direction (1 = write), bits 23:8 port, bits 7:0 data. -/
  | pic25 (w : BitVec 25)
  /-- Bit 11 direction (1 = write), bits 10:8 offset from the base, bits 7:0 data. -/
  | uart12 (u : Com) (w : BitVec 12)
deriving DecidableEq, Repr

/-- One admitted transaction: one constructor per row of `opcode_table.json` (30_encoding.md
rule R77). A row whose data byte is one fixed value has no data operand; a read has none either,
since the byte returned takes no part in selecting the row (rule R61). -/
inductive Instr where
  -- the primary controller
  | pic1Icw1
  | pic1Icw2 (data : Byte)
  | pic1Icw3
  | pic1Icw4
  | pic1Ocw1 (data : Byte)
  | pic1RdImr
  | pic1Eoi
  | pic1SelIrr
  | pic1SelIsr
  | pic1RdSel
  -- the secondary controller
  | pic2Icw1
  | pic2Icw2 (data : Byte)
  | pic2Icw3
  | pic2Icw4
  | pic2Ocw1 (data : Byte)
  | pic2RdImr
  | pic2Eoi
  | pic2SelIrr
  | pic2SelIsr
  | pic2RdSel
  -- a UART
  | uartThrWr (u : Com) (data : Byte)
  | uartRbrRd (u : Com)
  | uartDllWr (u : Com) (data : Byte)
  | uartDlmWr (u : Com) (data : Byte)
  | uartIerWr (u : Com) (data : Byte)
  | uartFcrWr (u : Com)
  | uartLcrWr (u : Com) (data : Byte)
  | uartMcrWr (u : Com)
  | uartLsrRd (u : Com)
deriving DecidableEq, Repr

end Sys2Proof
end

