-- ==== Sys2Proof/Config.lean ====
section
/-! DEFINITION. What one installation fixes (00_scope.md rule R6) and the free values.

The open parameters of the spec stand in `Params`, a part of the state that no step changes, so
that a statement about every state is a statement about every value of them. `Config.baudDivisor`,
`Config.uartIrqLine` and `Config.lsrDraw` are opaque: nothing can be proved of their values. -/

namespace Sys2Proof

/-- The open parameters of 00_scope.md rule R6 (decisions D20, D27, D31). The fourth, the set
`UART_INSTANCES`, is the set of UARTs that `State.uarts` holds. -/
structure Params where
  /-- `BAUD_DIVISOR`: what `uart.init()` writes into the divisor latch. -/
  baudDivisor : BitVec 16
  /-- `UART_IRQ_LINE`: the line a UART drives, or none. -/
  uartIrqLine : Option Source
  /-- `SPURIOUS_MODELLED`: whether spurious acknowledge events exist (rule R182). -/
  spuriousModelled : Bool
deriving DecidableEq, Repr

/-- The divisor after reset: left open by decision D27 and kept symbolic (log entry 3). -/
opaque Config.baudDivisor : BitVec 16

/-- The UARTs' request line after reset: left open by decision D31 and kept symbolic
(log entry 3). -/
opaque Config.uartIrqLine : Option Source

/-- The draw of line-status bits 7, 6 and 4 to 1 at the `n`-th line-status read (10_state.md
rule R29): a free value (log entry 5). -/
opaque Config.lsrDraw : Nat → Byte

/-- The parameters the machine has after reset (log entry 3): `SPURIOUS_MODELLED` has the value
rule R6 recommends. -/
def Config.params : Params where
  baudDivisor := Config.baudDivisor
  uartIrqLine := Config.uartIrqLine
  spuriousModelled := true

end Sys2Proof
end

