-- ==== Sys2Proof/WellFormed.lean ====
section
/-! DEFINITION. Which instructions are admitted: the checks on operand bytes of 30_encoding.md
rule R73 that the type `Instr` does not make already. -/

namespace Sys2Proof

/-- ICW2 admits only multiples of 8 (30_encoding.md rule R65). -/
def icw2Admitted (data : Byte) : Bool := data &&& 0x07#8 == 0x00#8

/-- The interrupt-enable values of 43_uart_registers.md rule R134. -/
def ierAdmitted (data : Byte) : Bool := data == 0x00#8 || data == 0x01#8

/-- The line-control values of 43_uart_registers.md rule R136. -/
def lcrAdmitted (data : Byte) : Bool := data == 0x80#8 || data == 0x03#8

/-- The instruction is one the opcode table admits (its `admitted` column and notes). -/
def Instr.wellFormed : Instr → Bool
  | .pic1Icw1 => true
  | .pic1Icw2 data => icw2Admitted data
  | .pic1Icw3 => true
  | .pic1Icw4 => true
  | .pic1Ocw1 _ => true
  | .pic1RdImr => true
  | .pic1Eoi => true
  | .pic1SelIrr => true
  | .pic1SelIsr => true
  | .pic1RdSel => true
  | .pic2Icw1 => true
  | .pic2Icw2 data => icw2Admitted data
  | .pic2Icw3 => true
  | .pic2Icw4 => true
  | .pic2Ocw1 _ => true
  | .pic2RdImr => true
  | .pic2Eoi => true
  | .pic2SelIrr => true
  | .pic2SelIsr => true
  | .pic2RdSel => true
  | .uartThrWr _ _ => true
  | .uartRbrRd _ => true
  | .uartDllWr _ _ => true
  | .uartDlmWr _ _ => true
  | .uartIerWr _ data => ierAdmitted data
  | .uartFcrWr _ => true
  | .uartLcrWr _ data => lcrAdmitted data
  | .uartMcrWr _ => true
  | .uartLsrRd _ => true

end Sys2Proof
end

