-- ==== Sys2Proof/Decode.lean ====
section
/-! DEFINITION. The numbers of the port map, the decoder of transaction words, the encoder, and the
opcode table's mask and match columns.

The decoder is total: every 25-bit and every 12-bit word decodes to an instruction or is rejected
under a name (30_encoding.md rule R73). Two pieces of device state take part in it, `init_phase[c]`
and the divisor-latch bit (rule R74); `Selectors` hands them to it. -/

namespace Sys2Proof

/-! ## The port map (00_scope.md rule R5, 20_memory.md rule R42) -/

/-- `CMD(c)`: the command port of a controller. -/
def Ctl.cmdPort : Ctl → Port
  | .P => 0x0020#16
  | .S => 0x00A0#16

/-- `DATA(c)`: the data port of a controller. -/
def Ctl.dataPort : Ctl → Port
  | .P => 0x0021#16
  | .S => 0x00A1#16

/-- The cascade word a controller admits as ICW3 (30_encoding.md rule R66). -/
def Ctl.icw3Byte : Ctl → Byte
  | .P => 0x04#8
  | .S => 0x02#8

/-- `SERIAL_BASES`, COM1 to COM8 in that order. -/
def Com.base : Com → Port
  | .com1 => 0x03F8#16
  | .com2 => 0x02F8#16
  | .com3 => 0x03E8#16
  | .com4 => 0x02E8#16
  | .com5 => 0x05F8#16
  | .com6 => 0x04F8#16
  | .com7 => 0x05E8#16
  | .com8 => 0x04E8#16

/-- The eight UART places, in the order of `SERIAL_BASES`. -/
def Com.all : List Com := [.com1, .com2, .com3, .com4, .com5, .com6, .com7, .com8]

/-- The port `u + off` (30_encoding.md rule R76). -/
def Com.port (u : Com) (off : Nat) : Port := u.base + BitVec.ofNat 16 off

/-- ICW1, "init mode + has 4th ICW" (rule R64). -/
def cmdInit : Byte := 0x11#8

/-- The end-of-interrupt command (rule R69). -/
def cmdEoi : Byte := 0x20#8

/-- Read-select of the request register (rule R70). -/
def cmdReadIrr : Byte := 0x0A#8

/-- Read-select of the in-service register (rule R70). -/
def cmdReadIsr : Byte := 0x0B#8

/-- The mode byte of ICW4: 8086 mode, normal EOI (rule R67). -/
def icw4Byte : Byte := 0x01#8

/-- The FIFO-control byte: enable, clear both queues, 14-byte watermark (rule R72). -/
def fcrByte : Byte := 0xC7#8

/-- The modem-control byte: DTR, RTS, auxiliary output 2 (rule R72). -/
def mcrByte : Byte := 0x0B#8

/-! ## Words (30_encoding.md rules R61 and R62) -/

/-- A `PIC25` word: direction, port, data. -/
def packPic (write : Bool) (port : Port) (data : Byte) : BitVec 25 :=
  BitVec.ofBool write ++ port ++ data

/-- A `UART12` word: direction, offset, data. -/
def packUart (write : Bool) (off : BitVec 3) (data : Byte) : BitVec 12 :=
  BitVec.ofBool write ++ off ++ data

/-- The data byte of a word: the byte written, or for a read the byte returned. -/
def TxnWord.data : TxnWord → Byte
  | .pic25 w => w.extractLsb' 0 8
  | .uart12 _ w => w.extractLsb' 0 8

/-- The same word with another data byte: how a read's word carries the byte returned. -/
def TxnWord.withData : TxnWord → Byte → TxnWord
  | .pic25 w, b => .pic25 (w.extractLsb' 8 17 ++ b)
  | .uart12 u w, b => .uart12 u (w.extractLsb' 8 4 ++ b)

/-! ## Rows by controller: the ten transaction kinds of a controller (rule R77) -/

/-- `PICc.ICW1`. -/
def Instr.icw1 : Ctl → Instr
  | .P => .pic1Icw1
  | .S => .pic2Icw1

/-- `PICc.ICW2`. -/
def Instr.icw2 : Ctl → Byte → Instr
  | .P => .pic1Icw2
  | .S => .pic2Icw2

/-- `PICc.ICW3`. -/
def Instr.icw3 : Ctl → Instr
  | .P => .pic1Icw3
  | .S => .pic2Icw3

/-- `PICc.ICW4`. -/
def Instr.icw4 : Ctl → Instr
  | .P => .pic1Icw4
  | .S => .pic2Icw4

/-- `PICc.OCW1`. -/
def Instr.ocw1 : Ctl → Byte → Instr
  | .P => .pic1Ocw1
  | .S => .pic2Ocw1

/-- `PICc.RD_IMR`. -/
def Instr.rdImr : Ctl → Instr
  | .P => .pic1RdImr
  | .S => .pic2RdImr

/-- `PICc.EOI`. -/
def Instr.eoi : Ctl → Instr
  | .P => .pic1Eoi
  | .S => .pic2Eoi

/-- `PICc.SEL_IRR`. -/
def Instr.selIrr : Ctl → Instr
  | .P => .pic1SelIrr
  | .S => .pic2SelIrr

/-- `PICc.SEL_ISR`. -/
def Instr.selIsr : Ctl → Instr
  | .P => .pic1SelIsr
  | .S => .pic2SelIsr

/-- `PICc.RD_SEL`. -/
def Instr.rdSel : Ctl → Instr
  | .P => .pic1RdSel
  | .S => .pic2RdSel

/-! ## The decoder -/

/-- Why a word is refused: one name per line of the refusal table of 30_encoding.md rule R73. -/
inductive Reject where
  /-- A `PIC25` word at a port that is none of the four controller ports (rule R60). -/
  | notAControllerPort (port : Port)
  /-- A command-port write with bit 4 set and another byte than 0x11 (rule R64). -/
  | icw1Options (c : Ctl) (data : Byte)
  /-- A command-port write with bits 4:3 = 00 and another byte than 0x20 (rule R69). -/
  | ocw2NotAdmitted (c : Ctl) (data : Byte)
  /-- A command-port write with bits 4:3 = 01 that is neither 0x0A nor 0x0B (rule R70). -/
  | ocw3NotAdmitted (c : Ctl) (data : Byte)
  /-- A data-port write before any ICW1 (10_state.md rule R36). -/
  | dataWriteBeforeInit (c : Ctl)
  /-- ICW2 with non-zero low three bits (rule R65). -/
  | icw2LowBits (c : Ctl) (data : Byte)
  /-- ICW3 other than 0x04 at the primary or 0x02 at the secondary (rule R66). -/
  | icw3Wiring (c : Ctl) (data : Byte)
  /-- ICW4 other than 0x01 (rule R67). -/
  | icw4Mode (c : Ctl) (data : Byte)
  /-- A UART read at `u + 0` with the divisor-latch bit set (rule R71). -/
  | divisorRead (u : Com)
  /-- A UART read at an offset other than 0 and 5, or any access at offsets 6 and 7 (rule R139). -/
  | uartOffset (u : Com) (write : Bool) (off : BitVec 3)
  /-- An interrupt-enable value other than 0x00 and 0x01 (rule R134). -/
  | ierValue (u : Com) (data : Byte)
  /-- A FIFO-control value other than 0xC7 (rule R135). -/
  | fcrValue (u : Com) (data : Byte)
  /-- A line-control value other than 0x80 and 0x03 (rule R136). -/
  | lcrValue (u : Com) (data : Byte)
  /-- A modem-control value other than 0x0B (rule R137). -/
  | mcrValue (u : Com) (data : Byte)
deriving DecidableEq, Repr

/-- The device state that takes part in decoding (30_encoding.md rule R74): the phases of the two
controllers and the divisor-latch bit of the UART the word goes to. -/
structure Selectors where
  phaseP : Phase
  phaseS : Phase
  dlab : Bool
deriving DecidableEq, Repr

/-- The phase of one controller. -/
def Selectors.phase (sel : Selectors) : Ctl → Phase
  | .P => sel.phaseP
  | .S => sel.phaseS

/-- Decode at the command port of a controller (30_encoding.md rule R63). -/
def decodeCmd (c : Ctl) (write : Bool) (data : Byte) : Except Reject Instr :=
  if write then
    if data.getLsbD 4 then
      if data = cmdInit then .ok (.icw1 c) else .error (.icw1Options c data)
    else if data.getLsbD 3 then
      if data = cmdReadIrr then .ok (.selIrr c)
      else if data = cmdReadIsr then .ok (.selIsr c)
      else .error (.ocw3NotAdmitted c data)
    else if data = cmdEoi then .ok (.eoi c)
    else .error (.ocw2NotAdmitted c data)
  else .ok (.rdSel c)

/-- Decode at the data port of a controller (30_encoding.md rule R63). -/
def decodeData (c : Ctl) (phase : Phase) (write : Bool) (data : Byte) : Except Reject Instr :=
  if write then
    match phase with
    | .uninit => .error (.dataWriteBeforeInit c)
    | .waitIcw2 => if icw2Admitted data then .ok (.icw2 c data) else .error (.icw2LowBits c data)
    | .waitIcw3 => if data = c.icw3Byte then .ok (.icw3 c) else .error (.icw3Wiring c data)
    | .waitIcw4 => if data = icw4Byte then .ok (.icw4 c) else .error (.icw4Mode c data)
    | .ready => .ok (.ocw1 c data)
  else .ok (.rdImr c)

/-- Decode of a `PIC25` word: the port chooses the controller and the register. -/
def decodePic (sel : Selectors) (w : BitVec 25) : Except Reject Instr :=
  let write := w.getLsbD 24
  let port : Port := w.extractLsb' 8 16
  let data : Byte := w.extractLsb' 0 8
  if port = Ctl.cmdPort .P then decodeCmd .P write data
  else if port = Ctl.dataPort .P then decodeData .P sel.phaseP write data
  else if port = Ctl.cmdPort .S then decodeCmd .S write data
  else if port = Ctl.dataPort .S then decodeData .S sel.phaseS write data
  else .error (.notAControllerPort port)

/-- Decode of a write at `u + off` (30_encoding.md rule R71). -/
def decodeUartWrite (dlab : Bool) (u : Com) (off : BitVec 3) (data : Byte) : Except Reject Instr :=
  if off = 0#3 then
    if dlab then .ok (.uartDllWr u data) else .ok (.uartThrWr u data)
  else if off = 1#3 then
    if dlab then .ok (.uartDlmWr u data)
    else if ierAdmitted data then .ok (.uartIerWr u data)
    else .error (.ierValue u data)
  else if off = 2#3 then
    if data = fcrByte then .ok (.uartFcrWr u) else .error (.fcrValue u data)
  else if off = 3#3 then
    if lcrAdmitted data then .ok (.uartLcrWr u data) else .error (.lcrValue u data)
  else if off = 4#3 then
    if data = mcrByte then .ok (.uartMcrWr u) else .error (.mcrValue u data)
  else .error (.uartOffset u true off)

/-- Decode of a read at `u + off` (30_encoding.md rule R71). -/
def decodeUartRead (dlab : Bool) (u : Com) (off : BitVec 3) : Except Reject Instr :=
  if off = 0#3 then
    if dlab then .error (.divisorRead u) else .ok (.uartRbrRd u)
  else if off = 5#3 then .ok (.uartLsrRd u)
  else .error (.uartOffset u false off)

/-- Decode of a `UART12` word at the instance `u`. -/
def decodeUart (dlab : Bool) (u : Com) (w : BitVec 12) : Except Reject Instr :=
  if w.getLsbD 11 then decodeUartWrite dlab u (w.extractLsb' 8 3) (w.extractLsb' 0 8)
  else decodeUartRead dlab u (w.extractLsb' 8 3)

/-- The decoder: total on every word under every selection. -/
def decode (sel : Selectors) : TxnWord → Except Reject Instr
  | .pic25 w => decodePic sel w
  | .uart12 u w => decodeUart sel.dlab u w

/-! ## The encoder -/

/-- The word of an instruction (30_encoding.md rules R61, R62 and R77). A read's word is given with
a zero data byte; `TxnWord.withData` puts the byte returned in its place. -/
def encode : Instr → TxnWord
  | .pic1Icw1 => .pic25 (packPic true (Ctl.cmdPort .P) cmdInit)
  | .pic1Icw2 data => .pic25 (packPic true (Ctl.dataPort .P) data)
  | .pic1Icw3 => .pic25 (packPic true (Ctl.dataPort .P) (Ctl.icw3Byte .P))
  | .pic1Icw4 => .pic25 (packPic true (Ctl.dataPort .P) icw4Byte)
  | .pic1Ocw1 data => .pic25 (packPic true (Ctl.dataPort .P) data)
  | .pic1RdImr => .pic25 (packPic false (Ctl.dataPort .P) 0x00#8)
  | .pic1Eoi => .pic25 (packPic true (Ctl.cmdPort .P) cmdEoi)
  | .pic1SelIrr => .pic25 (packPic true (Ctl.cmdPort .P) cmdReadIrr)
  | .pic1SelIsr => .pic25 (packPic true (Ctl.cmdPort .P) cmdReadIsr)
  | .pic1RdSel => .pic25 (packPic false (Ctl.cmdPort .P) 0x00#8)
  | .pic2Icw1 => .pic25 (packPic true (Ctl.cmdPort .S) cmdInit)
  | .pic2Icw2 data => .pic25 (packPic true (Ctl.dataPort .S) data)
  | .pic2Icw3 => .pic25 (packPic true (Ctl.dataPort .S) (Ctl.icw3Byte .S))
  | .pic2Icw4 => .pic25 (packPic true (Ctl.dataPort .S) icw4Byte)
  | .pic2Ocw1 data => .pic25 (packPic true (Ctl.dataPort .S) data)
  | .pic2RdImr => .pic25 (packPic false (Ctl.dataPort .S) 0x00#8)
  | .pic2Eoi => .pic25 (packPic true (Ctl.cmdPort .S) cmdEoi)
  | .pic2SelIrr => .pic25 (packPic true (Ctl.cmdPort .S) cmdReadIrr)
  | .pic2SelIsr => .pic25 (packPic true (Ctl.cmdPort .S) cmdReadIsr)
  | .pic2RdSel => .pic25 (packPic false (Ctl.cmdPort .S) 0x00#8)
  | .uartThrWr u data => .uart12 u (packUart true 0#3 data)
  | .uartRbrRd u => .uart12 u (packUart false 0#3 0x00#8)
  | .uartDllWr u data => .uart12 u (packUart true 0#3 data)
  | .uartDlmWr u data => .uart12 u (packUart true 1#3 data)
  | .uartIerWr u data => .uart12 u (packUart true 1#3 data)
  | .uartFcrWr u => .uart12 u (packUart true 2#3 fcrByte)
  | .uartLcrWr u data => .uart12 u (packUart true 3#3 data)
  | .uartMcrWr u => .uart12 u (packUart true 4#3 mcrByte)
  | .uartLsrRd u => .uart12 u (packUart false 5#3 0x00#8)

/-- The instruction is a read: its word's data byte is the device's (rule R61). -/
def Instr.isRead : Instr → Bool
  | .pic1RdImr | .pic1RdSel | .pic2RdImr | .pic2RdSel | .uartRbrRd _ | .uartLsrRd _ => true
  | .pic1Icw1 | .pic1Icw2 _ | .pic1Icw3 | .pic1Icw4 | .pic1Ocw1 _ | .pic1Eoi | .pic1SelIrr
  | .pic1SelIsr | .pic2Icw1 | .pic2Icw2 _ | .pic2Icw3 | .pic2Icw4 | .pic2Ocw1 _ | .pic2Eoi
  | .pic2SelIrr | .pic2SelIsr | .uartThrWr _ _ | .uartDllWr _ _ | .uartDlmWr _ _
  | .uartIerWr _ _ | .uartFcrWr _ | .uartLcrWr _ _ | .uartMcrWr _ => false

/-- The device a transaction is addressed to. -/
def Instr.site : Instr → Ctl ⊕ Com
  | .pic1Icw1 | .pic1Icw2 _ | .pic1Icw3 | .pic1Icw4 | .pic1Ocw1 _ | .pic1RdImr | .pic1Eoi
  | .pic1SelIrr | .pic1SelIsr | .pic1RdSel => .inl .P
  | .pic2Icw1 | .pic2Icw2 _ | .pic2Icw3 | .pic2Icw4 | .pic2Ocw1 _ | .pic2RdImr | .pic2Eoi
  | .pic2SelIrr | .pic2SelIsr | .pic2RdSel => .inl .S
  | .uartThrWr u _ | .uartRbrRd u | .uartDllWr u _ | .uartDlmWr u _ | .uartIerWr u _ | .uartFcrWr u
  | .uartLcrWr u _ | .uartMcrWr u | .uartLsrRd u => .inr u

/-- The selection under which a row is the one its bits mean: the part of the `when` column of
30_encoding.md rule R77 that separates rows with the same bits. -/
def Selectors.selects (sel : Selectors) : Instr → Bool
  | .pic1Icw2 _ => sel.phaseP == .waitIcw2
  | .pic1Icw3 => sel.phaseP == .waitIcw3
  | .pic1Icw4 => sel.phaseP == .waitIcw4
  | .pic1Ocw1 _ => sel.phaseP == .ready
  | .pic2Icw2 _ => sel.phaseS == .waitIcw2
  | .pic2Icw3 => sel.phaseS == .waitIcw3
  | .pic2Icw4 => sel.phaseS == .waitIcw4
  | .pic2Ocw1 _ => sel.phaseS == .ready
  | .uartThrWr _ _ | .uartRbrRd _ | .uartIerWr _ _ => !sel.dlab
  | .uartDllWr _ _ | .uartDlmWr _ _ => sel.dlab
  | .pic1Icw1 | .pic1RdImr | .pic1Eoi | .pic1SelIrr | .pic1SelIsr | .pic1RdSel
  | .pic2Icw1 | .pic2RdImr | .pic2Eoi | .pic2SelIrr | .pic2SelIsr | .pic2RdSel
  | .uartFcrWr _ | .uartLcrWr _ _ | .uartMcrWr _ | .uartLsrRd _ => true

/-! ## The opcode table's rows -/

/-- The bit pattern of one row: a word belongs to the row when its bits under `mask` are `val`. -/
inductive RowBits where
  | pic25 (val mask : BitVec 25)
  | uart12 (val mask : BitVec 12)
deriving DecidableEq, Repr

/-- The `match` and `mask` columns of `opcode_table.json`. -/
def Instr.rowBits : Instr → RowBits
  | .pic1Icw1 => .pic25 0x1002011#25 0x1FFFFFF#25
  | .pic1Icw2 _ => .pic25 0x1002100#25 0x1FFFF07#25
  | .pic1Icw3 => .pic25 0x1002104#25 0x1FFFFFF#25
  | .pic1Icw4 => .pic25 0x1002101#25 0x1FFFFFF#25
  | .pic1Ocw1 _ => .pic25 0x1002100#25 0x1FFFF00#25
  | .pic1RdImr => .pic25 0x0002100#25 0x1FFFF00#25
  | .pic1Eoi => .pic25 0x1002020#25 0x1FFFFFF#25
  | .pic1SelIrr => .pic25 0x100200A#25 0x1FFFFFF#25
  | .pic1SelIsr => .pic25 0x100200B#25 0x1FFFFFF#25
  | .pic1RdSel => .pic25 0x0002000#25 0x1FFFF00#25
  | .pic2Icw1 => .pic25 0x100A011#25 0x1FFFFFF#25
  | .pic2Icw2 _ => .pic25 0x100A100#25 0x1FFFF07#25
  | .pic2Icw3 => .pic25 0x100A102#25 0x1FFFFFF#25
  | .pic2Icw4 => .pic25 0x100A101#25 0x1FFFFFF#25
  | .pic2Ocw1 _ => .pic25 0x100A100#25 0x1FFFF00#25
  | .pic2RdImr => .pic25 0x000A100#25 0x1FFFF00#25
  | .pic2Eoi => .pic25 0x100A020#25 0x1FFFFFF#25
  | .pic2SelIrr => .pic25 0x100A00A#25 0x1FFFFFF#25
  | .pic2SelIsr => .pic25 0x100A00B#25 0x1FFFFFF#25
  | .pic2RdSel => .pic25 0x000A000#25 0x1FFFF00#25
  | .uartThrWr _ _ => .uart12 0x800#12 0xF00#12
  | .uartRbrRd _ => .uart12 0x000#12 0xF00#12
  | .uartDllWr _ _ => .uart12 0x800#12 0xF00#12
  | .uartDlmWr _ _ => .uart12 0x900#12 0xF00#12
  | .uartIerWr _ _ => .uart12 0x900#12 0xFFE#12
  | .uartFcrWr _ => .uart12 0xAC7#12 0xFFF#12
  | .uartLcrWr _ _ => .uart12 0xB00#12 0xF7C#12
  | .uartMcrWr _ => .uart12 0xC0B#12 0xFFF#12
  | .uartLsrRd _ => .uart12 0x500#12 0xF00#12

/-- The word's bits belong to the row. -/
def RowBits.holds : RowBits → TxnWord → Bool
  | .pic25 val mask, .pic25 w => w &&& mask == val
  | .uart12 val mask, .uart12 _ w => w &&& mask == val
  | .pic25 _ _, .uart12 _ _ => false
  | .uart12 _ _, .pic25 _ => false

/-! ## Words from a port and a byte -/

/-- The format is chosen by the port (30_encoding.md rule R60): a controller port gives a `PIC25`
word, a port `u + k` with `k ≤ 5` of a UART that is present gives a `UART12` word, and every other
port gives none (20_memory.md rule R43). -/
def wordAt (present : Com → Bool) (write : Bool) (port : Port) (data : Byte) : Option TxnWord :=
  if port = Ctl.cmdPort .P ∨ port = Ctl.dataPort .P ∨ port = Ctl.cmdPort .S
      ∨ port = Ctl.dataPort .S then
    some (.pic25 (packPic write port data))
  else
    match Com.all.find? (fun u => present u && decide ((port - u.base).toNat ≤ 5)) with
    | some u => some (.uart12 u (packUart write ((port - u.base).setWidth 3) data))
    | none => none

/-! ## The host's reading of a table word -/

/-- A word as the opcode table numbers its bits: a row of two bytes is a `UART12` word, a longer one
a `PIC25` word, and bits above the format's are zero. The instance of a `UART12` word is not among
its bits (rule R62); COM1 stands for it (log entry 8). -/
def tableWord (nbits w : Nat) : Option TxnWord :=
  if nbits ≤ 16 then
    if w < 2 ^ 12 then some (.uart12 .com1 (BitVec.ofNat 12 w)) else none
  else if w < 2 ^ 25 then some (.pic25 (BitVec.ofNat 25 w)) else none

/-- The phase under which a data-port byte belongs to the row with the most fixed bits: ICW3 and
ICW4 fix the whole byte, ICW2 its low three bits, the mask write none (log entry 8). -/
def tablePhase (c : Ctl) (data : Byte) : Phase :=
  if data = c.icw3Byte then .waitIcw3
  else if data = icw4Byte then .waitIcw4
  else if icw2Admitted data then .waitIcw2
  else .ready

/-- The divisor-latch bit under which a UART word belongs to the row with the most fixed bits: an
interrupt-enable row where its byte is admitted, the divisor's high byte otherwise (log entry 8). -/
def tableDlab (w : BitVec 12) : Bool :=
  w.extractLsb' 8 4 == 0x9#4 && !ierAdmitted (w.extractLsb' 0 8)

/-- The selection a table word is read under, since the table gives rows that share their bits. -/
def tableSelectors : TxnWord → Selectors
  | .pic25 w =>
    { phaseP := tablePhase .P (w.extractLsb' 0 8)
      phaseS := tablePhase .S (w.extractLsb' 0 8)
      dlab := false }
  | .uart12 _ w => { phaseP := .ready, phaseS := .ready, dlab := tableDlab w }

/-- The instruction the decoder reads from a table word. -/
def decodeTableWord (nbits w : Nat) : Option Instr :=
  match tableWord nbits w with
  | some word =>
    match decode (tableSelectors word) word with
    | .ok i => some i
    | .error _ => none
  | none => none

end Sys2Proof
end

