-- ==== Sys2Proof/Machine/State.lean ====
section
/-! DEFINITION. The state of the block: the two controllers, the UARTs, the observations of
10_state.md rule R35, and the plain data that says what the driver and the other agents do next.

There is no memory to hold: the one address space is the I/O port space and every port of it that
this hardware claims is a register below (20_memory.md rules R40 and R42). -/

namespace Sys2Proof.Machine

/-! ## The devices -/

/-- One interrupt controller (10_state.md rules R11 to R17). -/
structure Pic where
  /-- Interrupt mask, 1 = masked (R11). -/
  imr : Byte
  /-- Interrupt requests, the stored bits (R12); bit 2 of the primary's is not stored (R19). -/
  irr : Byte
  /-- In service (R13). -/
  isr : Byte
  /-- Vector base (R14). -/
  vbase : Byte
  /-- Initialisation sequencer (R15). -/
  phase : Phase
  /-- Configuration latches (R16). -/
  icw1 : Byte
  icw3 : Byte
  icw4 : Byte
  /-- Read-select latch (R17). -/
  readSel : ReadSel
deriving DecidableEq, Repr

/-- One UART (10_state.md rules R22 to R28); its base is its place in `Uarts`. -/
structure Uart where
  /-- Line-control; bit 7 is the divisor-latch bit (R22). -/
  lcr : Byte
  /-- Interrupt-enable (R23). -/
  ier : Byte
  /-- FIFO enabled (R24). -/
  fifoEn : Bool
  /-- Receive trigger level in bytes (R24). -/
  rxTrigger : Nat
  /-- Modem-control (R25). -/
  mcr : Byte
  /-- Divisor latch, low and high byte (R26). -/
  dll : Byte
  dlm : Byte
  /-- Receive queue, oldest first (R27). -/
  rxFifo : List Byte
  /-- Bytes written and not yet taken by the transmitter, oldest first (R28). -/
  txPending : List Byte
  /-- Bytes put on the line, oldest first (R28). -/
  txLine : List Byte
  /-- `uart_inited[u]`: the eight writes of `uart.init()` have been made (R31). -/
  inited : Bool
deriving DecidableEq, Repr

/-- The UARTs that are present: the parameter `UART_INSTANCES` (00_scope.md rule R6). -/
structure Uarts where
  com1 : Option Uart
  com2 : Option Uart
  com3 : Option Uart
  com4 : Option Uart
  com5 : Option Uart
  com6 : Option Uart
  com7 : Option Uart
  com8 : Option Uart
deriving DecidableEq, Repr

/-! ## The steps of the other agents (00_scope.md rule R9) -/

/-- One step of an agent other than the driver. -/
inductive Event where
  /-- A device raises a request line (60_exceptions.md rule R173). -/
  | irqEdge (n : Source)
  /-- The CPU's acknowledge cycle (rule R176). -/
  | ack
  /-- A spurious acknowledge (rule R182). -/
  | spurious (c : Ctl)
  /-- The transmitter takes a byte (43_uart_registers.md rule R140). -/
  | txShift (u : Com)
  /-- A byte arrives from the line (rule R141). -/
  | rxArrive (u : Com) (b : Byte)
  /-- The UART raises its line (60_exceptions.md rule R181). -/
  | uartIrq (u : Com)
deriving DecidableEq, Repr

/-! ## The driver's calls (30_encoding.md rule R75) -/

/-- Transfer width of a Port Handle (20_memory.md rule R41). -/
inductive Width where
  | w8 | w16 | w32
deriving DecidableEq, Repr

/-- A Port Handle (10_state.md rule R32). -/
structure Handle where
  address : Port
  width : Width
deriving DecidableEq, Repr

/-- A value written through a handle; its width is the handle's (40_port_access.md rule R81). -/
inductive Value where
  | v8 (v : BitVec 8)
  | v16 (v : BitVec 16)
  | v32 (v : BitVec 32)
deriving DecidableEq, Repr

/-- A Port Range (10_state.md rule R32). -/
structure Range where
  base : Port
  count : Nat
deriving DecidableEq, Repr

/-- A driver operation with its arguments: one constructor per row of 30_encoding.md rule R75. -/
inductive Call where
  | handleRead (h : Handle)
  | handleWrite (address : Port) (v : Value)
  | rangeRead (r : Range) (offset : Nat)
  | rangeWrite (r : Range) (offset : Nat) (v : Byte)
  | picInit (offset : Byte)
  | picDisable
  | eoi (irq : Nat)
  | getMask
  | setMask (p s : Byte)
  | enableIrq (irq : Nat)
  | disableIrq (irq : Nat)
  | getIrr
  | getIsr
  | serialNew (base : Port)
  | uartInit (u : Com)
  | sendRaw (u : Com) (b : Byte)
  | receive (u : Com)
  | send (u : Com) (b : Byte)
  | writeStr (u : Com) (bytes : List Byte)
deriving DecidableEq, Repr

/-- The two bytes a driver operation keeps between its transactions. -/
inductive Slot where
  | x | y
deriving DecidableEq, Repr

/-- A byte a driver operation writes: given, or computed from a byte it read (30_encoding.md
rule R76). -/
inductive ByteExpr where
  | lit (b : Byte)
  /-- The byte read with the bits of `m` cleared. -/
  | clearBits (src : Slot) (m : Byte)
  /-- The byte read with the bits of `m` set. -/
  | setBits (src : Slot) (m : Byte)
deriving DecidableEq, Repr

/-- What a driver operation returns when it ends. -/
inductive Ret where
  | unit
  | byte
  | pair
  | port (u : Com)
deriving DecidableEq, Repr

/-- One thing the driver does in an operation: a transaction, one pass of a polling loop, or the
end of the operation. -/
inductive Action where
  /-- The transaction with this word. -/
  | txn (w : TxnWord)
  /-- `OUT8 port, e`. -/
  | output (port : Port) (e : ByteExpr)
  /-- `OUT8 port, e`, the last of the writes of `uart.init()` at `u`: with it the eight have been
  made and the instance is initialised (10_state.md rule R31). -/
  | outputLast (u : Com) (port : Port) (e : ByteExpr)
  /-- `IN8 port -> dst`. -/
  | input (port : Port) (dst : Slot)
  /-- `loop IN8 port -> st until st & mask != 0`. -/
  | poll (port : Port) (mask : Byte)
  | ret (r : Ret)
deriving DecidableEq, Repr

/-- A driver operation in progress: what it has left to do and the bytes it has read. -/
structure Frame where
  todo : List Action
  x : Byte
  y : Byte
deriving DecidableEq, Repr

/-- The value a completed driver operation returned. -/
inductive Result where
  | unit
  | byte (b : Byte)
  | pair (p s : Byte)
  | port (u : Com)
deriving DecidableEq, Repr

/-- Whose step comes next. -/
inductive Turn where
  /-- The driver's. -/
  | driver
  /-- Another agent's. -/
  | event (e : Event)
  /-- Other code on the same thread (an interrupt handler, a second driver) begins an operation
  before the driver goes on with its own (20_memory.md rules R50 and R52). -/
  | handler (c : Call)
deriving DecidableEq, Repr

/-! ## Stops -/

/-- The fatal failures (60_exceptions.md rule R170), each with the information it records. A failure
is raised by the assertion of a driver operation, which leaves it in `State.failure`; from then on
the driver's turn answers it as the fault of the step (rule R171). The spec gives the stop, so
stopping is safe: the driver issues nothing afterwards on the hardware either. -/
inductive Fault where
  /-- Code 1, raised by `init(offset)` with `offset < 32`. Safe: the spec's own halt. -/
  | badVectorOffset (offset : Byte)
  /-- Code 2, raised by `eoi`, `enable_irq`, `disable_irq` with `irq ≥ 16`. Safe: the spec's own
  halt. -/
  | badIrqIndex (irq : Nat)
  /-- Code 3, raised by `range.read` and `range.write` with `offset ≥ count`. Safe: the spec's own
  halt. -/
  | portRangeOutOfBounds (base : Port) (count offset : Nat)
  /-- Code 4, raised by `SerialPort::new` with a base that is none of the eight. Safe: the spec's own
  halt. -/
  | badSerialBase (base : Port)
deriving DecidableEq, Repr

/-- Where the spec gives a transaction or a call no meaning (00_scope.md rule R8, `refuse`). Every
one is safe: the model says nothing where the hardware does something. -/
inductive Refusal where
  /-- Raised by an arm of `exec` whose instruction has no meaning yet. Safe. -/
  | notModelled (mnemonic : String)
  /-- Raised by the fetch: the word is one the decoder refuses (30_encoding.md rule R73). Safe. -/
  | undecoded (r : Reject)
  /-- Raised by a controller's transaction in another phase than the one it needs (rule R73). Safe. -/
  | wrongPhase (c : Ctl) (needed : Phase)
  /-- Raised by an instruction whose operand byte is not admitted (rule R73). Safe. -/
  | operandNotAdmitted (data : Byte)
  /-- Raised by a transaction at a UART that is not present (20_memory.md rule R43). Safe. -/
  | uartAbsent (u : Com)
  /-- Raised by a UART access that the divisor-latch bit sends to another register (30_encoding.md
  rule R71). Safe. -/
  | divisorLatch (u : Com) (needed : Bool)
  /-- Raised by a data-register write while a byte is pending (43_uart_registers.md rule R130).
  Safe. -/
  | transmitterBusy (u : Com)
  /-- Raised by a data-register read with nothing received (rule R131). Safe. -/
  | receiverEmpty (u : Com)
  /-- Raised by a transaction at a port this hardware does not claim (20_memory.md rule R43). Safe. -/
  | unclaimedPort (port : Port)
  /-- Raised by a range access past port 0xFFFF (40_port_access.md rule R82, rule R40). Safe. -/
  | portBeyondSpace (base : Port) (offset : Nat)
  /-- Raised by a 16-bit or 32-bit access (20_memory.md rule R41). Safe. -/
  | wideAccess (h : Handle)
  /-- Raised by `init(offset)` with an offset of at least 32 that is no multiple of 8 or above 240
  (42_pic_driver_ops.md rule R110). Safe. -/
  | vectorOffsetNotAdmitted (offset : Byte)
  /-- Raised by `send_raw`, `send`, `receive` and `write_str` before `uart.init()`
  (70_reset_and_hazards.md rule R202). Safe. -/
  | uartNotInitialised (u : Com)
deriving DecidableEq, Repr

/-! ## The state -/

/-- The whole state. -/
structure State where
  /-- The primary controller. -/
  pic1 : Pic
  /-- The secondary controller. -/
  pic2 : Pic
  /-- The UARTs. -/
  uarts : Uarts
  /-- The open parameters; no step changes them. -/
  params : Params
  /-- `int_dropped` (10_state.md rule R38): the controller at which the last transaction turned the
  primary's output off, if it did. -/
  intDropped : Option Ctl
  /-- The transaction trace, oldest first (R35 b). -/
  trace : List TxnWord
  /-- The vector trace, oldest first (R35 d). -/
  vectors : List Nat
  /-- The fatal failure raised, if one was (R35 e). -/
  failure : Option Fault
  /-- The model's own: the byte the last read transaction returned (40_port_access.md rule R80). -/
  returned : Byte
  /-- The model's own: how many line-status draws have been made (log entry 5). -/
  draws : Nat
  /-- The model's own: whose steps come next; when it is empty, the driver's (log entry 7). -/
  schedule : List Turn
  /-- The model's own: the calls the driver has not begun (log entry 7). -/
  program : List Call
  /-- The model's own: the calls in progress, the innermost first (log entry 7). -/
  stack : List Frame
  /-- The model's own: what the completed calls returned, oldest first. -/
  results : List Result
deriving DecidableEq, Repr

/-! ## Reset -/

/-- A controller after power-on: `Uninit`, everything else unspecified by rule R36 and zero here
(log entry 1). -/
def Pic.powerOn : Pic where
  imr := 0x00#8
  irr := 0x00#8
  isr := 0x00#8
  vbase := 0x00#8
  phase := .uninit
  icw1 := 0x00#8
  icw3 := 0x00#8
  icw4 := 0x00#8
  readSel := .selIrr

/-- A UART after power-on: nothing on the line; everything else unspecified by rule R37 and zero or
empty here (log entry 2). -/
def Uart.powerOn : Uart where
  lcr := 0x00#8
  ier := 0x00#8
  fifoEn := false
  rxTrigger := 0
  mcr := 0x00#8
  dll := 0x00#8
  dlm := 0x00#8
  rxFifo := []
  txPending := []
  txLine := []
  inited := false

/-- All eight UARTs present (log entry 4). -/
def Uarts.powerOn : Uarts where
  com1 := some .powerOn
  com2 := some .powerOn
  com3 := some .powerOn
  com4 := some .powerOn
  com5 := some .powerOn
  com6 := some .powerOn
  com7 := some .powerOn
  com8 := some .powerOn

/-- The machine after power-on (70_reset_and_hazards.md rule R200). It executes nothing until calls
or turns are placed in it. -/
def State.reset : State where
  pic1 := .powerOn
  pic2 := .powerOn
  uarts := .powerOn
  params := Config.params
  intDropped := none
  trace := []
  vectors := []
  failure := none
  returned := 0x00#8
  draws := 0
  schedule := []
  program := []
  stack := []
  results := []

end Sys2Proof.Machine
end

