-- ==== Sys2Proof/Machine/Flags.lean ====
section
/-! DEFINITION. The derived signals, the block's counterpart of flags (10_state.md rule R33): the
lowest set bit, a controller's requests and output, the cascade input, a UART's line-status and
interrupt request. None is stored. -/

namespace Sys2Proof.Machine

/-- `lsb(v)`: the index of the lowest set bit, 8 for zero (00_scope.md rule R7). -/
def lsb (v : Byte) : Nat :=
  if v.getLsbD 0 then 0
  else if v.getLsbD 1 then 1
  else if v.getLsbD 2 then 2
  else if v.getLsbD 3 then 3
  else if v.getLsbD 4 then 4
  else if v.getLsbD 5 then 5
  else if v.getLsbD 6 then 6
  else if v.getLsbD 7 then 7
  else 8

/-- `1 << n`: the byte with only bit `n` set, for `n ≤ 7` (rule R7). -/
def bit (n : Nat) : Byte := 0x01#8 <<< n

/-- One controller of the pair. -/
def State.pic (s : State) : Ctl → Pic
  | .P => s.pic1
  | .S => s.pic2

/-- `int_out` of a controller whose request register reads `irr` (10_state.md rule R18). -/
def Pic.output (p : Pic) (irr : Byte) : Bool :=
  p.phase == .ready && irr &&& ~~~p.imr != 0x00#8 && decide (lsb (irr &&& ~~~p.imr) < lsb p.isr)

/-- The cascade input of the primary: the secondary's output (10_state.md rule R19). -/
def State.cascade (s : State) : Bool := s.pic2.output s.pic2.irr

/-- `irr[c]` as it reads: for the primary, bit 2 is the cascade input (rule R19). -/
def State.irr (s : State) : Ctl → Byte
  | .P => (s.pic1.irr &&& 0xFB#8) ||| (if s.cascade then 0x04#8 else 0x00#8)
  | .S => s.pic2.irr

/-- `req(c)`: pending and unmasked (rule R18). -/
def State.req (s : State) (c : Ctl) : Byte := s.irr c &&& ~~~(s.pic c).imr

/-- `int_out(c)` (rule R18). -/
def State.intOut (s : State) (c : Ctl) : Bool := (s.pic c).output (s.irr c)

/-- The divisor-latch bit (10_state.md rule R22). -/
def Uart.dlab (u : Uart) : Bool := u.lcr.getLsbD 7

/-- `lsr(u)` with the six undefined bits taken from `draw` (10_state.md rule R29): bit 0 input-full,
bit 5 output-empty. -/
def Uart.lsr (u : Uart) (draw : Byte) : Byte :=
  (draw &&& 0xDE#8) ||| (if u.rxFifo.isEmpty then 0x00#8 else 0x01#8)
    ||| (if u.txPending.isEmpty then 0x20#8 else 0x00#8)

/-- `uart_req(u)` (10_state.md rule R30). -/
def Uart.req (u : Uart) : Bool := u.ier.getLsbD 0 && u.mcr.getLsbD 3 && !u.rxFifo.isEmpty

/-- The UART at a place, if one is present. -/
def Uarts.get (us : Uarts) : Com → Option Uart
  | .com1 => us.com1
  | .com2 => us.com2
  | .com3 => us.com3
  | .com4 => us.com4
  | .com5 => us.com5
  | .com6 => us.com6
  | .com7 => us.com7
  | .com8 => us.com8

/-- The UART at a place, if one is present. -/
def State.uart (s : State) (u : Com) : Option Uart := s.uarts.get u

/-- The device state that takes part in decoding this word (30_encoding.md rule R74). -/
def State.selectors (s : State) (w : TxnWord) : Selectors where
  phaseP := s.pic1.phase
  phaseS := s.pic2.phase
  dlab :=
    match w with
    | .pic25 _ => false
    | .uart12 u _ =>
      match s.uart u with
      | some d => d.dlab
      | none => false

end Sys2Proof.Machine
end

