-- ==== Sys2Proof/Machine/Operands.lean ====
section
/-! DEFINITION. Operand assembly (30_encoding.md rule R76) and the driver's constants
(00_scope.md rule R6). -/

namespace Sys2Proof.Machine

/-- The controller a request line enters: lines 0 to 7 the primary, 8 to 15 the secondary. -/
def lineCtl (irq : Nat) : Ctl := if irq < 8 then .P else .S

/-- The input of that controller. -/
def lineInput (irq : Nat) : Nat := if irq < 8 then irq else irq - 8

/-- The number of a source line (60_exceptions.md rule R172). -/
def sourceLine : Source → Nat
  | .irq0 => 0
  | .irq1 => 1
  | .irq3 => 3
  | .irq4 => 4
  | .irq5 => 5
  | .irq6 => 6
  | .irq7 => 7
  | .irq8 => 8
  | .irq9 => 9
  | .irq10 => 10
  | .irq11 => 11
  | .irq12 => 12
  | .irq13 => 13
  | .irq14 => 14
  | .irq15 => 15

/-- `1 << 2`: the cascade bit of the primary. -/
def cascadeBit : Byte := 0x04#8

/-- `m & ~b`. -/
def clearMask (m b : Byte) : Byte := m &&& ~~~b

/-- `m | b`. -/
def setMask (m b : Byte) : Byte := m ||| b

/-- The ICW2 byte of the secondary, `offset + 8`; it does not wrap for an admitted offset. -/
def secondaryOffset (offset : Byte) : Byte := offset + 8#8

/-- `MIN_VECTOR_OFFSET`. -/
def minVectorOffset : Nat := 32

/-- The offsets `init` admits above the floor: multiples of 8 up to 240 (42_pic_driver_ops.md
rule R110). -/
def offsetAdmitted (offset : Byte) : Bool :=
  offset &&& 0x07#8 == 0x00#8 && decide (offset.toNat ≤ 240)

/-- `IRQ_COUNT`. -/
def irqCount : Nat := 16

/-- Low byte of the divisor. -/
def divisorLow (d : BitVec 16) : Byte := d.extractLsb' 0 8

/-- High byte of the divisor. -/
def divisorHigh (d : BitVec 16) : Byte := d.extractLsb' 8 8

/-- `IER_NONE` (decision D26). -/
def ierNone : Byte := 0x00#8

/-- `IER_RX_ONLY` (decision D26). -/
def ierRxOnly : Byte := 0x01#8

/-- `LCR_DLAB`. -/
def lcrDlab : Byte := 0x80#8

/-- `LCR_8N1` (decision D26). -/
def lcr8n1 : Byte := 0x03#8

/-- `LSR_INPUT_FULL`. -/
def lsrInputFull : Byte := 0x01#8

/-- `LSR_OUTPUT_EMPTY`. -/
def lsrOutputEmpty : Byte := 0x20#8

/-- `RX_CAPACITY` (decision D29). -/
def rxCapacity : Nat := 16

/-- The trigger level the FIFO-control byte 0xC7 selects (43_uart_registers.md rule R135). -/
def rxTriggerLevel : Nat := 14

/-- `CH_BACKSPACE`. -/
def chBackspace : Byte := 0x08#8

/-- `CH_SPACE`. -/
def chSpace : Byte := 0x20#8

/-- `CH_DEL` (decision D26). -/
def chDel : Byte := 0x7F#8

/-- The value of a byte expression over the bytes an operation has read. -/
def ByteExpr.eval (e : ByteExpr) (f : Frame) : Byte :=
  match e with
  | .lit b => b
  | .clearBits .x m => clearMask f.x m
  | .clearBits .y m => clearMask f.y m
  | .setBits .x m => setMask f.x m
  | .setBits .y m => setMask f.y m

/-- The handle width of a value. -/
def Value.width : Value → Width
  | .v8 _ => .w8
  | .v16 _ => .w16
  | .v32 _ => .w32

/-- Bytes moved by a transfer of this width. -/
def Width.bytes : Width → Nat
  | .w8 => 1
  | .w16 => 2
  | .w32 => 4

/-- The place with this base, if it is one of the eight canonical ones (44_uart_driver_ops.md
rule R150). -/
def comOfBase (base : Port) : Option Com := Com.all.find? (fun u => u.base == base)

end Sys2Proof.Machine
end

