-- ==== Sys2Proof/Machine/Ops.lean ====
section
/-! DEFINITION. The shared operations: writing a controller or a UART back, ending a transaction,
the guards of a transaction, raising a fatal failure, setting a request bit, acknowledging a line,
and delivering a vector. -/

namespace Sys2Proof.Machine

/-- What a step answers. -/
abbrev Answer := Host.Outcome State Fault Refusal

/-! ## Updates -/

/-- Write one controller back. -/
def State.setPic (s : State) (c : Ctl) (p : Pic) : State :=
  match c with
  | .P => { s with pic1 := p }
  | .S => { s with pic2 := p }

/-- Write one UART back. -/
def Uarts.set (us : Uarts) (u : Com) (d : Uart) : Uarts :=
  match u with
  | .com1 => { us with com1 := some d }
  | .com2 => { us with com2 := some d }
  | .com3 => { us with com3 := some d }
  | .com4 => { us with com4 := some d }
  | .com5 => { us with com5 := some d }
  | .com6 => { us with com6 := some d }
  | .com7 => { us with com7 := some d }
  | .com8 => { us with com8 := some d }

/-- Write one UART back. -/
def State.setUart (s : State) (u : Com) (d : Uart) : State := { s with uarts := s.uarts.set u d }

/-- `uart_inited[u] <- true` (10_state.md rule R31); nothing where no UART is present. -/
def State.markInited (s : State) (u : Com) : State :=
  match s.uart u with
  | some d => s.setUart u { d with inited := true }
  | none => s

/-- The byte a read transaction returns. -/
def State.setReturned (s : State) (b : Byte) : State := { s with returned := b }

/-! ## Transactions -/

/-- `int_dropped` after a transaction from `s` to `t` addressed to the controller `at?`, or to a
UART when it is `none`: set when `int_out(P)` went from true to false across it, otherwise cleared,
and never set unless spurious acknowledges are modelled (10_state.md rule R38, 60_exceptions.md
rule R182). -/
def intDroppedAfter (at? : Option Ctl) (s t : State) : Option Ctl :=
  if s.params.spuriousModelled && s.intOut .P && !t.intOut .P then at? else none

/-- The end of a transaction that took the devices from `s` to `t`: its word joins the trace
(10_state.md rule R35) and `int_dropped` is recomputed. -/
def finish (at? : Option Ctl) (w : TxnWord) (s t : State) : Answer :=
  .next { t with trace := s.trace ++ [w], intDropped := intDroppedAfter at? s t }

/-- A write transaction at controller `c`, admitted in phase `needed` only. -/
def picWrite (i : Instr) (c : Ctl) (needed : Phase) (device : Pic → Pic) (s : State) : Answer :=
  if (s.pic c).phase = needed then
    finish (some c) (encode i) s (s.setPic c (device (s.pic c)))
  else .refused (.wrongPhase c needed)

/-- A read transaction at controller `c`, admitted when it is `Ready`: it returns `value` and
changes nothing in the devices. -/
def picRead (i : Instr) (c : Ctl) (value : Byte) (s : State) : Answer :=
  if (s.pic c).phase = .ready then
    finish (some c) ((encode i).withData value) s (s.setReturned value)
  else .refused (.wrongPhase c .ready)

/-- A write transaction at UART `u`, for a register that the divisor-latch bit does not hide. -/
def uartWrite (i : Instr) (u : Com) (device : Uart → Uart) (s : State) : Answer :=
  match s.uart u with
  | some d => finish none (encode i) s (s.setUart u (device d))
  | none => .refused (.uartAbsent u)

/-- A write transaction at UART `u`, admitted while the divisor-latch bit is `dlab`. -/
def uartLatchedWrite (i : Instr) (u : Com) (dlab : Bool) (device : Uart → Uart) (s : State) :
    Answer :=
  match s.uart u with
  | some d =>
    if d.dlab = dlab then finish none (encode i) s (s.setUart u (device d))
    else .refused (.divisorLatch u dlab)
  | none => .refused (.uartAbsent u)

/-! ## Fatal failures (60_exceptions.md rules R170 and R171) -/

/-- Raising a fatal failure: the failure and its information are recorded and nothing else changes.
It saves no state, enters no handler and is never returned from; the driver's turns answer it from
here on. -/
def raise (f : Fault) (s : State) : State := { s with failure := some f }

/-! ## Interrupts: the controller's side of entry (60_exceptions.md sections 3 and 4) -/

/-- Set the request bit of input `i` at controller `c`, unless its register holds no value yet
(rule R173). -/
def requestLine (c : Ctl) (i : Nat) (s : State) : State :=
  if (s.pic c).phase = .uninit then s
  else s.setPic c { s.pic c with irr := (s.pic c).irr ||| bit i }

/-- `deliver(v)`: the vector joins the vector trace (rule R176). -/
def deliver (v : Nat) (s : State) : State := { s with vectors := s.vectors ++ [v] }

/-- A delivered input is in service and no longer pending (rule R176). -/
def Pic.take (p : Pic) (i : Nat) : Pic :=
  { p with isr := p.isr ||| bit i, irr := p.irr &&& ~~~bit i }

/-- The acknowledge of a line of the primary (rule R176). -/
def ackPrimary (n : Nat) (s : State) : State :=
  deliver (s.pic1.vbase.toNat + n) (s.setPic .P (s.pic1.take n))

/-- The acknowledge of a line of the secondary: both controllers hold an in-service bit
(rule R176). -/
def ackSecondary (k : Nat) (s : State) : State :=
  deliver (s.pic2.vbase.toNat + k)
    ((s.setPic .P { s.pic1 with isr := s.pic1.isr ||| cascadeBit }).setPic .S (s.pic2.take k))

/-- The acknowledge cycle: the highest-priority deliverable line is taken (rule R176). -/
def acknowledge (s : State) : State :=
  if lsb (s.req .P) = 2 then ackSecondary (lsb (s.req .S)) s else ackPrimary (lsb (s.req .P)) s

/-! ## Interrupts: the controller's side of return (41_pic_commands.md rule R96) -/

/-- The end-of-interrupt command clears the lowest-numbered in-service bit, if there is one. -/
def Pic.endOfInterrupt (p : Pic) : Pic :=
  if p.isr = 0x00#8 then p else { p with isr := p.isr &&& ~~~bit (lsb p.isr) }

end Sys2Proof.Machine
end

