-- ==== Sys2Proof/Machine/PicInit.lean ====
section
/-! DEFINITION. The initialisation command words (41_pic_commands.md rules R90 to R93). Each is
one definition per controller over one device effect. -/

namespace Sys2Proof.Machine

/-- ICW1 opens the sequence, clears mask, requests and in-service bits and selects the request
register; the vector base and the other latches keep their values (rule R90). -/
def Pic.icw1Effect (p : Pic) : Pic :=
  { p with
    icw1 := cmdInit
    phase := .waitIcw2
    imr := 0x00#8
    isr := 0x00#8
    irr := 0x00#8
    readSel := .selIrr }

/-- ICW2 sets the vector base (rule R91). -/
def Pic.icw2Effect (p : Pic) (data : Byte) : Pic := { p with vbase := data, phase := .waitIcw3 }

/-- ICW3 sets the cascade latch (rule R92). -/
def Pic.icw3Effect (p : Pic) (data : Byte) : Pic := { p with icw3 := data, phase := .waitIcw4 }

/-- ICW4 sets the mode latch and makes the controller ready (rule R93). -/
def Pic.icw4Effect (p : Pic) (data : Byte) : Pic := { p with icw4 := data, phase := .ready }

/-- ICW1 is admitted in every phase, `Uninit` included (rule R90). -/
def icw1At (i : Instr) (c : Ctl) (s : State) : Answer :=
  finish (some c) (encode i) s (s.setPic c (s.pic c).icw1Effect)

/-- ICW2 is admitted with zero low bits while the controller waits for it (rule R91). -/
def icw2At (i : Instr) (c : Ctl) (data : Byte) (s : State) : Answer :=
  if icw2Admitted data then picWrite i c .waitIcw2 (fun p => p.icw2Effect data) s
  else .refused (.operandNotAdmitted data)

/-- `PIC1.ICW1` (rule R90). -/
def execPic1Icw1 (s : State) : Answer :=
  icw1At .pic1Icw1 .P s

/-- `PIC1.ICW2` (rule R91). -/
def execPic1Icw2 (data : Byte) (s : State) : Answer :=
  icw2At (.pic1Icw2 data) .P data s

/-- `PIC1.ICW3` (rule R92). -/
def execPic1Icw3 (s : State) : Answer :=
  picWrite .pic1Icw3 .P .waitIcw3 (fun p => p.icw3Effect (Ctl.icw3Byte .P)) s

/-- `PIC1.ICW4` (rule R93). -/
def execPic1Icw4 (s : State) : Answer :=
  picWrite .pic1Icw4 .P .waitIcw4 (fun p => p.icw4Effect icw4Byte) s

/-- `PIC2.ICW1` (rule R90). -/
def execPic2Icw1 (s : State) : Answer :=
  icw1At .pic2Icw1 .S s

/-- `PIC2.ICW2` (rule R91). -/
def execPic2Icw2 (data : Byte) (s : State) : Answer :=
  icw2At (.pic2Icw2 data) .S data s

/-- `PIC2.ICW3` (rule R92). -/
def execPic2Icw3 (s : State) : Answer :=
  picWrite .pic2Icw3 .S .waitIcw3 (fun p => p.icw3Effect (Ctl.icw3Byte .S)) s

/-- `PIC2.ICW4` (rule R93). -/
def execPic2Icw4 (s : State) : Answer :=
  picWrite .pic2Icw4 .S .waitIcw4 (fun p => p.icw4Effect icw4Byte) s

end Sys2Proof.Machine
end

