-- ==== Sys2Proof/Machine/PicOps.lean ====
section
/-! DEFINITION. The transactions of a ready controller (41_pic_commands.md rules R94 to R99). Each is
one definition per controller over one device effect. -/

namespace Sys2Proof.Machine

/-- The byte a read of the command port returns (rule R99): the request register as it reads, or the
in-service register. -/
def State.selected (s : State) (c : Ctl) : Byte :=
  match (s.pic c).readSel with
  | .selIrr => s.irr c
  | .selIsr => (s.pic c).isr

/-- `PIC1.OCW1`, the mask write (rule R94). -/
def execPic1Ocw1 (data : Byte) (s : State) : Answer :=
  picWrite (.pic1Ocw1 data) .P .ready (fun p => { p with imr := data }) s

/-- `PIC1.RD_IMR`, the mask read (rule R95). -/
def execPic1RdImr (s : State) : Answer :=
  picRead .pic1RdImr .P s.pic1.imr s

/-- `PIC1.EOI`, end of interrupt (rule R96). -/
def execPic1Eoi (s : State) : Answer :=
  picWrite .pic1Eoi .P .ready (fun p => p.endOfInterrupt) s

/-- `PIC1.SEL_IRR` (rule R97). -/
def execPic1SelIrr (s : State) : Answer :=
  picWrite .pic1SelIrr .P .ready (fun p => { p with readSel := .selIrr }) s

/-- `PIC1.SEL_ISR` (rule R98). -/
def execPic1SelIsr (s : State) : Answer :=
  picWrite .pic1SelIsr .P .ready (fun p => { p with readSel := .selIsr }) s

/-- `PIC1.RD_SEL`, the read of the selected register (rule R99). -/
def execPic1RdSel (s : State) : Answer :=
  picRead .pic1RdSel .P (s.selected .P) s

/-- `PIC2.OCW1`, the mask write (rule R94). -/
def execPic2Ocw1 (data : Byte) (s : State) : Answer :=
  picWrite (.pic2Ocw1 data) .S .ready (fun p => { p with imr := data }) s

/-- `PIC2.RD_IMR`, the mask read (rule R95). -/
def execPic2RdImr (s : State) : Answer :=
  picRead .pic2RdImr .S s.pic2.imr s

/-- `PIC2.EOI`, end of interrupt (rule R96). -/
def execPic2Eoi (s : State) : Answer :=
  picWrite .pic2Eoi .S .ready (fun p => p.endOfInterrupt) s

/-- `PIC2.SEL_IRR` (rule R97). -/
def execPic2SelIrr (s : State) : Answer :=
  picWrite .pic2SelIrr .S .ready (fun p => { p with readSel := .selIrr }) s

/-- `PIC2.SEL_ISR` (rule R98). -/
def execPic2SelIsr (s : State) : Answer :=
  picWrite .pic2SelIsr .S .ready (fun p => { p with readSel := .selIsr }) s

/-- `PIC2.RD_SEL`, the read of the selected register (rule R99). -/
def execPic2RdSel (s : State) : Answer :=
  picRead .pic2RdSel .S (s.selected .S) s

end Sys2Proof.Machine
end

