-- ==== Sys2Proof/Machine/UartRegs.lean ====
section
/-! DEFINITION. The UART register accesses (43_uart_registers.md rules R130 to R138). A transaction
at a UART that is not present is refused (20_memory.md rule R43). -/

namespace Sys2Proof.Machine

/-- The FIFO-control byte 0xC7: enable, trigger at 14 bytes, empty both queues; what is on the line
stays there (rule R135). -/
def Uart.fcrEffect (d : Uart) : Uart :=
  { d with fifoEn := true, rxTrigger := rxTriggerLevel, rxFifo := [], txPending := [] }

/-- `UART.THR_WR`: the byte is queued; refused while a byte is pending (rule R130). -/
def execUartThrWr (u : Com) (data : Byte) (s : State) : Answer :=
  match s.uart u with
  | some d =>
    if d.dlab = false then
      if d.txPending = [] then
        finish none (encode (.uartThrWr u data)) s (s.setUart u { d with txPending := [data] })
      else .refused (.transmitterBusy u)
    else .refused (.divisorLatch u false)
  | none => .refused (.uartAbsent u)

/-- `UART.RBR_RD`: the oldest byte received is removed and returned; refused when there is none
(rule R131). -/
def execUartRbrRd (u : Com) (s : State) : Answer :=
  match s.uart u with
  | some d =>
    if d.dlab = false then
      match d.rxFifo with
      | b :: rest =>
        finish none ((encode (.uartRbrRd u)).withData b) s
          ((s.setUart u { d with rxFifo := rest }).setReturned b)
      | [] => .refused (.receiverEmpty u)
    else .refused (.divisorLatch u false)
  | none => .refused (.uartAbsent u)

/-- `UART.DLL_WR` (rule R132). -/
def execUartDllWr (u : Com) (data : Byte) (s : State) : Answer :=
  uartLatchedWrite (.uartDllWr u data) u true (fun d => { d with dll := data }) s

/-- `UART.DLM_WR` (rule R133). -/
def execUartDlmWr (u : Com) (data : Byte) (s : State) : Answer :=
  uartLatchedWrite (.uartDlmWr u data) u true (fun d => { d with dlm := data }) s

/-- `UART.IER_WR` (rule R134). -/
def execUartIerWr (u : Com) (data : Byte) (s : State) : Answer :=
  if ierAdmitted data then
    uartLatchedWrite (.uartIerWr u data) u false (fun d => { d with ier := data }) s
  else .refused (.operandNotAdmitted data)

/-- `UART.FCR_WR` (rule R135). -/
def execUartFcrWr (u : Com) (s : State) : Answer :=
  uartWrite (.uartFcrWr u) u (fun d => d.fcrEffect) s

/-- `UART.LCR_WR`: the new divisor-latch bit is in force for the next transaction (rule R136). -/
def execUartLcrWr (u : Com) (data : Byte) (s : State) : Answer :=
  if lcrAdmitted data then uartWrite (.uartLcrWr u data) u (fun d => { d with lcr := data }) s
  else .refused (.operandNotAdmitted data)

/-- `UART.MCR_WR` (rule R137). -/
def execUartMcrWr (u : Com) (s : State) : Answer :=
  uartWrite (.uartMcrWr u) u (fun d => { d with mcr := mcrByte }) s

/-- `UART.LSR_RD`: bits 0 and 5 from the queues, the other six drawn afresh (rule R138, log
entry 5). -/
def execUartLsrRd (u : Com) (s : State) : Answer :=
  match s.uart u with
  | some d =>
    let v := d.lsr (Config.lsrDraw s.draws)
    finish none ((encode (.uartLsrRd u)).withData v) s
      { s.setReturned v with draws := s.draws + 1 }
  | none => .refused (.uartAbsent u)

end Sys2Proof.Machine
end

