-- ==== Sys2Proof/Machine/Dispatch.lean ====
section
/-! DEFINITION. The dispatch: one arm per row of the opcode table. -/

namespace Sys2Proof.Machine

/-- Carry out one transaction. -/
def exec (i : Instr) (s : State) : Host.Outcome State Fault Refusal :=
  match i with
  | .pic1Icw1 => Sys2Proof.Machine.execPic1Icw1 s
  | .pic1Icw2 data => Sys2Proof.Machine.execPic1Icw2 data s
  | .pic1Icw3 => Sys2Proof.Machine.execPic1Icw3 s
  | .pic1Icw4 => Sys2Proof.Machine.execPic1Icw4 s
  | .pic1Ocw1 data => Sys2Proof.Machine.execPic1Ocw1 data s
  | .pic1RdImr => Sys2Proof.Machine.execPic1RdImr s
  | .pic1Eoi => Sys2Proof.Machine.execPic1Eoi s
  | .pic1SelIrr => Sys2Proof.Machine.execPic1SelIrr s
  | .pic1SelIsr => Sys2Proof.Machine.execPic1SelIsr s
  | .pic1RdSel => Sys2Proof.Machine.execPic1RdSel s
  | .pic2Icw1 => Sys2Proof.Machine.execPic2Icw1 s
  | .pic2Icw2 data => Sys2Proof.Machine.execPic2Icw2 data s
  | .pic2Icw3 => Sys2Proof.Machine.execPic2Icw3 s
  | .pic2Icw4 => Sys2Proof.Machine.execPic2Icw4 s
  | .pic2Ocw1 data => Sys2Proof.Machine.execPic2Ocw1 data s
  | .pic2RdImr => Sys2Proof.Machine.execPic2RdImr s
  | .pic2Eoi => Sys2Proof.Machine.execPic2Eoi s
  | .pic2SelIrr => Sys2Proof.Machine.execPic2SelIrr s
  | .pic2SelIsr => Sys2Proof.Machine.execPic2SelIsr s
  | .pic2RdSel => Sys2Proof.Machine.execPic2RdSel s
  | .uartThrWr u data => Sys2Proof.Machine.execUartThrWr u data s
  | .uartRbrRd u => Sys2Proof.Machine.execUartRbrRd u s
  | .uartDllWr u data => Sys2Proof.Machine.execUartDllWr u data s
  | .uartDlmWr u data => Sys2Proof.Machine.execUartDlmWr u data s
  | .uartIerWr u data => Sys2Proof.Machine.execUartIerWr u data s
  | .uartFcrWr u => Sys2Proof.Machine.execUartFcrWr u s
  | .uartLcrWr u data => Sys2Proof.Machine.execUartLcrWr u data s
  | .uartMcrWr u => Sys2Proof.Machine.execUartMcrWr u s
  | .uartLsrRd u => Sys2Proof.Machine.execUartLsrRd u s

end Sys2Proof.Machine
end

