-- ==== Sys2Proof/Machine/Driver.lean ====
section
/-! DEFINITION. The driver operations (40_port_access.md, 42_pic_driver_ops.md,
44_uart_driver_ops.md): what each checks before its first transaction and the transactions it
expands to. -/

namespace Sys2Proof.Machine

/-- What beginning a call answers: the operation's actions, a fatal failure, or a refusal. -/
inductive Begin where
  | run (actions : List Action)
  | fail (f : Fault)
  | refuse (r : Refusal)
deriving DecidableEq, Repr

/-! ## Port Handle and Port Range -/

/-- A port this hardware answers at in some direction, given the UARTs present (20_memory.md
rule R42). -/
def State.claims (s : State) (port : Port) : Bool :=
  (wordAt (fun u => (s.uart u).isSome) true port 0x00#8).isSome

/-- What an access of another width than 8 answers: refused as a wide access where it touches a
claimed port (20_memory.md rule R41), as an unclaimed port elsewhere (rule R43). -/
def wideRefusal (h : Handle) (s : State) : Refusal :=
  if (List.range h.width.bytes).any (fun k => s.claims (h.address + BitVec.ofNat 16 k)) then
    .wideAccess h
  else .unclaimedPort h.address

/-- `handle.read()` (40_port_access.md rule R80). -/
def beginHandleRead (h : Handle) (s : State) : Begin :=
  match h.width with
  | .w8 => .run [.input h.address .x, .ret .byte]
  | .w16 => .refuse (wideRefusal h s)
  | .w32 => .refuse (wideRefusal h s)

/-- `handle.write(value)` (rule R81). -/
def beginHandleWrite (address : Port) (v : Value) (s : State) : Begin :=
  match v with
  | .v8 b => .run [.output address (.lit b), .ret .unit]
  | .v16 _ => .refuse (wideRefusal { address := address, width := v.width } s)
  | .v32 _ => .refuse (wideRefusal { address := address, width := v.width } s)

/-- The bound check of a range access, then the access at `base + offset` (rules R82 and R83). -/
def withRange (r : Range) (offset : Nat) (access : Port → List Action) : Begin :=
  if offset < r.count then
    if r.base.toNat + offset < 2 ^ 16 then .run (access (BitVec.ofNat 16 (r.base.toNat + offset)))
    else .refuse (.portBeyondSpace r.base offset)
  else .fail (.portRangeOutOfBounds r.base r.count offset)

/-- `range.read(offset)` (rule R82). -/
def beginRangeRead (r : Range) (offset : Nat) : Begin :=
  withRange r offset (fun port => [.input port .x, .ret .byte])

/-- `range.write(offset, value)` (rule R83). -/
def beginRangeWrite (r : Range) (offset : Nat) (v : Byte) : Begin :=
  withRange r offset (fun port => [.output port (.lit v), .ret .unit])

/-! ## Interrupt controller driver -/

/-- `OUT8 port, b` with a given byte. -/
def out8 (port : Port) (b : Byte) : Action := .output port (.lit b)

/-- The ten writes of `init(offset)` (42_pic_driver_ops.md rule R110). -/
def picInitActions (offset : Byte) : List Action :=
  [ out8 (Ctl.cmdPort .P) cmdInit,
    out8 (Ctl.cmdPort .S) cmdInit,
    out8 (Ctl.dataPort .P) offset,
    out8 (Ctl.dataPort .S) (secondaryOffset offset),
    out8 (Ctl.dataPort .P) (Ctl.icw3Byte .P),
    out8 (Ctl.dataPort .S) (Ctl.icw3Byte .S),
    out8 (Ctl.dataPort .P) icw4Byte,
    out8 (Ctl.dataPort .S) icw4Byte,
    out8 (Ctl.dataPort .P) 0xFF#8,
    out8 (Ctl.dataPort .S) 0xFF#8,
    .ret .unit ]

/-- `init(offset)` (rule R110). -/
def beginPicInit (offset : Byte) : Begin :=
  if offset.toNat < minVectorOffset then .fail (.badVectorOffset offset)
  else if offsetAdmitted offset then .run (picInitActions offset)
  else .refuse (.vectorOffsetNotAdmitted offset)

/-- `set_mask(p, s)`, primary first (rule R114). -/
def setMaskActions (p s : Byte) : List Action :=
  [out8 (Ctl.dataPort .P) p, out8 (Ctl.dataPort .S) s, .ret .unit]

/-- The assertion `irq < 16` before an operation on a line (rules R112, R115, R116). -/
def withIrq (irq : Nat) (actions : List Action) : Begin :=
  if irq < irqCount then .run actions else .fail (.badIrqIndex irq)

/-- `eoi(irq)`: the secondary first for its lines, the primary always and last (rule R112). -/
def eoiActions (irq : Nat) : List Action :=
  if irq < 8 then [out8 (Ctl.cmdPort .P) cmdEoi, .ret .unit]
  else [out8 (Ctl.cmdPort .S) cmdEoi, out8 (Ctl.cmdPort .P) cmdEoi, .ret .unit]

/-- `enable_irq(irq)`: clear the line's mask bit, and for a line of the secondary the cascade bit of
the primary too (rule R115). -/
def enableIrqActions (irq : Nat) : List Action :=
  if irq < 8 then
    [ .input (Ctl.dataPort .P) .x,
      .output (Ctl.dataPort .P) (.clearBits .x (bit (lineInput irq))),
      .ret .unit ]
  else
    [ .input (Ctl.dataPort .S) .x,
      .output (Ctl.dataPort .S) (.clearBits .x (bit (lineInput irq))),
      .input (Ctl.dataPort .P) .y,
      .output (Ctl.dataPort .P) (.clearBits .y cascadeBit),
      .ret .unit ]

/-- `disable_irq(irq)`: set the line's mask bit; no effect on the cascade (rule R116). -/
def disableIrqActions (irq : Nat) : List Action :=
  [ .input (lineCtl irq).dataPort .x,
    .output (lineCtl irq).dataPort (.setBits .x (bit (lineInput irq))),
    .ret .unit ]

/-- `get_mask()`, primary first (rule R113). -/
def getMaskActions : List Action :=
  [.input (Ctl.dataPort .P) .x, .input (Ctl.dataPort .S) .y, .ret .pair]

/-- `get_irr()` and `get_isr()`: both selects, then both reads, primary first (rules R117, R118). -/
def getSelectedActions (select : Byte) : List Action :=
  [ out8 (Ctl.cmdPort .P) select,
    out8 (Ctl.cmdPort .S) select,
    .input (Ctl.cmdPort .P) .x,
    .input (Ctl.cmdPort .S) .y,
    .ret .pair ]

/-! ## Serial line driver -/

/-- `SerialPort::new(base)`: the check alone, no transaction (44_uart_driver_ops.md rule R150). -/
def beginSerialNew (base : Port) : Begin :=
  match comOfBase base with
  | some u => .run [.ret (.port u)]
  | none => .fail (.badSerialBase base)

/-- The eight writes of `uart.init()` (rule R151); the last makes the instance initialised. -/
def uartInitActions (divisor : BitVec 16) (u : Com) : List Action :=
  [ out8 (u.port 1) ierNone,
    out8 (u.port 3) lcrDlab,
    out8 (u.port 0) (divisorLow divisor),
    out8 (u.port 1) (divisorHigh divisor),
    out8 (u.port 3) lcr8n1,
    out8 (u.port 2) fcrByte,
    out8 (u.port 4) mcrByte,
    .outputLast u (u.port 1) (.lit ierRxOnly),
    .ret .unit ]

/-- `uart.send_raw(byte)` (rule R153). -/
def sendRawActions (u : Com) (b : Byte) : List Action :=
  [.poll (u.port 5) lsrOutputEmpty, out8 (u.port 0) b]

/-- The bytes `uart.send(byte)` puts out: backspace and DEL become backspace, space, backspace
(rule R155). -/
def sendBytes (b : Byte) : List Byte :=
  if b = chBackspace ∨ b = chDel then [chBackspace, chSpace, chBackspace] else [b]

/-- `uart.send(byte)` (rule R155). -/
def sendActions (u : Com) (b : Byte) : List Action := (sendBytes b).flatMap (sendRawActions u)

/-- `uart.receive()` (rule R154). -/
def receiveActions (u : Com) : List Action :=
  [.poll (u.port 5) lsrInputFull, .input (u.port 0) .x, .ret .byte]

/-- A UART operation other than `init`: given a meaning only after `uart.init()`
(70_reset_and_hazards.md rule R202); an absent UART is refused (20_memory.md rule R43). -/
def withInited (u : Com) (actions : List Action) (s : State) : Begin :=
  match s.uart u with
  | some d => if d.inited then .run actions else .refuse (.uartNotInitialised u)
  | none => .refuse (.uartAbsent u)

/-- `uart.write_str(bytes)`: `send` for each byte in order; the empty string issues no transaction
and needs no UART (rule R156). -/
def beginWriteStr (u : Com) (bytes : List Byte) (s : State) : Begin :=
  match bytes with
  | [] => .run [.ret .unit]
  | b :: rest => withInited u ((b :: rest).flatMap (sendActions u) ++ [.ret .unit]) s

/-! ## Beginning a call and ending it -/

/-- What a call checks and what it expands to (30_encoding.md rule R75). -/
def Call.start (c : Call) (s : State) : Begin :=
  match c with
  | .handleRead h => beginHandleRead h s
  | .handleWrite address v => beginHandleWrite address v s
  | .rangeRead r offset => beginRangeRead r offset
  | .rangeWrite r offset v => beginRangeWrite r offset v
  | .picInit offset => beginPicInit offset
  | .picDisable => .run (setMaskActions 0xFF#8 0xFF#8)
  | .eoi irq => withIrq irq (eoiActions irq)
  | .getMask => .run getMaskActions
  | .setMask p q => .run (setMaskActions p q)
  | .enableIrq irq => withIrq irq (enableIrqActions irq)
  | .disableIrq irq => withIrq irq (disableIrqActions irq)
  | .getIrr => .run (getSelectedActions cmdReadIrr)
  | .getIsr => .run (getSelectedActions cmdReadIsr)
  | .serialNew base => beginSerialNew base
  | .uartInit u => .run (uartInitActions s.params.baudDivisor u)
  | .sendRaw u b => withInited u (sendRawActions u b ++ [.ret .unit]) s
  | .receive u => withInited u (receiveActions u) s
  | .send u b => withInited u (sendActions u b ++ [.ret .unit]) s
  | .writeStr u bytes => beginWriteStr u bytes s

/-- A call begins: its actions go on top of the stack, or its failure is raised with no transaction
issued (60_exceptions.md rule R171), or it is refused. -/
def enterCall (c : Call) (s : State) : Answer :=
  match c.start s with
  | .run actions => .next { s with stack := { todo := actions, x := 0x00#8, y := 0x00#8 } :: s.stack }
  | .fail f => .next (raise f s)
  | .refuse r => .refused r

/-- What a call that ends returns, from the bytes it has read. -/
def Ret.result (r : Ret) (f : Frame) : Result :=
  match r with
  | .unit => .unit
  | .byte => .byte f.x
  | .pair => .pair f.x f.y
  | .port u => .port u

/-- A call ends: its result is recorded and the call below it goes on. -/
def leaveCall (r : Ret) (f : Frame) (below : List Frame) (s : State) : State :=
  { s with stack := below, results := s.results ++ [r.result f] }

/-- Store a byte read into the frame's slot. -/
def Frame.store (f : Frame) (dst : Slot) (b : Byte) : Frame :=
  match dst with
  | .x => { f with x := b }
  | .y => { f with y := b }

end Sys2Proof.Machine
end

