-- ==== Sys2Proof/Machine/Events.lean ====
section
/-! DEFINITION. The steps of the agents other than the driver (00_scope.md rule R9). An event answers
`none` where it is not enabled. -/

namespace Sys2Proof.Machine

/-- `event IrqEdge(n)`: always enabled (60_exceptions.md rule R173). -/
def occurIrqEdge (n : Source) (s : State) : State :=
  requestLine (lineCtl (sourceLine n)) (lineInput (sourceLine n)) s

/-- `event Ack`: enabled while the primary's output is on (rule R176). -/
def occurAck (s : State) : Option State := if s.intOut .P then some (acknowledge s) else none

/-- `event Spurious(c)`: enabled while `int_dropped` is set; at the secondary only if the
transaction was addressed to it and the cascade is unmasked (rule R182). -/
def occurSpurious (c : Ctl) (s : State) : Option State :=
  match c with
  | .P =>
    if s.params.spuriousModelled && s.intDropped.isSome then
      some (deliver (s.pic1.vbase.toNat + 7) s)
    else none
  | .S =>
    if s.params.spuriousModelled && s.intDropped == some .S && !s.pic1.imr.getLsbD 2 then
      some (deliver (s.pic2.vbase.toNat + 7)
        (s.setPic .P { s.pic1 with isr := s.pic1.isr ||| cascadeBit }))
    else none

/-- `event TxShift(u)`: enabled while a byte is pending (43_uart_registers.md rule R140). -/
def occurTxShift (u : Com) (s : State) : Option State :=
  match s.uart u with
  | some d =>
    match d.txPending with
    | b :: rest => some (s.setUart u { d with txPending := rest, txLine := d.txLine ++ [b] })
    | [] => none
  | none => none

/-- `event RxArrive(u, b)`: always enabled; the byte is lost when the queue is full (rule R141). -/
def occurRxArrive (u : Com) (b : Byte) (s : State) : Option State :=
  match s.uart u with
  | some d =>
    if d.rxFifo.length < rxCapacity then
      some (s.setUart u { d with rxFifo := d.rxFifo ++ [b] })
    else some s
  | none => none

/-- `event UartIrq(u)`: enabled while the UART requests and drives a line (60_exceptions.md
rule R181). -/
def occurUartIrq (u : Com) (s : State) : Option State :=
  match s.uart u, s.params.uartIrqLine with
  | some d, some n => if d.req then some (occurIrqEdge n s) else none
  | some _, none => none
  | none, _ => none

/-- The effect of an event on the devices and the observations, where it is enabled. -/
def Event.effect (e : Event) (s : State) : Option State :=
  match e with
  | .irqEdge n => some (occurIrqEdge n s)
  | .ack => occurAck s
  | .spurious c => occurSpurious c s
  | .txShift u => occurTxShift u s
  | .rxArrive u b => occurRxArrive u b s
  | .uartIrq u => occurUartIrq u s

/-- An event that occurs also clears `int_dropped` (10_state.md rule R38). One that is not enabled
does not occur, and its turn passes with nothing done (log entry 7). -/
def occur (e : Event) (s : State) : State :=
  match e.effect s with
  | some t => { t with intDropped := none }
  | none => s

end Sys2Proof.Machine
end

