-- ==== Sys2Proof/Machine/Schedule.lean ====
section
/-! DEFINITION. One turn of the machine: which agent moves, the fetch of the driver's next
transaction, and what the driver does with the answer. The execution of a fetched transaction,
`issue`, is handed in by Machine/Step.lean. -/

namespace Sys2Proof.Machine

/-! ## Fetch -/

/-- The instruction a word is at this state (30_encoding.md rules R63 and R71). -/
def fetchDecode (w : TxnWord) (s : State) : Except Reject Instr := decode (s.selectors w) w

/-- Continue with the state of an answer that is a next state. -/
def Answer.andThen (a : Answer) (k : State → State) : Answer :=
  match a with
  | .next t => .next (k t)
  | .fault f => .fault f
  | .refused r => .refused r

/-- One transaction of the driver at a port: the word the port gives it, issued (30_encoding.md
rule R60); an unclaimed port is refused (20_memory.md rule R43). -/
def issueAt (issue : TxnWord → State → Answer) (write : Bool) (port : Port) (data : Byte)
    (s : State) : Answer :=
  match wordAt (fun u => (s.uart u).isSome) write port data with
  | some w => issue w s
  | none => .refused (.unclaimedPort port)

/-! ## The driver's turn -/

/-- The top call goes on with `rest` left to do. -/
def State.goOn (s : State) (f : Frame) (rest : List Action) (below : List Frame) : State :=
  { s with stack := { f with todo := rest } :: below }

/-- The driver does the next thing `a` of the call `f`, after which it has `rest` left to do. -/
def act (issue : TxnWord → State → Answer) (a : Action) (f : Frame) (rest : List Action)
    (below : List Frame) (s : State) : Answer :=
  match a with
  | .txn w => Answer.andThen (issue w s) (fun t => t.goOn f rest below)
  | .output port e =>
    Answer.andThen (issueAt issue true port (e.eval f) s) (fun t => t.goOn f rest below)
  | .outputLast u port e =>
    Answer.andThen (issueAt issue true port (e.eval f) s)
      (fun t => (t.markInited u).goOn f rest below)
  | .input port dst =>
    Answer.andThen (issueAt issue false port 0x00#8 s)
      (fun t => t.goOn (f.store dst t.returned) rest below)
  | .poll port mask =>
    Answer.andThen (issueAt issue false port 0x00#8 s)
      (fun t => if t.returned &&& mask = 0x00#8 then t.goOn f (a :: rest) below
        else t.goOn f rest below)
  | .ret r => .next (leaveCall r f below s)

/-- The driver's turn. After a fatal failure it issues nothing ever again: the turn answers the
failure (60_exceptions.md rule R171). With no call in progress the next call of the program begins,
and with none left nothing happens. -/
def driverTurn (issue : TxnWord → State → Answer) (s : State) : Answer :=
  match s.failure with
  | some f => .fault f
  | none =>
    match s.stack with
    | [] =>
      match s.program with
      | [] => .next s
      | c :: cs => enterCall c { s with program := cs }
    | f :: below =>
      match f.todo with
      | [] => .next { s with stack := below }
      | a :: rest => act issue a f rest below s

/-- Other code on the same thread begins an operation; after a fatal failure the thread has halted. -/
def handlerTurn (c : Call) (s : State) : Answer :=
  match s.failure with
  | some f => .fault f
  | none => enterCall c s

/-! ## One turn -/

/-- The agent the schedule names makes its step; with an empty schedule the driver does
(20_memory.md rule R53). -/
def turn (issue : TxnWord → State → Answer) (s : State) : Answer :=
  match s.schedule with
  | [] => driverTurn issue s
  | .driver :: later => driverTurn issue { s with schedule := later }
  | .event e :: later => .next (occur e { s with schedule := later })
  | .handler c :: later => handlerTurn c { s with schedule := later }

/-! ## Placing a transaction where the next step fetches it -/

/-- Put one controller in the phase in which the row is decoded and admitted, the `when` column of
30_encoding.md rule R77. -/
def State.inPhase (s : State) (c : Ctl) (phase : Phase) : State :=
  s.setPic c { s.pic c with phase := phase }

/-- The UART at a place, a powered-on one where none is present. -/
def State.uartOrNew (s : State) (u : Com) : Uart := (s.uart u).getD .powerOn

/-- A UART with the divisor-latch bit as a row needs it. -/
def Uart.withDlab (d : Uart) (b : Bool) : Uart :=
  if d.dlab = b then d else { d with lcr := d.lcr ^^^ 0x80#8 }

/-- A UART that a receive-data read with this byte can be issued at: the byte is the one the queue
holds if it was empty (43_uart_registers.md rule R131). -/
def Uart.withReceived (d : Uart) (b : Byte) : Uart :=
  if d.rxFifo = [] then { d with rxFifo := [b] } else d

/-- The condition of the instruction's row in the `when` column of 30_encoding.md rule R77, made
true (log entry 8): the sequencer's position, the divisor-latch bit, the queue the row needs. -/
def State.readyFor (s : State) (i : Instr) (data : Byte) : State :=
  match i with
  | .pic1Icw1 | .pic2Icw1 => s
  | .pic1Icw2 _ => s.inPhase .P .waitIcw2
  | .pic1Icw3 => s.inPhase .P .waitIcw3
  | .pic1Icw4 => s.inPhase .P .waitIcw4
  | .pic1Ocw1 _ | .pic1RdImr | .pic1Eoi | .pic1SelIrr | .pic1SelIsr | .pic1RdSel =>
    s.inPhase .P .ready
  | .pic2Icw2 _ => s.inPhase .S .waitIcw2
  | .pic2Icw3 => s.inPhase .S .waitIcw3
  | .pic2Icw4 => s.inPhase .S .waitIcw4
  | .pic2Ocw1 _ | .pic2RdImr | .pic2Eoi | .pic2SelIrr | .pic2SelIsr | .pic2RdSel =>
    s.inPhase .S .ready
  | .uartThrWr u _ => s.setUart u { (s.uartOrNew u).withDlab false with txPending := [] }
  | .uartRbrRd u => s.setUart u (((s.uartOrNew u).withDlab false).withReceived data)
  | .uartDllWr u _ | .uartDlmWr u _ => s.setUart u ((s.uartOrNew u).withDlab true)
  | .uartIerWr u _ => s.setUart u ((s.uartOrNew u).withDlab false)
  | .uartFcrWr u | .uartLcrWr u _ | .uartMcrWr u | .uartLsrRd u => s.setUart u (s.uartOrNew u)

/-- The driver's turn comes next and this word's transaction is the next thing it does. -/
def State.placeTxn (s : State) (w : TxnWord) : State :=
  { s with
    schedule := []
    failure := none
    stack := { todo := [.txn w], x := 0x00#8, y := 0x00#8 } :: s.stack }

/-- A table word placed where the next step fetches it, with its row's condition made true; a word
that is no row's is placed as it is, and a number that is no word leaves the state alone. -/
def placeWord (s : State) (nbits w : Nat) : State :=
  match tableWord nbits w with
  | some word =>
    match decodeTableWord nbits w with
    | some i => (s.readyFor i word.data).placeTxn word
    | none => s.placeTxn word
  | none => s

end Sys2Proof.Machine
end

