-- ==== Sys2Proof/Machine/Step.lean ====
section
/-! DEFINITION. One step of the machine, and where the next step fetches its transaction. -/

namespace Sys2Proof.Machine

/-- Issue one transaction: decode its word at this state and carry it out; a word the decoder
rejects is refused under the decoder's name (30_encoding.md rule R73). -/
def issue (w : TxnWord) (s : State) : Host.Outcome State Fault Refusal :=
  match fetchDecode w s with
  | .ok i => exec i s
  | .error r => .refused (.undecoded r)

/-- One step: the turn of the agent the schedule names. -/
def step (s : State) : Host.Outcome State Fault Refusal := turn issue s

/-- The state with a table word placed where the next step fetches its transaction. -/
def State.withFetchWord (s : State) (nbits w : Nat) : State := placeWord s nbits w

end Sys2Proof.Machine
end

