-- ==== Sys2Proof/Safety.lean ====
section
/-! DEFINITION. What claims are stated in: the invariant of the machine, the cascade condition of the
document, and the states in which only the driver moves. -/

namespace Sys2Proof.Machine

/-- What holds of a controller in every state a run reaches: bit 2 of the primary's request register
is not stored (10_state.md rule R19), the vector base is a multiple of 8 (rule R14), and each
configuration latch has its one admitted value once its word has been received (rule R16). -/
structure Pic.Inv (c : Ctl) (p : Pic) : Prop where
  cascadeNotStored : c = .P → p.irr.getLsbD 2 = false
  vectorBase : p.vbase &&& 0x07#8 = 0x00#8
  latch1 : p.phase ≠ .uninit → p.icw1 = 0x11#8
  latch3 : p.phase = .waitIcw4 ∨ p.phase = .ready → p.icw3 = c.icw3Byte
  latch4 : p.phase = .ready → p.icw4 = 0x01#8

/-- What holds of a UART in every state a run reaches: the receive queue is at most `RX_CAPACITY`
long (rule R27), at most one byte is pending (rule R28), and the trigger level is 14 once the FIFO
is enabled (rule R24). -/
structure Uart.Inv (d : Uart) : Prop where
  received : d.rxFifo.length ≤ 16
  pending : d.txPending.length ≤ 1
  trigger : d.fifoEn = true → d.rxTrigger = 14

/-- The invariant of the machine. `int_dropped` exists only when spurious acknowledges are modelled
(rule R38). -/
structure State.Inv (s : State) : Prop where
  primary : s.pic1.Inv .P
  secondary : s.pic2.Inv .S
  serial : ∀ u d, s.uart u = some d → d.Inv
  dropped : s.params.spuriousModelled = false → s.intDropped = none

/-- The cascade condition (60_exceptions.md rule R175): the cascade line is unmasked whenever a line
of the secondary is. The hardware does not enforce it. -/
def State.CascadeOpen (s : State) : Prop := s.pic2.imr ≠ 0xFF#8 → s.pic1.imr.getLsbD 2 = false

/-- Both controllers have received all four initialisation words. -/
def State.BothReady (s : State) : Prop := s.pic1.phase = .ready ∧ s.pic2.phase = .ready

/-- Only the driver moves, and it stands between two calls: no other agent's turn is scheduled, no
failure was raised, no call is in progress. -/
structure State.Quiet (s : State) : Prop where
  schedule : s.schedule = []
  failure : s.failure = none
  stack : s.stack = []

/-- `n` steps of the machine. -/
def run (n : Nat) (s : State) : Host.Outcome State Fault Refusal := Sys2Proof.core.run n s

end Sys2Proof.Machine
end

