-- ==== Sys2Proof/Certificates/Slice0/Obligations.lean ====
section
/-! DEFINITION. The statements for the provers. The words of transactions are written from the
spec's numbers here, not through the encoder. -/

namespace Sys2Proof.Claims

open Sys2Proof.Machine

/-! ## Words, by the numbers of 30_encoding.md rules R61, R62 and R77 -/

/-- One of two things, by controller. -/
def atCtl {α : Type} (c : Ctl) (p s : α) : α :=
  match c with
  | .P => p
  | .S => s

/-- The write of `data` at a command port: 0x10020vv or 0x100A0vv. -/
def cmdWrite (c : Ctl) (data : Byte) : TxnWord :=
  .pic25 (atCtl c 0x1002000#25 0x100A000#25 ||| data.setWidth 25)

/-- The write of `data` at a data port: 0x10021vv or 0x100A1vv. -/
def dataWrite (c : Ctl) (data : Byte) : TxnWord :=
  .pic25 (atCtl c 0x1002100#25 0x100A100#25 ||| data.setWidth 25)

/-- A read of a command port that returns `data`: 0x00020vv or 0x000A0vv. -/
def cmdRead (c : Ctl) (data : Byte) : TxnWord :=
  .pic25 (atCtl c 0x0002000#25 0x000A000#25 ||| data.setWidth 25)

/-- A read of a data port that returns `data`: 0x00021vv or 0x000A1vv. -/
def dataRead (c : Ctl) (data : Byte) : TxnWord :=
  .pic25 (atCtl c 0x0002100#25 0x000A100#25 ||| data.setWidth 25)

/-- The UART word with this first digit and this data byte: `n` is 8 plus the offset for a write, the
offset for a read. -/
def uartWord (u : Com) (n : Nat) (data : Byte) : TxnWord :=
  .uart12 u (BitVec.ofNat 12 (n * 256) ||| data.setWidth 12)

/-! ## What a transaction leaves -/

/-- The state after a transaction that took the devices to `dev`: the word joins the trace, and
`int_dropped` is by 10_state.md rule R38 the controller addressed, if `int_out(P)` fell across it. -/
def after (at? : Option Ctl) (w : TxnWord) (s dev : State) : State :=
  { dev with
    trace := s.trace ++ [w]
    intDropped :=
      if s.params.spuriousModelled = true ∧ s.intOut .P = true ∧ dev.intOut .P = false then at?
      else none }

/-- The phase a controller's transaction needs, from the `when` column of rule R77. -/
def phaseNeeded : Instr → Option (Ctl × Phase)
  | .pic1Icw2 _ => some (.P, .waitIcw2)
  | .pic1Icw3 => some (.P, .waitIcw3)
  | .pic1Icw4 => some (.P, .waitIcw4)
  | .pic1Ocw1 _ | .pic1RdImr | .pic1Eoi | .pic1SelIrr | .pic1SelIsr | .pic1RdSel =>
    some (.P, .ready)
  | .pic2Icw2 _ => some (.S, .waitIcw2)
  | .pic2Icw3 => some (.S, .waitIcw3)
  | .pic2Icw4 => some (.S, .waitIcw4)
  | .pic2Ocw1 _ | .pic2RdImr | .pic2Eoi | .pic2SelIrr | .pic2SelIsr | .pic2RdSel =>
    some (.S, .ready)
  | .pic1Icw1 | .pic2Icw1 | .uartThrWr _ _ | .uartRbrRd _ | .uartDllWr _ _ | .uartDlmWr _ _
  | .uartIerWr _ _ | .uartFcrWr _ | .uartLcrWr _ _ | .uartMcrWr _ | .uartLsrRd _ => none

/-- The divisor-latch bit a UART access needs, from the `when` column of rule R77. -/
def dlabNeeded : Instr → Option Bool
  | .uartThrWr _ _ | .uartRbrRd _ | .uartIerWr _ _ => some false
  | .uartDllWr _ _ | .uartDlmWr _ _ => some true
  | .pic1Icw1 | .pic1Icw2 _ | .pic1Icw3 | .pic1Icw4 | .pic1Ocw1 _ | .pic1RdImr | .pic1Eoi
  | .pic1SelIrr | .pic1SelIsr | .pic1RdSel | .pic2Icw1 | .pic2Icw2 _ | .pic2Icw3 | .pic2Icw4
  | .pic2Ocw1 _ | .pic2RdImr | .pic2Eoi | .pic2SelIrr | .pic2SelIsr | .pic2RdSel | .uartFcrWr _
  | .uartLcrWr _ _ | .uartMcrWr _ | .uartLsrRd _ => none

/-- The refusal table of rule R73 for a `PIC25` word, as far as it is about words and phases. -/
def picWordRefused (phase : Ctl → Phase) (write : Bool) (port : Port) (data : Byte) : Prop :=
  (port ≠ 0x20#16 ∧ port ≠ 0x21#16 ∧ port ≠ 0xA0#16 ∧ port ≠ 0xA1#16) ∨
  (write = true ∧ (port = 0x20#16 ∨ port = 0xA0#16) ∧
    ((data.getLsbD 4 = true ∧ data ≠ 0x11#8) ∨
     (data.getLsbD 4 = false ∧ data.getLsbD 3 = false ∧ data ≠ 0x20#8) ∨
     (data.getLsbD 4 = false ∧ data.getLsbD 3 = true ∧ data ≠ 0x0A#8 ∧ data ≠ 0x0B#8))) ∨
  (write = true ∧ ∃ c : Ctl, port = atCtl c 0x21#16 0xA1#16 ∧
    (phase c = .uninit ∨
     (phase c = .waitIcw2 ∧ data &&& 0x07#8 ≠ 0x00#8) ∨
     (phase c = .waitIcw3 ∧ data ≠ atCtl c 0x04#8 0x02#8) ∨
     (phase c = .waitIcw4 ∧ data ≠ 0x01#8)))

/-- The refusal table of rule R73 for a `UART12` word. -/
def uartWordRefused (dlab write : Bool) (off : Nat) (data : Byte) : Prop :=
  (write = false ∧ off ≠ 0 ∧ off ≠ 5) ∨
  (write = false ∧ off = 0 ∧ dlab = true) ∨
  (write = true ∧ 5 ≤ off) ∨
  (write = true ∧ off = 1 ∧ dlab = false ∧ data ≠ 0x00#8 ∧ data ≠ 0x01#8) ∨
  (write = true ∧ off = 2 ∧ data ≠ 0xC7#8) ∨
  (write = true ∧ off = 3 ∧ data ≠ 0x80#8 ∧ data ≠ 0x03#8) ∨
  (write = true ∧ off = 4 ∧ data ≠ 0x0B#8)

/-- The rest of the refusal table of rule R73 for a `PIC25` word, the rows about a controller that is
not `Ready`: every read, and every command-port write but ICW1. -/
def picNotReadyRefused (phase : Ctl → Phase) (write : Bool) (port : Port) (data : Byte) : Prop :=
  ∃ c : Ctl, phase c ≠ .ready ∧
    ((write = false ∧ (port = atCtl c 0x20#16 0xA0#16 ∨ port = atCtl c 0x21#16 0xA1#16)) ∨
     (write = true ∧ port = atCtl c 0x20#16 0xA0#16 ∧ data ≠ 0x11#8))

/-- The rows of rule R73 about a UART's queues: a data-register write while a byte is pending, a
data-register read with nothing received. -/
def uartQueueRefused (d : Uart) (write : Bool) (off : Nat) : Prop :=
  off = 0 ∧ d.lcr.getLsbD 7 = false ∧
    ((write = true ∧ d.txPending ≠ []) ∨ (write = false ∧ d.rxFifo = []))

/-- The transactions that have no meaning in this state: the refusal table of rule R73 for byte
accesses, and every access at a UART that is not present (20_memory.md rule R43). -/
def transactionRefused (s : State) : TxnWord → Prop
  | .pic25 w =>
    picWordRefused (fun c => (s.pic c).phase) (w.getLsbD 24) (w.extractLsb' 8 16)
      (w.extractLsb' 0 8) ∨
    picNotReadyRefused (fun c => (s.pic c).phase) (w.getLsbD 24) (w.extractLsb' 8 16)
      (w.extractLsb' 0 8)
  | .uart12 u w =>
    s.uart u = none ∨ ∃ d, s.uart u = some d ∧
      (uartWordRefused (d.lcr.getLsbD 7) (w.getLsbD 11) (w.extractLsb' 8 3).toNat
        (w.extractLsb' 0 8) ∨
       uartQueueRefused d (w.getLsbD 11) (w.extractLsb' 8 3).toNat)

/-- The ports of 20_memory.md rule R42. -/
def mapped (s : State) (port : Port) : Prop :=
  port = 0x20#16 ∨ port = 0x21#16 ∨ port = 0xA0#16 ∨ port = 0xA1#16 ∨
    ∃ (u : Com) (k : Nat), (s.uart u).isSome = true ∧ k ≤ 5 ∧ port.toNat = u.base.toNat + k

/-- A 16-bit or 32-bit access touches a mapped port: one of its two or four ports, counted upward
from its address (past 0xFFFF at 0: log entry 11), is mapped. -/
def touchesMapped (s : State) (h : Handle) : Prop :=
  mapped s h.address ∨ mapped s (h.address + 1#16) ∨
    (h.width = .w32 ∧ (mapped s (h.address + 2#16) ∨ mapped s (h.address + 3#16)))

/-! ## Interrupt lines -/

/-- Input `i` of controller `c` is pending and unmasked and beats everything in service there. -/
def passes (s : State) (c : Ctl) (i : Nat) : Prop :=
  (s.pic c).phase = .ready ∧ (s.irr c).getLsbD i = true ∧ (s.pic c).imr.getLsbD i = false ∧
    ∀ j, j ≤ i → (s.pic c).isr.getLsbD j = false

/-- A line reaches the CPU: a line of the secondary also needs the cascade unmasked and nothing of
priority 2 or higher in service at the primary (60_exceptions.md rule R175). -/
def deliverable (s : State) (line : Nat) : Prop :=
  if line < 8 then passes s .P line
  else passes s .S (line - 8) ∧ s.pic1.phase = .ready ∧ s.pic1.imr.getLsbD 2 = false ∧
    ∀ j, j ≤ 2 → s.pic1.isr.getLsbD j = false

/-- The place of a line in the priority order of rule R174: 0, 1, 8 to 15, 3 to 7. -/
def priorityPlace (line : Nat) : Nat := if line < 3 then line else if line < 8 then line + 7 else line - 6

/-! ## Driver operations -/

/-- In `n` steps the state `s` completes one call: the controllers and the UARTs are as given, the
words issued and the result are added to the traces, the rest of the program waits, and nothing was
delivered or failed. -/
def Completes (n : Nat) (s : State) (rest : List Call) (p1 p2 : Pic) (us : Uarts)
    (words : List TxnWord) (r : Result) : Prop :=
  ∃ t, run n s = .next t ∧ t.pic1 = p1 ∧ t.pic2 = p2 ∧ t.uarts = us ∧ t.params = s.params ∧
    t.trace = s.trace ++ words ∧ t.results = s.results ++ [r] ∧ t.program = rest ∧
    t.vectors = s.vectors ∧ t.Quiet

/-- A controller after the end-of-interrupt command (rule R96). -/
def afterEoi (p : Pic) : Pic :=
  if p.isr = 0x00#8 then p else { p with isr := p.isr &&& ~~~(0x01#8 <<< lsb p.isr) }

/-- What `send` puts on the line for a byte (44_uart_driver_ops.md rule R155). -/
def sent (b : Byte) : List Byte :=
  if b = 0x08#8 ∨ b = 0x7F#8 then [0x08#8, 0x20#8, 0x08#8] else [b]

/-- The driver polls and writes, then the transmitter takes the byte. -/
def keepingUp (u : Com) : List Turn := [.driver, .driver, .event (.txShift u)]

end Sys2Proof.Claims

open Sys2Proof Sys2Proof.Machine Sys2Proof.Claims

/-! # Encoding -/

/-- Words of 30_encoding.md and 41_pic_commands.md decode to the transactions they stand for: a few
rows of every family (rules R61, R62, R77). -/
def Obligations.WordsOfTheTableDecodeToTheirRows : Prop :=
  (∀ sel, decode sel (.pic25 0x1002011#25) = .ok .pic1Icw1) ∧
  (∀ dlab q, decode ⟨.waitIcw2, q, dlab⟩ (.pic25 0x1002120#25) = .ok (.pic1Icw2 0x20#8)) ∧
  (∀ dlab p, decode ⟨p, .waitIcw3, dlab⟩ (.pic25 0x100A102#25) = .ok .pic2Icw3) ∧
  (∀ dlab q, decode ⟨.ready, q, dlab⟩ (.pic25 0x10021FB#25) = .ok (.pic1Ocw1 0xFB#8)) ∧
  (∀ sel, decode sel (.pic25 0x100A020#25) = .ok .pic2Eoi) ∧
  (∀ sel, decode sel (.pic25 0x00020A5#25) = .ok .pic1RdSel) ∧
  (∀ sel u, decode sel (.uart12 u 0xAC7#12) = .ok (.uartFcrWr u)) ∧
  (∀ p q u, decode ⟨p, q, false⟩ (.uart12 u 0x841#12) = .ok (.uartThrWr u 0x41#8)) ∧
  (∀ p q u, decode ⟨p, q, true⟩ (.uart12 u 0x841#12) = .ok (.uartDllWr u 0x41#8))

/-- Decoding the encoded word of a well-formed instruction gives it back, with every operand at
every value the encoding admits, under every selection that selects its row (rules R63, R71,
R74). -/
def Obligations.DecodeOfEncodeGivesTheInstruction : Prop :=
  ∀ (i : Instr) (sel : Selectors), i.wellFormed = true → sel.selects i = true →
    decode sel (encode i) = .ok i

/-- Whatever word decodes to an instruction lies in that instruction's row of the opcode table, is
selected by the row's condition, has admitted operands, and is the encoded word again, but for the
data byte of a read. -/
def Obligations.DecodedWordLiesInItsRow : Prop :=
  ∀ (sel : Selectors) (w : TxnWord) (i : Instr), decode sel w = .ok i →
    i.wellFormed = true ∧ sel.selects i = true ∧ i.rowBits.holds w = true ∧
    encode i = if i.isRead then w.withData 0x00#8 else w

/-- The decoder rejects exactly the listed words, those of rule R73 that a word with the selecting
state shows; and of the transactions issued, exactly those of the whole table of rule R73 are
refused, with those at an absent UART (20_memory.md rule R43). Which of them the decoder rejects and
which `exec` refuses is the model's own split. -/
def Obligations.DecoderRejectsExactlyTheRefusedWords : Prop :=
  (∀ (sel : Selectors) (w : BitVec 25),
    (∃ r, decode sel (.pic25 w) = .error r) ↔
      picWordRefused sel.phase (w.getLsbD 24) (w.extractLsb' 8 16) (w.extractLsb' 0 8)) ∧
  (∀ (sel : Selectors) (u : Com) (w : BitVec 12),
    (∃ r, decode sel (.uart12 u w) = .error r) ↔
      uartWordRefused sel.dlab (w.getLsbD 11) (w.extractLsb' 8 3).toNat (w.extractLsb' 0 8)) ∧
  (∀ (s : State) (w : TxnWord),
    (∃ r, issue w s = .refused r) ↔ transactionRefused s w)

/-! # The step -/

/-- On the driver's turn, with no failure raised, the step carries out the transaction of the word
that comes next: it is `exec` of the decoded instruction, after which the call goes on with what it
has left. A word the decoder rejects is refused under the decoder's name. -/
def Obligations.StepRunsTheDecodedInstruction : Prop :=
  ∀ (s s' : State) (w : TxnWord) (f : Frame) (rest : List Action) (below : List Frame),
    s'.failure = none → s'.stack = f :: below → f.todo = .txn w :: rest →
    (s = s' ∧ s.schedule = [] ∨ s = { s' with schedule := .driver :: s'.schedule }) →
    (∀ i, decode (s'.selectors w) w = .ok i →
      step s = Answer.andThen (exec i s')
        (fun t => { t with stack := { f with todo := rest } :: below })) ∧
    (∀ r, decode (s'.selectors w) w = .error r → step s = .refused (.undecoded r))

/-- The driver's port accesses run the decoded instruction too: an output writes the byte its
expression gives, an input stores the byte returned, and a polling pass repeats until the byte
returned has a bit of the mask set (00_scope.md rule R8); the last write of `uart.init()` makes its
instance initialised in the same step (10_state.md rule R31). -/
def Obligations.DriverAccessesRunTheDecodedInstruction : Prop :=
  ∀ (s r : State) (f : Frame) (rest : List Action) (below : List Frame) (w : TxnWord) (i : Instr)
    (port : Port),
    s.schedule = [] → s.failure = none → s.stack = f :: below →
    decode (s.selectors w) w = .ok i → exec i s = .next r →
    (∀ e, f.todo = .output port e :: rest →
      wordAt (fun u => (s.uart u).isSome) true port (e.eval f) = some w →
      step s = .next { r with stack := { f with todo := rest } :: below }) ∧
    (∀ u e, f.todo = .outputLast u port e :: rest →
      wordAt (fun u => (s.uart u).isSome) true port (e.eval f) = some w →
      ∃ t, step s = .next t ∧
        t = { r with uarts := t.uarts, stack := { f with todo := rest } :: below } ∧
        t.uart u = (r.uart u).map (fun d => { d with inited := true }) ∧
        ∀ v, v ≠ u → t.uart v = r.uart v) ∧
    (f.todo = .input port .x :: rest →
      wordAt (fun u => (s.uart u).isSome) false port 0x00#8 = some w →
      step s = .next { r with stack := { todo := rest, x := r.returned, y := f.y } :: below }) ∧
    (f.todo = .input port .y :: rest →
      wordAt (fun u => (s.uart u).isSome) false port 0x00#8 = some w →
      step s = .next { r with stack := { todo := rest, x := f.x, y := r.returned } :: below }) ∧
    (∀ mask, f.todo = .poll port mask :: rest →
      wordAt (fun u => (s.uart u).isSome) false port 0x00#8 = some w →
      step s = .next { r with stack :=
        (if r.returned &&& mask = 0x00#8 then f else { f with todo := rest }) :: below })

/-- A table word placed by `withFetchWord` runs in the very next step, from every state, and
completes: the model's own convention of log entry 8, no rule of the spec. -/
def Obligations.PlacedTableWordRunsAndCompletes : Prop :=
  ∀ (s : State) (nbits w : Nat) (i : Instr), decodeTableWord nbits w = some i →
    ∃ r, exec i (s.withFetchWord nbits w) = .next r ∧
      step (s.withFetchWord nbits w) =
        .next { r with stack := { todo := [], x := 0x00#8, y := 0x00#8 } :: s.stack }

/-! # Controller transactions -/

/-- `ICW1` in every phase: the sequence opens, with the clearing lines of rule R90; and the output of
a controller is off in every phase but `Ready`, so from ICW1 until ICW4. -/
def Obligations.Icw1OpensTheSequence : Prop :=
  ∀ (c : Ctl) (s : State),
    exec (.icw1 c) s = .next (after (some c) (cmdWrite c 0x11#8) s
      (s.setPic c { s.pic c with
        icw1 := 0x11#8, phase := .waitIcw2, imr := 0x00#8, isr := 0x00#8, irr := 0x00#8,
        readSel := .selIrr })) ∧
    ((s.pic c).phase ≠ .ready → s.intOut c = false)

/-- `ICW2` sets the vector base in the phase that awaits it; a byte with a low bit set is refused
(rule R91). -/
def Obligations.Icw2SetsTheVectorBase : Prop :=
  ∀ (c : Ctl) (data : Byte) (s : State),
    (data &&& 0x07#8 = 0x00#8 → (s.pic c).phase = .waitIcw2 →
      exec (.icw2 c data) s = .next (after (some c) (dataWrite c data) s
        (s.setPic c { s.pic c with vbase := data, phase := .waitIcw3 }))) ∧
    (data &&& 0x07#8 ≠ 0x00#8 → exec (.icw2 c data) s = .refused (.operandNotAdmitted data))

/-- `ICW3` sets the cascade latch to the one admitted value of its controller, and `ICW4` makes the
controller ready (rules R92, R93). -/
def Obligations.Icw3AndIcw4CompleteTheSequence : Prop :=
  (∀ (c : Ctl) (s : State), (s.pic c).phase = .waitIcw3 →
     exec (.icw3 c) s = .next (after (some c) (dataWrite c (atCtl c 0x04#8 0x02#8)) s
       (s.setPic c { s.pic c with icw3 := atCtl c 0x04#8 0x02#8, phase := .waitIcw4 }))) ∧
  (∀ (c : Ctl) (s : State), (s.pic c).phase = .waitIcw4 →
     exec (.icw4 c) s = .next (after (some c) (dataWrite c 0x01#8) s
       (s.setPic c { s.pic c with icw4 := 0x01#8, phase := .ready })))

/-- `OCW1` writes the mask, every byte, and nothing else; `RD_IMR` returns the mask and changes
nothing in the devices (rules R94, R95). -/
def Obligations.MaskIsWrittenAndReadExactly : Prop :=
  (∀ (c : Ctl) (data : Byte) (s : State), (s.pic c).phase = .ready →
     exec (.ocw1 c data) s = .next (after (some c) (dataWrite c data) s
       (s.setPic c { s.pic c with imr := data }))) ∧
  (∀ (c : Ctl) (s : State), (s.pic c).phase = .ready →
     exec (.rdImr c) s = .next (after (some c) (dataRead c (s.pic c).imr) s
       { s with returned := (s.pic c).imr }))

/-- `EOI` clears the lowest-numbered in-service bit, and does nothing with none in service
(rule R96). -/
def Obligations.EoiClearsTheLowestInServiceBit : Prop :=
  ∀ (c : Ctl) (s : State), (s.pic c).phase = .ready →
    ((s.pic c).isr ≠ 0x00#8 →
      exec (.eoi c) s = .next (after (some c) (cmdWrite c 0x20#8) s
        (s.setPic c { s.pic c with
          isr := (s.pic c).isr &&& ~~~(0x01#8 <<< lsb (s.pic c).isr) }))) ∧
    ((s.pic c).isr = 0x00#8 →
      exec (.eoi c) s = .next (after (some c) (cmdWrite c 0x20#8) s s))

/-- The read-select commands set the read-select latch and nothing else (rules R97, R98). -/
def Obligations.ReadSelectCommandsSetTheLatch : Prop :=
  ∀ (c : Ctl) (s : State), (s.pic c).phase = .ready →
    exec (.selIrr c) s = .next (after (some c) (cmdWrite c 0x0A#8) s
      (s.setPic c { s.pic c with readSel := .selIrr })) ∧
    exec (.selIsr c) s = .next (after (some c) (cmdWrite c 0x0B#8) s
      (s.setPic c { s.pic c with readSel := .selIsr }))

/-- `RD_SEL` returns the selected register, the request register of the primary with the
secondary's output in bit 2, and changes nothing in the devices (rule R99). -/
def Obligations.SelectedReadReturnsTheSelectedRegister : Prop :=
  ∀ (c : Ctl) (s : State), (s.pic c).phase = .ready →
    ((s.pic c).readSel = .selIrr →
      exec (.rdSel c) s = .next (after (some c) (cmdRead c (s.irr c)) s
        { s with returned := s.irr c })) ∧
    ((s.pic c).readSel = .selIsr →
      exec (.rdSel c) s = .next (after (some c) (cmdRead c (s.pic c).isr) s
        { s with returned := (s.pic c).isr }))

/-! # UART transactions -/

/-- `THR_WR` queues the byte when nothing is pending, and is refused otherwise (43_uart_registers.md
rule R130). -/
def Obligations.TransmitWriteQueuesTheByte : Prop :=
  ∀ (u : Com) (data : Byte) (s : State) (d : Uart), s.uart u = some d → d.lcr.getLsbD 7 = false →
    (d.txPending = [] →
      exec (.uartThrWr u data) s = .next (after none (uartWord u 8 data) s
        (s.setUart u { d with txPending := [data] }))) ∧
    (d.txPending ≠ [] → exec (.uartThrWr u data) s = .refused (.transmitterBusy u))

/-- `RBR_RD` removes and returns the oldest byte, and is refused when there is none (rule R131). -/
def Obligations.ReceiveReadReturnsTheOldestByte : Prop :=
  ∀ (u : Com) (s : State) (d : Uart), s.uart u = some d → d.lcr.getLsbD 7 = false →
    (∀ b rest, d.rxFifo = b :: rest →
      exec (.uartRbrRd u) s = .next (after none (uartWord u 0 b) s
        { s.setUart u { d with rxFifo := rest } with returned := b })) ∧
    (d.rxFifo = [] → exec (.uartRbrRd u) s = .refused (.receiverEmpty u))

/-- `DLL_WR` and `DLM_WR` write the divisor latch and nothing else (rules R132, R133). -/
def Obligations.DivisorWritesSetTheLatch : Prop :=
  ∀ (u : Com) (data : Byte) (s : State) (d : Uart), s.uart u = some d → d.lcr.getLsbD 7 = true →
    exec (.uartDllWr u data) s = .next (after none (uartWord u 8 data) s
      (s.setUart u { d with dll := data })) ∧
    exec (.uartDlmWr u data) s = .next (after none (uartWord u 9 data) s
      (s.setUart u { d with dlm := data }))

/-- `IER_WR` writes the interrupt-enable register; only 0x00 and 0x01 are admitted (rule R134). -/
def Obligations.InterruptEnableWriteSetsTheRegister : Prop :=
  ∀ (u : Com) (data : Byte) (s : State) (d : Uart), s.uart u = some d → d.lcr.getLsbD 7 = false →
    ((data = 0x00#8 ∨ data = 0x01#8) →
      exec (.uartIerWr u data) s = .next (after none (uartWord u 9 data) s
        (s.setUart u { d with ier := data }))) ∧
    (data ≠ 0x00#8 → data ≠ 0x01#8 →
      exec (.uartIerWr u data) s = .refused (.operandNotAdmitted data))

/-- `FCR_WR` enables the FIFO, sets the trigger at 14 and empties both queues, whatever the
divisor-latch bit; the line keeps what was sent (rule R135). -/
def Obligations.FifoControlWriteEmptiesTheQueues : Prop :=
  ∀ (u : Com) (s : State) (d : Uart), s.uart u = some d →
    exec (.uartFcrWr u) s = .next (after none (uartWord u 10 0xC7#8) s
      (s.setUart u { d with fifoEn := true, rxTrigger := 14, rxFifo := [], txPending := [] }))

/-- `LCR_WR` writes line-control, only 0x80 and 0x03 being admitted; `MCR_WR` writes modem-control
(rules R136, R137). -/
def Obligations.LineAndModemControlWritesSetTheRegisters : Prop :=
  (∀ (u : Com) (data : Byte) (s : State) (d : Uart), s.uart u = some d →
     ((data = 0x80#8 ∨ data = 0x03#8) →
       exec (.uartLcrWr u data) s = .next (after none (uartWord u 11 data) s
         (s.setUart u { d with lcr := data }))) ∧
     (data ≠ 0x80#8 → data ≠ 0x03#8 →
       exec (.uartLcrWr u data) s = .refused (.operandNotAdmitted data))) ∧
  (∀ (u : Com) (s : State) (d : Uart), s.uart u = some d →
     exec (.uartMcrWr u) s = .next (after none (uartWord u 12 0x0B#8) s
       (s.setUart u { d with mcr := 0x0B#8 })))

/-- `LSR_RD` returns a byte whose bit 0 says that a byte is there to read and whose bit 5 that none
is pending, and changes nothing in the devices (rule R138). The other six bits are a free value: the
statement says nothing of them. -/
def Obligations.StatusReadShowsTheQueues : Prop :=
  ∀ (u : Com) (s : State) (d : Uart), s.uart u = some d →
    ∃ v : Byte,
      exec (.uartLsrRd u) s = .next (after none (uartWord u 5 v) s
        { s with returned := v, draws := s.draws + 1 }) ∧
      (v.getLsbD 0 = true ↔ d.rxFifo ≠ []) ∧ (v.getLsbD 5 = true ↔ d.txPending = [])

/-- A transaction out of place is refused: a controller's in any other phase than the one its row
needs, whatever its admitted operands (30_encoding.md rule R73); a UART's at an absent UART
(20_memory.md rule R43), or one that the divisor-latch bit sends to another register
(30_encoding.md rule R71). -/
def Obligations.TransactionOutOfPlaceIsRefused : Prop :=
  (∀ (i : Instr) (c : Ctl) (needed : Phase) (s : State), i.wellFormed = true →
     phaseNeeded i = some (c, needed) → (s.pic c).phase ≠ needed →
     exec i s = .refused (.wrongPhase c needed)) ∧
  (∀ (i : Instr) (u : Com) (s : State), i.wellFormed = true → i.site = .inr u →
    s.uart u = none → exec i s = .refused (.uartAbsent u)) ∧
  (∀ (i : Instr) (u : Com) (s : State) (d : Uart) (needed : Bool), i.wellFormed = true →
    i.site = .inr u → s.uart u = some d → dlabNeeded i = some needed →
    d.lcr.getLsbD 7 ≠ needed → exec i s = .refused (.divisorLatch u needed))

/-! # Whole-machine rules -/

/-- Every step keeps the invariant. -/
def Obligations.EveryStepKeepsTheInvariant : Prop :=
  ∀ s t : State, s.Inv → step s = .next t → t.Inv

/-- The state after power-on meets the invariant. Its register values beyond the phase and the
empty line are the model's choice of log entries 1 and 2. -/
def Obligations.ResetMeetsTheInvariant : Prop := State.reset.Inv

/-- What power-on leaves by 70_reset_and_hazards.md rule R200: both controllers `Uninit` with their
outputs off, nothing on any line, `int_dropped` clear and every trace empty. That a step with nothing
placed leaves it so is the model's convention of log entry 7. -/
def Obligations.PowerOnLeavesTheControllersUninitialised : Prop :=
  (∀ c, (State.reset.pic c).phase = .uninit ∧ State.reset.intOut c = false) ∧
  (∀ u d, State.reset.uart u = some d → d.txLine = []) ∧
  State.reset.intDropped = none ∧ State.reset.trace = [] ∧ State.reset.vectors = [] ∧
  State.reset.failure = none ∧ step State.reset = .next State.reset

/-- The frame of every transaction: what it does not address, it leaves alone; it adds its own word
to the trace and touches nothing of the schedule, the calls, the vectors or the failure
(41_pic_commands.md rule R100). -/
def Obligations.TransactionTouchesOnlyItsDevice : Prop :=
  ∀ (i : Instr) (s t : State), exec i s = .next t →
    (∀ c, i.site ≠ .inl c → t.pic c = s.pic c) ∧
    (∀ u, i.site ≠ .inr u → t.uart u = s.uart u) ∧
    t.params = s.params ∧ t.vectors = s.vectors ∧ t.failure = s.failure ∧
    t.schedule = s.schedule ∧ t.program = s.program ∧ t.stack = s.stack ∧
    t.results = s.results ∧
    (i.isRead = false → t.returned = s.returned ∧ t.draws = s.draws ∧
      t.trace = s.trace ++ [encode i]) ∧
    (i.isRead = true → t.pic1 = s.pic1 ∧ t.pic2 = s.pic2 ∧
      t.trace = s.trace ++ [(encode i).withData t.returned])

/-- Two consecutive writes, one to each controller, reach the same state in either order, but for
the order of their words and for `int_dropped`, which by 10_state.md rule R38 can name the last of
them only (41_pic_commands.md rule R100). -/
def Obligations.WritesAtTheTwoControllersCommute : Prop :=
  ∀ (i j : Instr) (s a b : State), i.site = .inl .P → j.site = .inl .S →
    i.isRead = false → j.isRead = false →
    exec i s = .next a → exec j a = .next b →
    ∃ c d, exec j s = .next c ∧ exec i c = .next d ∧
      d = { b with trace := s.trace ++ [encode j, encode i], intDropped := d.intDropped } ∧
      (b.intDropped = none ∨ b.intDropped = some .S) ∧
      (d.intDropped = none ∨ d.intDropped = some .P)

/-- No step takes anything back from an observation: the transaction trace, the vector trace and
each UART's line grow by at most one entry at the end (10_state.md rules R28 and R35). -/
def Obligations.ObservationsOnlyGrow : Prop :=
  ∀ s t : State, step s = .next t →
    (t.trace = s.trace ∨ ∃ w, t.trace = s.trace ++ [w]) ∧
    (t.vectors = s.vectors ∨ ∃ v, t.vectors = s.vectors ++ [v]) ∧
    (∀ u d, s.uart u = some d → ∃ e, t.uart u = some e ∧
      (e.txLine = d.txLine ∨ ∃ b, e.txLine = d.txLine ++ [b]))

/-- Only a mask write and ICW1 change a mask: a step after which a controller's mask is another one
issued one of these two words at that controller (41_pic_commands.md rule R95). -/
def Obligations.OnlyMaskWriteAndIcw1ChangeAMask : Prop :=
  ∀ (s t : State) (c : Ctl), step s = .next t → (t.pic c).imr ≠ (s.pic c).imr →
    ((s.pic c).phase = .ready ∧ t.trace = s.trace ++ [dataWrite c (t.pic c).imr]) ∨
    ((t.pic c).imr = 0x00#8 ∧ t.trace = s.trace ++ [cmdWrite c 0x11#8])

/-- The state a program sees only indirectly moves by its own commands alone: a step that changes a
controller's sequencer position issued the initialisation word that the position awaited, or ICW1,
at that controller; one that changes the vector base issued ICW2 with that byte; one that changes
the read-select latch issued a read-select command or ICW1 (10_state.md rules R14, R15 and R17). -/
def Obligations.OnlyTheNamedCommandsMoveTheHiddenState : Prop :=
  ∀ (s t : State) (c : Ctl), step s = .next t →
    ((t.pic c).phase ≠ (s.pic c).phase →
      ((t.pic c).phase = .waitIcw2 ∧ t.trace = s.trace ++ [cmdWrite c 0x11#8]) ∨
      ((s.pic c).phase = .waitIcw2 ∧ (t.pic c).phase = .waitIcw3 ∧
        t.trace = s.trace ++ [dataWrite c (t.pic c).vbase]) ∨
      ((s.pic c).phase = .waitIcw3 ∧ (t.pic c).phase = .waitIcw4 ∧
        t.trace = s.trace ++ [dataWrite c (atCtl c 0x04#8 0x02#8)]) ∨
      ((s.pic c).phase = .waitIcw4 ∧ (t.pic c).phase = .ready ∧
        t.trace = s.trace ++ [dataWrite c 0x01#8])) ∧
    ((t.pic c).vbase ≠ (s.pic c).vbase →
      (s.pic c).phase = .waitIcw2 ∧ t.trace = s.trace ++ [dataWrite c (t.pic c).vbase]) ∧
    ((t.pic c).readSel ≠ (s.pic c).readSel →
      ((t.pic c).readSel = .selIrr ∧
        (t.trace = s.trace ++ [cmdWrite c 0x11#8] ∨ t.trace = s.trace ++ [cmdWrite c 0x0A#8])) ∨
      ((t.pic c).readSel = .selIsr ∧ t.trace = s.trace ++ [cmdWrite c 0x0B#8]))

/-- After a fatal failure the driver issues no transaction and begins no call ever again, while events
of the other agents may still occur (60_exceptions.md rule R171). That the driver's and a handler's
turn answer the recorded failure as the fault of the step is the model's form of that halt, its
choice of log entry 10. -/
def Obligations.FailureHaltsTheDriver : Prop :=
  ∀ (s : State) (f : Fault), s.failure = some f →
    (s.schedule = [] → step s = .fault f) ∧
    (∀ later, s.schedule = .driver :: later → step s = .fault f) ∧
    (∀ c later, s.schedule = .handler c :: later → step s = .fault f) ∧
    (∀ e later, s.schedule = .event e :: later →
      ∃ t, step s = .next t ∧ t.failure = some f ∧ t.trace = s.trace ∧ t.stack = s.stack ∧
        t.program = s.program ∧ t.results = s.results)

/-- The four fatal failures, raised by the assertions of the driver operations before any
transaction: the failure and its information are recorded and the hardware is untouched
(rules R170 and R171). That the failing assertion is a next state which records the failure, with the
call begun and gone, is the model's choice of log entry 10. -/
def Obligations.AssertionsRaiseTheFourFailures : Prop :=
  ∀ (s : State) (call : Call) (rest : List Call) (f : Fault), s.Quiet → s.program = call :: rest →
    ((∃ offset : Byte, call = .picInit offset ∧ offset.toNat < 32 ∧ f = .badVectorOffset offset) ∨
     (∃ irq, (call = .eoi irq ∨ call = .enableIrq irq ∨ call = .disableIrq irq) ∧ 16 ≤ irq ∧
       f = .badIrqIndex irq) ∨
     (∃ r offset, (call = .rangeRead r offset ∨ ∃ v, call = .rangeWrite r offset v) ∧
       r.count ≤ offset ∧ f = .portRangeOutOfBounds r.base r.count offset) ∨
     (∃ base : Port, call = .serialNew base ∧ (∀ u : Com, u.base ≠ base) ∧
       f = .badSerialBase base)) →
    step s = .next { s with program := rest, failure := some f }

/-! # Signals and events -/

/-- `lsb(v)` is the index of the lowest set bit, and 8 for zero; `int_out(c)` is true exactly where
some unmasked line is pending and beats every line in service, at a ready controller; and bit 2 of
the primary's request register reads as the secondary's output (00_scope.md rule R7, 10_state.md
rules R18, R19). -/
def Obligations.OutputAndCascadeFollowTheRules : Prop :=
  (∀ v : Byte,
     (v = 0x00#8 ∧ lsb v = 8) ∨
     (lsb v < 8 ∧ v.getLsbD (lsb v) = true ∧ ∀ j, j < lsb v → v.getLsbD j = false)) ∧
  (∀ (s : State) (c : Ctl), s.intOut c = true ↔ ∃ i, i < 8 ∧ passes s c i) ∧
  (∀ (s : State) (i : Nat), i < 8 →
    (s.irr .P).getLsbD i = if i = 2 then s.intOut .S else s.pic1.irr.getLsbD i)

/-- `IrqEdge(n)` sets the line's request bit whatever the mask says, and nothing in `Uninit`; like
every event it clears `int_dropped` (60_exceptions.md rule R173). -/
def Obligations.EdgeSetsTheRequestBit : Prop :=
  ∀ (s : State) (n : Source) (later : List Turn) (c : Ctl) (i : Nat),
    s.schedule = .event (.irqEdge n) :: later →
    sourceLine n = atCtl c i (8 + i) → i < 8 →
    ((s.pic c).phase ≠ .uninit →
      step s = .next { s.setPic c { s.pic c with irr := (s.pic c).irr ||| (0x01#8 <<< i) } with
        schedule := later, intDropped := none }) ∧
    ((s.pic c).phase = .uninit → step s = .next { s with schedule := later, intDropped := none })

/-- `Ack` takes the lowest-numbered request of the primary, or through input 2 that of the
secondary: in service, no longer pending, its vector delivered, and the output of its controller and
of the primary off; without the primary's output it does not occur (60_exceptions.md rule R176). -/
def Obligations.AckTakesTheRequestAndDeliversItsVector : Prop :=
  ∀ (s : State) (later : List Turn), s.schedule = .event .ack :: later →
    (s.intOut .P = true → ∃ t, step s = .next t ∧ t.intOut .P = false ∧
      (lsb (s.req .P) ≠ 2 → t = { s with
        schedule := later, intDropped := none
        pic1 := { s.pic1 with
          isr := s.pic1.isr ||| (0x01#8 <<< lsb (s.req .P))
          irr := s.pic1.irr &&& ~~~(0x01#8 <<< lsb (s.req .P)) }
        vectors := s.vectors ++ [s.pic1.vbase.toNat + lsb (s.req .P)] }) ∧
      (lsb (s.req .P) = 2 → t.intOut .S = false ∧ t = { s with
        schedule := later, intDropped := none
        pic1 := { s.pic1 with isr := s.pic1.isr ||| 0x04#8 }
        pic2 := { s.pic2 with
          isr := s.pic2.isr ||| (0x01#8 <<< lsb (s.req .S))
          irr := s.pic2.irr &&& ~~~(0x01#8 <<< lsb (s.req .S)) }
        vectors := s.vectors ++ [s.pic2.vbase.toNat + lsb (s.req .S)] })) ∧
    (s.intOut .P = false → step s = .next { s with schedule := later })

/-- The fifteen sources in the order 0, 1, 8 to 15, 3 to 7: an acknowledge delivers exactly one
deliverable line, the first of them in this order, the others stay pending; and while a secondary
line is in service at the primary no secondary line is deliverable (60_exceptions.md rule R174). -/
def Obligations.AckDeliversTheHighestPriorityLine : Prop :=
  (∀ (s : State) (later : List Turn), s.schedule = .event .ack :: later →
    (s.intOut .P = true ↔ ∃ m, m < 16 ∧ m ≠ 2 ∧ deliverable s m) ∧
    (s.intOut .P = true → ∃ n t, n < 16 ∧ n ≠ 2 ∧ deliverable s n ∧ step s = .next t ∧
      t.vectors = s.vectors ++
        [if n < 8 then s.pic1.vbase.toNat + n else s.pic2.vbase.toNat + (n - 8)] ∧
      (∀ m, m < 16 → m ≠ 2 → deliverable s m → priorityPlace n ≤ priorityPlace m) ∧
      (∀ m, m < 16 → m ≠ 2 → m ≠ n →
        (if m < 8 then t.pic1.irr.getLsbD m = s.pic1.irr.getLsbD m
         else t.pic2.irr.getLsbD (m - 8) = s.pic2.irr.getLsbD (m - 8))))) ∧
  (∀ (s : State) (m : Nat), s.pic1.isr.getLsbD 2 = true → 8 ≤ m → ¬ deliverable s m)

/-- A missing end of interrupt: while input `i` stays in service at the primary, an acknowledge delivers
only a line of the primary below `i` or, for `i` above 2, a line of the secondary; while it does at
the secondary, only a line of the primary or a line of the secondary below `i`. The requests of all
the other inputs stay pending and none of them comes into service (60_exceptions.md rules R178 and
R179). -/
def Obligations.MissingEoiStallsLowerPriorities : Prop :=
  ∀ (s : State) (i : Nat) (later : List Turn), i < 8 → s.schedule = .event .ack :: later →
    (s.pic1.isr.getLsbD i = true → ∃ t, step s = .next t ∧
      (∀ m, i ≤ m → t.pic1.irr.getLsbD m = s.pic1.irr.getLsbD m ∧
        t.pic1.isr.getLsbD m = s.pic1.isr.getLsbD m) ∧
      (i ≤ 2 → t.pic2 = s.pic2) ∧
      (t.vectors = s.vectors ∨
       (∃ n, n < i ∧ n ≠ 2 ∧ (s.irr .P).getLsbD n = true ∧ t.pic1.isr.getLsbD n = true ∧
         t.pic2 = s.pic2 ∧ t.vectors = s.vectors ++ [s.pic1.vbase.toNat + n]) ∨
       (2 < i ∧ ∃ k, k < 8 ∧ s.pic2.irr.getLsbD k = true ∧ t.pic2.isr.getLsbD k = true ∧
         t.vectors = s.vectors ++ [s.pic2.vbase.toNat + k]))) ∧
    (s.pic2.isr.getLsbD i = true → ∃ t, step s = .next t ∧
      (∀ k, i ≤ k → t.pic2.irr.getLsbD k = s.pic2.irr.getLsbD k ∧
        t.pic2.isr.getLsbD k = s.pic2.isr.getLsbD k) ∧
      (t.vectors = s.vectors ∨
       (∃ n, n < 8 ∧ n ≠ 2 ∧ (s.irr .P).getLsbD n = true ∧ t.pic1.isr.getLsbD n = true ∧
         t.pic2 = s.pic2 ∧ t.vectors = s.vectors ++ [s.pic1.vbase.toNat + n]) ∨
       (∃ k, k < i ∧ s.pic2.irr.getLsbD k = true ∧ t.pic2.isr.getLsbD k = true ∧
         t.vectors = s.vectors ++ [s.pic2.vbase.toNat + k])))

/-- With the vector bases `init(offset)` leaves, the line `n` that stands first in the priority order
among the deliverable ones is delivered as vector `offset + n`, in 32 to 255 (60_exceptions.md
rule R177). -/
def Obligations.LineIsDeliveredAtOffsetPlusLine : Prop :=
  ∀ (s : State) (offset : Byte) (n : Nat) (later : List Turn), s.schedule = .event .ack :: later →
    32 ≤ offset.toNat → offset.toNat ≤ 240 → s.pic1.vbase = offset →
    s.pic2.vbase = offset + 8#8 → n < 16 → n ≠ 2 → deliverable s n →
    (∀ m, m < 16 → m ≠ 2 → deliverable s m → priorityPlace n ≤ priorityPlace m) →
    32 ≤ offset.toNat + n ∧ offset.toNat + n < 256 ∧
    ∃ t, step s = .next t ∧ t.vectors = s.vectors ++ [offset.toNat + n]

/-- `Spurious(c)` delivers the vector of input 7 of its controller while `int_dropped` is set, with
no in-service bit of its own; at the secondary only for a transaction addressed to it and with the
cascade unmasked, and then with the primary's bit 2; either clears `int_dropped`; and neither occurs
unless spurious acknowledges are modelled (60_exceptions.md rule R182). -/
def Obligations.SpuriousDeliversInputSeven : Prop :=
  ∀ (s : State) (later : List Turn),
    (s.schedule = .event (.spurious .P) :: later →
      (s.params.spuriousModelled = true ∧ s.intDropped ≠ none →
        step s = .next { s with
          schedule := later, intDropped := none
          vectors := s.vectors ++ [s.pic1.vbase.toNat + 7] }) ∧
      (¬ (s.params.spuriousModelled = true ∧ s.intDropped ≠ none) →
        step s = .next { s with schedule := later })) ∧
    (s.schedule = .event (.spurious .S) :: later →
      (s.params.spuriousModelled = true ∧ s.intDropped = some .S ∧
          s.pic1.imr.getLsbD 2 = false →
        step s = .next { s with
          schedule := later, intDropped := none
          pic1 := { s.pic1 with isr := s.pic1.isr ||| 0x04#8 }
          vectors := s.vectors ++ [s.pic2.vbase.toNat + 7] }) ∧
      (¬ (s.params.spuriousModelled = true ∧ s.intDropped = some .S ∧
          s.pic1.imr.getLsbD 2 = false) →
        step s = .next { s with schedule := later }))

/-- `TxShift(u)` moves the oldest pending byte to the end of the line, and does not occur with none
pending (43_uart_registers.md rule R140). -/
def Obligations.ShiftMovesTheOldestPendingByte : Prop :=
  ∀ (s : State) (u : Com) (d : Uart) (later : List Turn), s.uart u = some d →
    s.schedule = .event (.txShift u) :: later →
    (∀ b rest, d.txPending = b :: rest →
      step s = .next { s.setUart u { d with txPending := rest, txLine := d.txLine ++ [b] } with
        schedule := later, intDropped := none }) ∧
    (d.txPending = [] → step s = .next { s with schedule := later })

/-- `RxArrive(u, b)` appends the byte while fewer than `RX_CAPACITY` are queued and loses it otherwise
(43_uart_registers.md rule R141). That `RX_CAPACITY` is 16 is general knowledge in 00_scope.md
rule R6 (decision D29), taken over in log entry 6. -/
def Obligations.ArrivalAppendsUpToCapacity : Prop :=
  ∀ (s : State) (u : Com) (b : Byte) (d : Uart) (later : List Turn), s.uart u = some d →
    s.schedule = .event (.rxArrive u b) :: later →
    (d.rxFifo.length < 16 →
      step s = .next { s.setUart u { d with rxFifo := d.rxFifo ++ [b] } with
        schedule := later, intDropped := none }) ∧
    (16 ≤ d.rxFifo.length → step s = .next { s with schedule := later, intDropped := none })

/-- `UartIrq(u)` raises the UARTs' line while the source is enabled, auxiliary output 2 is on and a
byte is there; otherwise, or with no line, it does not occur (10_state.md rule R30,
60_exceptions.md rule R181). -/
def Obligations.UartRaisesItsLineWhileItRequests : Prop :=
  ∀ (s : State) (u : Com) (d : Uart) (later : List Turn), s.uart u = some d →
    s.schedule = .event (.uartIrq u) :: later →
    (∀ n, s.params.uartIrqLine = some n → d.ier.getLsbD 0 = true → d.mcr.getLsbD 3 = true →
      d.rxFifo ≠ [] → step s = step { s with schedule := .event (.irqEdge n) :: later }) ∧
    ((s.params.uartIrqLine = none ∨ d.ier.getLsbD 0 = false ∨ d.mcr.getLsbD 3 = false ∨
      d.rxFifo = []) → step s = .next { s with schedule := later })

/-! # Port Handle and Port Range -/

/-- `handle.read()` of width 8 is one transaction and returns the device's byte; `handle.write` is
one transaction (40_port_access.md rules R80, R81). -/
def Obligations.HandleAccessIsOneTransaction : Prop :=
  ∀ (s r : State) (rest : List Call) (port : Port) (v : Byte) (w : TxnWord) (i : Instr),
    s.Quiet → decode (s.selectors w) w = .ok i → exec i s = .next r →
    (s.program = .handleRead ⟨port, .w8⟩ :: rest →
      wordAt (fun u => (s.uart u).isSome) false port 0x00#8 = some w →
      Completes 3 s rest r.pic1 r.pic2 r.uarts [(encode i).withData r.returned]
        (.byte r.returned)) ∧
    (s.program = .handleWrite port (.v8 v) :: rest →
      wordAt (fun u => (s.uart u).isSome) true port v = some w →
      Completes 3 s rest r.pic1 r.pic2 r.uarts [w] .unit)

/-- A byte access at a port that is none of the map's is refused, and so is every wider access, under
its own name where it touches a port of the map and as unclaimed elsewhere (20_memory.md rules R41
and R43). That a wider access is refused when its call begins, and the two names, are the model's
choice of log entry 11. -/
def Obligations.UnmappedAndWideAccessesAreRefused : Prop :=
  ∀ (s : State) (rest : List Call), s.Quiet →
    (∀ port : Port, ¬ mapped s port →
      (s.program = .handleRead ⟨port, .w8⟩ :: rest →
        run 2 s = .refused (.unclaimedPort port)) ∧
      (∀ v : Byte, s.program = .handleWrite port (.v8 v) :: rest →
        run 2 s = .refused (.unclaimedPort port))) ∧
    (∀ h : Handle, h.width ≠ .w8 →
      (s.program = .handleRead h :: rest ∨
        ∃ v : Value, v.width = h.width ∧ s.program = .handleWrite h.address v :: rest) →
      (touchesMapped s h → step s = .refused (.wideAccess h)) ∧
      (¬ touchesMapped s h → step s = .refused (.unclaimedPort h.address)))

/-- A range access within its bound is the handle access of width 8 at `base + offset`
(40_port_access.md rules R82, R83). -/
def Obligations.RangeAccessIsTheHandleAccessAtItsOffset : Prop :=
  ∀ (s : State) (rest : List Call) (r : Range) (offset : Nat) (v : Byte) (port : Port),
    s.Quiet → offset < r.count → port.toNat = r.base.toNat + offset →
    (s.program = .rangeRead r offset :: rest →
      step s = step { s with program := .handleRead ⟨port, .w8⟩ :: rest }) ∧
    (s.program = .rangeWrite r offset v :: rest →
      step s = step { s with program := .handleWrite port (.v8 v) :: rest })

/-! # Interrupt controller driver -/

/-- `init(offset)`: ten writes, after which both controllers are ready with the vector bases
`offset` and `offset + 8` and every line masked, from every state; an offset of at least 32 outside
the admitted ones is refused, one below 32 fails (42_pic_driver_ops.md rule R110). No other agent
moves during it. The two mask writes and the order of the ten are the spec's own decision D11, the
admitted offsets its decision D9. That the failing assertion is a next state which records the
failure, with the call begun and gone, is the model's choice of log entry 10. -/
def Obligations.InitRemapsAndMasksEverything : Prop :=
  ∀ (s : State) (offset : Byte) (rest : List Call), s.Quiet → s.program = .picInit offset :: rest →
    (offset.toNat < 32 → step s = .next { s with
      program := rest, failure := some (.badVectorOffset offset) }) ∧
    (32 ≤ offset.toNat → (offset &&& 0x07#8 ≠ 0x00#8 ∨ 240 < offset.toNat) →
      step s = .refused (.vectorOffsetNotAdmitted offset)) ∧
    (32 ≤ offset.toNat → offset &&& 0x07#8 = 0x00#8 → offset.toNat ≤ 240 →
      Completes 12 s rest
        { imr := 0xFF#8, irr := 0x00#8, isr := 0x00#8, vbase := offset, phase := .ready,
          icw1 := 0x11#8, icw3 := 0x04#8, icw4 := 0x01#8, readSel := .selIrr }
        { imr := 0xFF#8, irr := 0x00#8, isr := 0x00#8, vbase := offset + 8#8, phase := .ready,
          icw1 := 0x11#8, icw3 := 0x02#8, icw4 := 0x01#8, readSel := .selIrr }
        s.uarts
        [cmdWrite .P 0x11#8, cmdWrite .S 0x11#8, dataWrite .P offset,
          dataWrite .S (offset + 8#8), dataWrite .P 0x04#8, dataWrite .S 0x02#8,
          dataWrite .P 0x01#8, dataWrite .S 0x01#8, dataWrite .P 0xFF#8, dataWrite .S 0xFF#8]
        .unit)

/-- `set_mask(p, q)` writes both masks, primary first, `disable()` writes 0xFF to both, and a
`get_mask()` returns both, primary first: what `set_mask` wrote is read back exactly
(42_pic_driver_ops.md rules R111, R113, R114). The order of `disable`'s two writes is the spec's own
decision D11. -/
def Obligations.MaskOperationsWriteAndReadBothMasks : Prop :=
  ∀ (s : State) (p q : Byte) (rest : List Call), s.Quiet → s.BothReady →
    (s.program = .setMask p q :: rest →
      Completes 4 s rest { s.pic1 with imr := p } { s.pic2 with imr := q } s.uarts
        [dataWrite .P p, dataWrite .S q] .unit) ∧
    (s.program = .picDisable :: rest →
      Completes 4 s rest { s.pic1 with imr := 0xFF#8 } { s.pic2 with imr := 0xFF#8 } s.uarts
        [dataWrite .P 0xFF#8, dataWrite .S 0xFF#8] .unit) ∧
    (s.program = .getMask :: rest →
      Completes 4 s rest s.pic1 s.pic2 s.uarts
        [dataRead .P s.pic1.imr, dataRead .S s.pic2.imr] (.pair s.pic1.imr s.pic2.imr)) ∧
    (s.program = .setMask p q :: .getMask :: rest →
      ∃ t, run 8 s = .next t ∧ t.program = rest ∧
        t.results = s.results ++ [.unit, .pair p q])

/-- `eoi(irq)` sends the command to the secondary first for its lines and to the primary always and
last; a line of 16 or more fails (42_pic_driver_ops.md rule R112). That the failing assertion is a
next state which records the failure, with the call begun and gone, is the model's choice of log
entry 10. -/
def Obligations.EoiTellsTheSecondaryFirst : Prop :=
  ∀ (s : State) (irq : Nat) (rest : List Call), s.Quiet → s.BothReady →
    s.program = .eoi irq :: rest →
    (irq < 8 →
      Completes 3 s rest (afterEoi s.pic1) s.pic2 s.uarts [cmdWrite .P 0x20#8] .unit) ∧
    (8 ≤ irq → irq < 16 →
      Completes 4 s rest (afterEoi s.pic1) (afterEoi s.pic2) s.uarts
        [cmdWrite .S 0x20#8, cmdWrite .P 0x20#8] .unit) ∧
    (16 ≤ irq → step s = .next { s with program := rest, failure := some (.badIrqIndex irq) })

/-- `enable_irq(irq)` clears the line's mask bit, and for a line of the secondary the cascade bit of
the primary too; a line of 16 or more fails (42_pic_driver_ops.md rule R115). That the secondary's
mask is read and written first and the primary's read afresh is the spec's own decision D21. That
the failing assertion is a next state which records the failure, with the call begun and gone, is
the model's choice of log entry 10. -/
def Obligations.EnableClearsTheLineAndTheCascade : Prop :=
  ∀ (s : State) (irq : Nat) (rest : List Call), s.Quiet → s.BothReady →
    s.program = .enableIrq irq :: rest →
    (irq < 8 →
      Completes 4 s rest { s.pic1 with imr := s.pic1.imr &&& ~~~(0x01#8 <<< irq) } s.pic2 s.uarts
        [dataRead .P s.pic1.imr, dataWrite .P (s.pic1.imr &&& ~~~(0x01#8 <<< irq))] .unit) ∧
    (8 ≤ irq → irq < 16 →
      Completes 6 s rest { s.pic1 with imr := s.pic1.imr &&& ~~~0x04#8 }
        { s.pic2 with imr := s.pic2.imr &&& ~~~(0x01#8 <<< (irq - 8)) } s.uarts
        [dataRead .S s.pic2.imr, dataWrite .S (s.pic2.imr &&& ~~~(0x01#8 <<< (irq - 8))),
          dataRead .P s.pic1.imr, dataWrite .P (s.pic1.imr &&& ~~~0x04#8)] .unit) ∧
    (16 ≤ irq → step s = .next { s with program := rest, failure := some (.badIrqIndex irq) })

/-- `disable_irq(irq)` sets the line's mask bit and has no effect on the cascade; after an
`enable_irq` of a masked line it restores the masks, but for the primary's bit 2 after a line of the
secondary (42_pic_driver_ops.md rule R116, 90_conflicts.md C4); a line of 16 or more fails. That the
failing assertion is a next state which records the failure, with the call begun and gone, is the
model's choice of log entry 10. -/
def Obligations.DisableSetsTheLineAlone : Prop :=
  ∀ (s : State) (irq : Nat) (rest : List Call), s.Quiet → s.BothReady →
    (s.program = .disableIrq irq :: rest →
      (irq < 8 →
        Completes 4 s rest { s.pic1 with imr := s.pic1.imr ||| (0x01#8 <<< irq) } s.pic2 s.uarts
          [dataRead .P s.pic1.imr, dataWrite .P (s.pic1.imr ||| (0x01#8 <<< irq))] .unit) ∧
      (8 ≤ irq → irq < 16 →
        Completes 4 s rest s.pic1 { s.pic2 with imr := s.pic2.imr ||| (0x01#8 <<< (irq - 8)) }
          s.uarts
          [dataRead .S s.pic2.imr, dataWrite .S (s.pic2.imr ||| (0x01#8 <<< (irq - 8)))]
          .unit) ∧
      (16 ≤ irq →
        step s = .next { s with program := rest, failure := some (.badIrqIndex irq) })) ∧
    (s.program = .enableIrq irq :: .disableIrq irq :: rest →
      (irq < 8 → s.pic1.imr.getLsbD irq = true →
        ∃ t, run 8 s = .next t ∧ t.pic1 = s.pic1 ∧ t.pic2 = s.pic2 ∧ t.program = rest) ∧
      (8 ≤ irq → irq < 16 → s.pic2.imr.getLsbD (irq - 8) = true →
        ∃ t, run 10 s = .next t ∧ t.pic1 = { s.pic1 with imr := s.pic1.imr &&& ~~~0x04#8 } ∧
          t.pic2 = s.pic2 ∧ t.program = rest))

/-- `get_irr()` and `get_isr()` select the register at both controllers, then read both, primary
first; the selection stays (42_pic_driver_ops.md rules R117, R118). The order of the selects and the
reads is the spec's own reading, decision D22. -/
def Obligations.DiagnosticReadsReturnBothRegisters : Prop :=
  ∀ (s : State) (rest : List Call), s.Quiet → s.BothReady →
    (s.program = .getIrr :: rest →
      Completes 6 s rest { s.pic1 with readSel := .selIrr } { s.pic2 with readSel := .selIrr }
        s.uarts
        [cmdWrite .P 0x0A#8, cmdWrite .S 0x0A#8, cmdRead .P (s.irr .P), cmdRead .S s.pic2.irr]
        (.pair (s.irr .P) s.pic2.irr)) ∧
    (s.program = .getIsr :: rest →
      Completes 6 s rest { s.pic1 with readSel := .selIsr } { s.pic2 with readSel := .selIsr }
        s.uarts
        [cmdWrite .P 0x0B#8, cmdWrite .S 0x0B#8, cmdRead .P s.pic1.isr, cmdRead .S s.pic2.isr]
        (.pair s.pic1.isr s.pic2.isr))

/-- The operations that keep the cascade unmasked whenever a secondary line is: `init` and
`disable` from every state, `enable_irq`, `disable_irq` of a line other than 2, `eoi`, `get_mask`,
`get_irr` and `get_isr` from states that have it so. `set_mask` with the primary's bit 2 set and a
secondary line unmasked does not, and `disable_irq(2)` with a secondary line unmasked does not
(42_pic_driver_ops.md rule R119). -/
def Obligations.OperationsThatKeepTheCascadeOpen : Prop :=
  ∀ (s : State) (call : Call) (rest : List Call), s.Quiet → s.BothReady →
    s.program = call :: rest →
    ((call = .picDisable ∨
      (∃ offset : Byte, call = .picInit offset ∧ 32 ≤ offset.toNat ∧
        offset &&& 0x07#8 = 0x00#8 ∧ offset.toNat ≤ 240) ∨
      (s.CascadeOpen ∧
        ((∃ irq, irq < 16 ∧ (call = .enableIrq irq ∨ call = .eoi irq ∨
            (call = .disableIrq irq ∧ irq ≠ 2))) ∨
          call = .getMask ∨ call = .getIrr ∨ call = .getIsr))) →
      ∃ n t, run n s = .next t ∧ t.program = rest ∧ t.Quiet ∧ t.CascadeOpen) ∧
    (∀ p q : Byte, call = .setMask p q → p.getLsbD 2 = true → q ≠ 0xFF#8 →
      ∃ t, run 4 s = .next t ∧ t.program = rest ∧ ¬ t.CascadeOpen) ∧
    (call = .disableIrq 2 → s.pic2.imr ≠ 0xFF#8 →
      ∃ t, run 4 s = .next t ∧ t.program = rest ∧ ¬ t.CascadeOpen)

/-- The lost update: a handler's `enable_irq(b)` that falls between the read and the write of the
main flow's `enable_irq(a)` is undone by that write (70_reset_and_hazards.md rule R204). -/
def Obligations.InterruptedMaskUpdateIsLost : Prop :=
  ∀ (s : State) (a b : Nat) (rest : List Call), a < 8 → b < 8 → s.BothReady →
    s.failure = none → s.stack = [] → s.program = .enableIrq a :: rest →
    s.schedule = [.driver, .driver, .handler (.enableIrq b)] →
    ∃ t, run 8 s = .next t ∧ t.program = rest ∧ t.stack = [] ∧
      t.pic1 = { s.pic1 with imr := s.pic1.imr &&& ~~~(0x01#8 <<< a) } ∧
      t.trace = s.trace ++
        [dataRead .P s.pic1.imr, dataRead .P s.pic1.imr,
          dataWrite .P (s.pic1.imr &&& ~~~(0x01#8 <<< b)),
          dataWrite .P (s.pic1.imr &&& ~~~(0x01#8 <<< a))]

/-! # Serial line driver -/

/-- `SerialPort::new(base)` succeeds for exactly the eight canonical bases, with no transaction; any
other number fails (44_uart_driver_ops.md rule R150). That the failing assertion is a next state
which records the failure, with the call begun and gone, is the model's choice of log entry 10. -/
def Obligations.NewAcceptsTheCanonicalBases : Prop :=
  ∀ (s : State) (base : Port) (rest : List Call), s.Quiet → s.program = .serialNew base :: rest →
    (∀ u : Com, u.base = base →
      Completes 2 s rest s.pic1 s.pic2 s.uarts [] (.port u)) ∧
    ((¬ ∃ u : Com, u.base = base) → step s = .next { s with
      program := rest, failure := some (.badSerialBase base) }) ∧
    ((∃ u : Com, u.base = base) ↔
      base = 0x3F8#16 ∨ base = 0x2F8#16 ∨ base = 0x3E8#16 ∨ base = 0x2E8#16 ∨
      base = 0x5F8#16 ∨ base = 0x4F8#16 ∨ base = 0x5E8#16 ∨ base = 0x4E8#16)

/-- `uart.init()`: eight writes that reach one end state from every state of the UART, whatever its
divisor-latch bit and queues were, for every divisor (44_uart_driver_ops.md rules R151, R152). No
other agent moves during it. -/
def Obligations.UartInitReachesItsEndState : Prop :=
  ∀ (s : State) (u : Com) (d : Uart) (rest : List Call), s.Quiet → s.uart u = some d →
    s.program = .uartInit u :: rest →
    Completes 10 s rest s.pic1 s.pic2
      (s.uarts.set u { d with
        lcr := 0x03#8, dll := s.params.baudDivisor.extractLsb' 0 8
        dlm := s.params.baudDivisor.extractLsb' 8 8, fifoEn := true, rxTrigger := 14
        mcr := 0x0B#8, ier := 0x01#8, txPending := [], rxFifo := [], inited := true })
      [uartWord u 9 0x00#8, uartWord u 11 0x80#8,
        uartWord u 8 (s.params.baudDivisor.extractLsb' 0 8),
        uartWord u 9 (s.params.baudDivisor.extractLsb' 8 8), uartWord u 11 0x03#8,
        uartWord u 10 0xC7#8, uartWord u 12 0x0B#8, uartWord u 9 0x01#8]
      .unit

/-- Given a transmitter that reports output-empty only after `n` polls, `send_raw` performs exactly
`n + 1` status reads before writing (44_uart_driver_ops.md rule R153). -/
def Obligations.SendRawReadsStatusUntilReady : Prop :=
  ∀ (n : Nat) (s : State) (u : Com) (d : Uart) (old b : Byte) (rest : List Call),
    s.failure = none → s.stack = [] → s.program = .sendRaw u b :: rest →
    s.uart u = some d → d.inited = true → d.lcr.getLsbD 7 = false → d.txPending = [old] →
    s.schedule = .driver :: (List.replicate n .driver ++ [.event (.txShift u)]) →
    ∃ (t : State) (reads : List Byte), run (n + 5) s = .next t ∧ reads.length = n + 1 ∧
      t.trace = s.trace ++ reads.map (uartWord u 5) ++ [uartWord u 8 b] ∧
      (∀ k, k < n → (reads.getD k 0x00#8).getLsbD 5 = false) ∧
      (reads.getD n 0x00#8).getLsbD 5 = true ∧
      t.uart u = some { d with txPending := [b], txLine := d.txLine ++ [old] } ∧
      t.program = rest ∧ t.stack = []

/-- With a transmitter that never takes its byte `send_raw` spins for good: after any number of
steps it has only read the status and is still in its loop (70_reset_and_hazards.md rule R205). -/
def Obligations.SendRawSpinsOnAStuckTransmitter : Prop :=
  ∀ (n : Nat) (s : State) (u : Com) (d : Uart) (b : Byte) (rest : List Call), s.Quiet →
    s.program = .sendRaw u b :: rest → s.uart u = some d → d.inited = true →
    d.txPending ≠ [] →
    ∃ (t : State) (reads : List Byte), run (n + 1) s = .next t ∧ reads.length = n ∧
      t.trace = s.trace ++ reads.map (uartWord u 5) ∧
      (∀ v ∈ reads, v.getLsbD 5 = false) ∧ t.uart u = some d ∧ t.stack ≠ [] ∧
      t.program = rest ∧ t.failure = none

/-- `receive()` returns the oldest byte received after one status read when a byte is there, and
spins when none arrives (44_uart_driver_ops.md rule R154). -/
def Obligations.ReceiveReturnsTheOldestByte : Prop :=
  ∀ (s : State) (u : Com) (d : Uart) (rest : List Call), s.Quiet →
    s.program = .receive u :: rest → s.uart u = some d → d.inited = true →
    (∀ b more, d.rxFifo = b :: more → d.lcr.getLsbD 7 = false → ∃ v : Byte,
      v.getLsbD 0 = true ∧
      Completes 4 s rest s.pic1 s.pic2 (s.uarts.set u { d with rxFifo := more })
        [uartWord u 5 v, uartWord u 0 b] (.byte b)) ∧
    (d.rxFifo = [] → ∀ n, ∃ (t : State) (reads : List Byte), run (n + 1) s = .next t ∧ reads.length = n ∧
      t.trace = s.trace ++ reads.map (uartWord u 5) ∧ t.uart u = some d ∧ t.stack ≠ [] ∧
      t.results = s.results)

/-- With a transmitter that keeps up, `send(byte)` puts the byte on the line, and for backspace and DEL
the three bytes backspace, space, backspace; `write_str(bytes)` extends the line by what `send`
produces for each byte, in order; the empty string issues no transaction and needs no UART
(44_uart_driver_ops.md rules R155, R156). -/
def Obligations.SendAndWriteStrExtendTheLineInOrder : Prop :=
  (∀ (s : State) (u : Com) (d : Uart) (b : Byte) (rest : List Call),
     s.failure = none → s.stack = [] → s.program = .send u b :: rest →
     s.uart u = some d → d.inited = true → d.lcr.getLsbD 7 = false → d.txPending = [] →
     s.schedule = .driver :: (sent b).flatMap (fun _ => keepingUp u) →
     ∃ t, run (3 * (sent b).length + 2) s = .next t ∧
       t.uart u = some { d with txLine := d.txLine ++ sent b } ∧ t.program = rest ∧ t.stack = []) ∧
  (∀ (s : State) (u : Com) (d : Uart) (bytes : List Byte) (rest : List Call),
    s.failure = none → s.stack = [] → s.program = .writeStr u bytes :: rest →
    s.uart u = some d → d.inited = true → d.lcr.getLsbD 7 = false → d.txPending = [] →
    s.schedule = .driver :: (bytes.flatMap sent).flatMap (fun _ => keepingUp u) →
    ∃ t, run (3 * (bytes.flatMap sent).length + 2) s = .next t ∧
      t.uart u = some { d with txLine := d.txLine ++ bytes.flatMap sent } ∧
      t.program = rest ∧ t.stack = []) ∧
  (∀ (s : State) (u : Com) (rest : List Call), s.Quiet → s.program = .writeStr u [] :: rest →
    Completes 2 s rest s.pic1 s.pic2 s.uarts [] .unit)

/-- Before `uart.init()` the operations that send and receive are given no meaning
(70_reset_and_hazards.md rule R202). -/
def Obligations.SerialOperationsNeedInit : Prop :=
  ∀ (s : State) (u : Com) (d : Uart) (b : Byte) (rest : List Call), s.Quiet →
    s.uart u = some d → d.inited = false →
    (s.program = .sendRaw u b :: rest ∨ s.program = .send u b :: rest ∨
      s.program = .receive u :: rest) →
    step s = .refused (.uartNotInitialised u)
end

