-- ==== Sys2Proof/Laws/State.lean ====
section
/-! SUPPORT. One lemma per field of the state for each update, so that no later proof unfolds a
record update, and the lookup lemmas of the two indexed parts, controllers and UARTs. -/

namespace Sys2Proof.Machine

/-! ## Controllers -/

@[simp] theorem pic_P (s : State) : s.pic .P = s.pic1 := rfl
@[simp] theorem pic_S (s : State) : s.pic .S = s.pic2 := rfl
@[simp] theorem setPic_P_pic1 (s : State) (p : Pic) : (s.setPic .P p).pic1 = p := rfl
@[simp] theorem setPic_P_pic2 (s : State) (p : Pic) : (s.setPic .P p).pic2 = s.pic2 := rfl
@[simp] theorem setPic_S_pic1 (s : State) (p : Pic) : (s.setPic .S p).pic1 = s.pic1 := rfl
@[simp] theorem setPic_S_pic2 (s : State) (p : Pic) : (s.setPic .S p).pic2 = p := rfl

@[simp] theorem setPic_pic_same (s : State) (c : Ctl) (p : Pic) : (s.setPic c p).pic c = p := by
  cases c <;> rfl

theorem setPic_pic_ne (s : State) (c d : Ctl) (p : Pic) (h : d ≠ c) :
    (s.setPic c p).pic d = s.pic d := by
  cases c <;> cases d <;> first | rfl | exact absurd rfl h

@[simp] theorem setPic_uarts (s : State) (c : Ctl) (p : Pic) : (s.setPic c p).uarts = s.uarts := by
  cases c <;> rfl
@[simp] theorem setPic_params (s : State) (c : Ctl) (p : Pic) : (s.setPic c p).params = s.params := by
  cases c <;> rfl
@[simp] theorem setPic_intDropped (s : State) (c : Ctl) (p : Pic) : (s.setPic c p).intDropped = s.intDropped := by
  cases c <;> rfl
@[simp] theorem setPic_trace (s : State) (c : Ctl) (p : Pic) : (s.setPic c p).trace = s.trace := by
  cases c <;> rfl
@[simp] theorem setPic_vectors (s : State) (c : Ctl) (p : Pic) : (s.setPic c p).vectors = s.vectors := by
  cases c <;> rfl
@[simp] theorem setPic_failure (s : State) (c : Ctl) (p : Pic) : (s.setPic c p).failure = s.failure := by
  cases c <;> rfl
@[simp] theorem setPic_returned (s : State) (c : Ctl) (p : Pic) : (s.setPic c p).returned = s.returned := by
  cases c <;> rfl
@[simp] theorem setPic_draws (s : State) (c : Ctl) (p : Pic) : (s.setPic c p).draws = s.draws := by
  cases c <;> rfl
@[simp] theorem setPic_schedule (s : State) (c : Ctl) (p : Pic) : (s.setPic c p).schedule = s.schedule := by
  cases c <;> rfl
@[simp] theorem setPic_program (s : State) (c : Ctl) (p : Pic) : (s.setPic c p).program = s.program := by
  cases c <;> rfl
@[simp] theorem setPic_stack (s : State) (c : Ctl) (p : Pic) : (s.setPic c p).stack = s.stack := by
  cases c <;> rfl
@[simp] theorem setPic_results (s : State) (c : Ctl) (p : Pic) : (s.setPic c p).results = s.results := by
  cases c <;> rfl

/-! ## UARTs -/

@[simp] theorem get_set_same (us : Uarts) (u : Com) (d : Uart) : (us.set u d).get u = some d := by
  cases u <;> rfl

theorem get_set_ne (us : Uarts) (u v : Com) (d : Uart) (h : v ≠ u) :
    (us.set u d).get v = us.get v := by
  cases u <;> cases v <;> first | rfl | exact absurd rfl h

@[simp] theorem set_set_same (us : Uarts) (u : Com) (d e : Uart) :
    (us.set u d).set u e = us.set u e := by
  cases u <;> rfl

@[simp] theorem setUart_uart_same (s : State) (u : Com) (d : Uart) :
    (s.setUart u d).uart u = some d := get_set_same s.uarts u d

theorem setUart_uart_ne (s : State) (u v : Com) (d : Uart) (h : v ≠ u) :
    (s.setUart u d).uart v = s.uart v := get_set_ne s.uarts u v d h

@[simp] theorem setUart_uarts (s : State) (u : Com) (d : Uart) :
    (s.setUart u d).uarts = s.uarts.set u d := rfl

@[simp] theorem setPic_uart (s : State) (c : Ctl) (p : Pic) (u : Com) :
    (s.setPic c p).uart u = s.uart u := by
  cases c <;> rfl

@[simp] theorem setUart_pic1 (s : State) (u : Com) (d : Uart) : (s.setUart u d).pic1 = s.pic1 := rfl
@[simp] theorem setUart_pic2 (s : State) (u : Com) (d : Uart) : (s.setUart u d).pic2 = s.pic2 := rfl
@[simp] theorem setUart_params (s : State) (u : Com) (d : Uart) : (s.setUart u d).params = s.params := rfl
@[simp] theorem setUart_intDropped (s : State) (u : Com) (d : Uart) : (s.setUart u d).intDropped = s.intDropped := rfl
@[simp] theorem setUart_trace (s : State) (u : Com) (d : Uart) : (s.setUart u d).trace = s.trace := rfl
@[simp] theorem setUart_vectors (s : State) (u : Com) (d : Uart) : (s.setUart u d).vectors = s.vectors := rfl
@[simp] theorem setUart_failure (s : State) (u : Com) (d : Uart) : (s.setUart u d).failure = s.failure := rfl
@[simp] theorem setUart_returned (s : State) (u : Com) (d : Uart) : (s.setUart u d).returned = s.returned := rfl
@[simp] theorem setUart_draws (s : State) (u : Com) (d : Uart) : (s.setUart u d).draws = s.draws := rfl
@[simp] theorem setUart_schedule (s : State) (u : Com) (d : Uart) : (s.setUart u d).schedule = s.schedule := rfl
@[simp] theorem setUart_program (s : State) (u : Com) (d : Uart) : (s.setUart u d).program = s.program := rfl
@[simp] theorem setUart_stack (s : State) (u : Com) (d : Uart) : (s.setUart u d).stack = s.stack := rfl
@[simp] theorem setUart_results (s : State) (u : Com) (d : Uart) : (s.setUart u d).results = s.results := rfl

theorem markInited_of_present {s : State} {u : Com} {d : Uart} (h : s.uart u = some d) :
    s.markInited u = s.setUart u { d with inited := true } := by
  simp [State.markInited, h]

theorem markInited_of_absent {s : State} {u : Com} (h : s.uart u = none) : s.markInited u = s := by
  simp [State.markInited, h]

/-- Marking an instance initialised changes the UARTs only. -/
theorem markInited_uarts_only (s : State) (u : Com) :
    s.markInited u = { s with uarts := (s.markInited u).uarts } := by
  unfold State.markInited
  split <;> rfl

@[simp] theorem markInited_pic1 (s : State) (u : Com) :
    (s.markInited u).pic1 = s.pic1 := by
  rw [markInited_uarts_only]
@[simp] theorem markInited_pic2 (s : State) (u : Com) :
    (s.markInited u).pic2 = s.pic2 := by
  rw [markInited_uarts_only]
@[simp] theorem markInited_params (s : State) (u : Com) :
    (s.markInited u).params = s.params := by
  rw [markInited_uarts_only]
@[simp] theorem markInited_intDropped (s : State) (u : Com) :
    (s.markInited u).intDropped = s.intDropped := by
  rw [markInited_uarts_only]
@[simp] theorem markInited_trace (s : State) (u : Com) :
    (s.markInited u).trace = s.trace := by
  rw [markInited_uarts_only]
@[simp] theorem markInited_vectors (s : State) (u : Com) :
    (s.markInited u).vectors = s.vectors := by
  rw [markInited_uarts_only]
@[simp] theorem markInited_failure (s : State) (u : Com) :
    (s.markInited u).failure = s.failure := by
  rw [markInited_uarts_only]
@[simp] theorem markInited_returned (s : State) (u : Com) :
    (s.markInited u).returned = s.returned := by
  rw [markInited_uarts_only]
@[simp] theorem markInited_draws (s : State) (u : Com) :
    (s.markInited u).draws = s.draws := by
  rw [markInited_uarts_only]
@[simp] theorem markInited_schedule (s : State) (u : Com) :
    (s.markInited u).schedule = s.schedule := by
  rw [markInited_uarts_only]
@[simp] theorem markInited_program (s : State) (u : Com) :
    (s.markInited u).program = s.program := by
  rw [markInited_uarts_only]
@[simp] theorem markInited_stack (s : State) (u : Com) :
    (s.markInited u).stack = s.stack := by
  rw [markInited_uarts_only]
@[simp] theorem markInited_results (s : State) (u : Com) :
    (s.markInited u).results = s.results := by
  rw [markInited_uarts_only]

/-! ## Returned byte, failure, vector, top call -/

@[simp] theorem setReturned_returned (s : State) (b : Byte) : (s.setReturned b).returned = b := rfl
@[simp] theorem setReturned_pic1 (s : State) (b : Byte) : (s.setReturned b).pic1 = s.pic1 := rfl
@[simp] theorem setReturned_pic2 (s : State) (b : Byte) : (s.setReturned b).pic2 = s.pic2 := rfl
@[simp] theorem setReturned_uarts (s : State) (b : Byte) : (s.setReturned b).uarts = s.uarts := rfl
@[simp] theorem setReturned_params (s : State) (b : Byte) : (s.setReturned b).params = s.params := rfl
@[simp] theorem setReturned_intDropped (s : State) (b : Byte) : (s.setReturned b).intDropped = s.intDropped := rfl
@[simp] theorem setReturned_trace (s : State) (b : Byte) : (s.setReturned b).trace = s.trace := rfl
@[simp] theorem setReturned_vectors (s : State) (b : Byte) : (s.setReturned b).vectors = s.vectors := rfl
@[simp] theorem setReturned_failure (s : State) (b : Byte) : (s.setReturned b).failure = s.failure := rfl
@[simp] theorem setReturned_draws (s : State) (b : Byte) : (s.setReturned b).draws = s.draws := rfl
@[simp] theorem setReturned_schedule (s : State) (b : Byte) : (s.setReturned b).schedule = s.schedule := rfl
@[simp] theorem setReturned_program (s : State) (b : Byte) : (s.setReturned b).program = s.program := rfl
@[simp] theorem setReturned_stack (s : State) (b : Byte) : (s.setReturned b).stack = s.stack := rfl
@[simp] theorem setReturned_results (s : State) (b : Byte) : (s.setReturned b).results = s.results := rfl

@[simp] theorem raise_failure (s : State) (f : Fault) : (raise f s).failure = some f := rfl
@[simp] theorem raise_pic1 (s : State) (f : Fault) : (raise f s).pic1 = s.pic1 := rfl
@[simp] theorem raise_pic2 (s : State) (f : Fault) : (raise f s).pic2 = s.pic2 := rfl
@[simp] theorem raise_uarts (s : State) (f : Fault) : (raise f s).uarts = s.uarts := rfl
@[simp] theorem raise_params (s : State) (f : Fault) : (raise f s).params = s.params := rfl
@[simp] theorem raise_intDropped (s : State) (f : Fault) : (raise f s).intDropped = s.intDropped := rfl
@[simp] theorem raise_trace (s : State) (f : Fault) : (raise f s).trace = s.trace := rfl
@[simp] theorem raise_vectors (s : State) (f : Fault) : (raise f s).vectors = s.vectors := rfl
@[simp] theorem raise_returned (s : State) (f : Fault) : (raise f s).returned = s.returned := rfl
@[simp] theorem raise_draws (s : State) (f : Fault) : (raise f s).draws = s.draws := rfl
@[simp] theorem raise_schedule (s : State) (f : Fault) : (raise f s).schedule = s.schedule := rfl
@[simp] theorem raise_program (s : State) (f : Fault) : (raise f s).program = s.program := rfl
@[simp] theorem raise_stack (s : State) (f : Fault) : (raise f s).stack = s.stack := rfl
@[simp] theorem raise_results (s : State) (f : Fault) : (raise f s).results = s.results := rfl

@[simp] theorem deliver_vectors (s : State) (v : Nat) : (deliver v s).vectors = s.vectors ++ [v] := rfl
@[simp] theorem deliver_pic1 (s : State) (v : Nat) : (deliver v s).pic1 = s.pic1 := rfl
@[simp] theorem deliver_pic2 (s : State) (v : Nat) : (deliver v s).pic2 = s.pic2 := rfl
@[simp] theorem deliver_uarts (s : State) (v : Nat) : (deliver v s).uarts = s.uarts := rfl
@[simp] theorem deliver_params (s : State) (v : Nat) : (deliver v s).params = s.params := rfl
@[simp] theorem deliver_intDropped (s : State) (v : Nat) : (deliver v s).intDropped = s.intDropped := rfl
@[simp] theorem deliver_trace (s : State) (v : Nat) : (deliver v s).trace = s.trace := rfl
@[simp] theorem deliver_failure (s : State) (v : Nat) : (deliver v s).failure = s.failure := rfl
@[simp] theorem deliver_returned (s : State) (v : Nat) : (deliver v s).returned = s.returned := rfl
@[simp] theorem deliver_draws (s : State) (v : Nat) : (deliver v s).draws = s.draws := rfl
@[simp] theorem deliver_schedule (s : State) (v : Nat) : (deliver v s).schedule = s.schedule := rfl
@[simp] theorem deliver_program (s : State) (v : Nat) : (deliver v s).program = s.program := rfl
@[simp] theorem deliver_stack (s : State) (v : Nat) : (deliver v s).stack = s.stack := rfl
@[simp] theorem deliver_results (s : State) (v : Nat) : (deliver v s).results = s.results := rfl

@[simp] theorem goOn_stack (s : State) (f : Frame) (rest : List Action) (below : List Frame) :
    (s.goOn f rest below).stack = { f with todo := rest } :: below := rfl
@[simp] theorem goOn_pic1 (s : State) (f : Frame) (rest : List Action) (below : List Frame) :
    (s.goOn f rest below).pic1 = s.pic1 := rfl
@[simp] theorem goOn_pic2 (s : State) (f : Frame) (rest : List Action) (below : List Frame) :
    (s.goOn f rest below).pic2 = s.pic2 := rfl
@[simp] theorem goOn_uarts (s : State) (f : Frame) (rest : List Action) (below : List Frame) :
    (s.goOn f rest below).uarts = s.uarts := rfl
@[simp] theorem goOn_params (s : State) (f : Frame) (rest : List Action) (below : List Frame) :
    (s.goOn f rest below).params = s.params := rfl
@[simp] theorem goOn_intDropped (s : State) (f : Frame) (rest : List Action) (below : List Frame) :
    (s.goOn f rest below).intDropped = s.intDropped := rfl
@[simp] theorem goOn_trace (s : State) (f : Frame) (rest : List Action) (below : List Frame) :
    (s.goOn f rest below).trace = s.trace := rfl
@[simp] theorem goOn_vectors (s : State) (f : Frame) (rest : List Action) (below : List Frame) :
    (s.goOn f rest below).vectors = s.vectors := rfl
@[simp] theorem goOn_failure (s : State) (f : Frame) (rest : List Action) (below : List Frame) :
    (s.goOn f rest below).failure = s.failure := rfl
@[simp] theorem goOn_returned (s : State) (f : Frame) (rest : List Action) (below : List Frame) :
    (s.goOn f rest below).returned = s.returned := rfl
@[simp] theorem goOn_draws (s : State) (f : Frame) (rest : List Action) (below : List Frame) :
    (s.goOn f rest below).draws = s.draws := rfl
@[simp] theorem goOn_schedule (s : State) (f : Frame) (rest : List Action) (below : List Frame) :
    (s.goOn f rest below).schedule = s.schedule := rfl
@[simp] theorem goOn_program (s : State) (f : Frame) (rest : List Action) (below : List Frame) :
    (s.goOn f rest below).program = s.program := rfl
@[simp] theorem goOn_results (s : State) (f : Frame) (rest : List Action) (below : List Frame) :
    (s.goOn f rest below).results = s.results := rfl

/-! ## Derived signals read the controllers and the UARTs only -/

@[simp] theorem setReturned_uart (s : State) (b : Byte) (u : Com) :
    (s.setReturned b).uart u = s.uart u := rfl
@[simp] theorem goOn_uart (s : State) (f : Frame) (rest : List Action) (below : List Frame)
    (u : Com) : (s.goOn f rest below).uart u = s.uart u := rfl

theorem intOut_congr {s t : State} (h1 : t.pic1 = s.pic1) (h2 : t.pic2 = s.pic2) (c : Ctl) :
    t.intOut c = s.intOut c := by
  obtain ⟨p1, p2, _⟩ := t
  obtain rfl : p1 = s.pic1 := h1
  obtain rfl : p2 = s.pic2 := h2
  cases c <;> rfl

@[simp] theorem setUart_intOut (s : State) (u : Com) (d : Uart) (c : Ctl) :
    (s.setUart u d).intOut c = s.intOut c := intOut_congr rfl rfl c
@[simp] theorem setReturned_intOut (s : State) (b : Byte) (c : Ctl) :
    (s.setReturned b).intOut c = s.intOut c := intOut_congr rfl rfl c

theorem goOn_markInited (s : State) (u : Com) (f : Frame) (rest : List Action)
    (below : List Frame) : (s.goOn f rest below).markInited u = (s.markInited u).goOn f rest below := by
  unfold State.markInited
  rw [goOn_uart]
  split <;> rfl

@[simp] theorem markInited_intOut (s : State) (u : Com) (c : Ctl) :
    (s.markInited u).intOut c = s.intOut c := intOut_congr (by simp) (by simp) c

end Sys2Proof.Machine
end

