-- ==== Sys2Proof/Laws/Ops.lean ====
section
/-! SUPPORT. One lemma per shared operation: what it answers under its guard, and everything it can
have done when it answers a next state. -/

namespace Sys2Proof.Machine

/-! ## Ending a transaction -/

/-- A transaction that leaves both controllers as they were drops no output. -/
theorem intDroppedAfter_same {s t : State} (at? : Option Ctl) (h1 : t.pic1 = s.pic1)
    (h2 : t.pic2 = s.pic2) : intDroppedAfter at? s t = none := by
  simp [intDroppedAfter, intOut_congr h1 h2]

/-- A transaction addressed to no controller leaves `int_dropped` clear. -/
@[simp] theorem intDroppedAfter_none (s t : State) : intDroppedAfter none s t = none := by
  simp [intDroppedAfter]

theorem finish_next_iff {at? : Option Ctl} {w : TxnWord} {s t r : State} :
    finish at? w s t = .next r ↔
      r = { t with trace := s.trace ++ [w], intDropped := intDroppedAfter at? s t } := by
  simp [finish, eq_comm]

/-! ## Guards -/

theorem picWrite_ready {i : Instr} {c : Ctl} {needed : Phase} {device : Pic → Pic} {s : State}
    (h : (s.pic c).phase = needed) :
    picWrite i c needed device s =
      finish (some c) (encode i) s (s.setPic c (device (s.pic c))) := by
  simp [picWrite, h]

theorem picWrite_next_iff {i : Instr} {c : Ctl} {needed : Phase} {device : Pic → Pic}
    {s t : State} :
    picWrite i c needed device s = .next t ↔
      (s.pic c).phase = needed ∧
        finish (some c) (encode i) s (s.setPic c (device (s.pic c))) = .next t := by
  unfold picWrite
  split <;> simp_all

theorem picRead_next_iff {i : Instr} {c : Ctl} {value : Byte} {s t : State} :
    picRead i c value s = .next t ↔
      (s.pic c).phase = .ready ∧
        finish (some c) ((encode i).withData value) s (s.setReturned value) = .next t := by
  unfold picRead
  split <;> simp_all

theorem uartWrite_next_iff {i : Instr} {u : Com} {device : Uart → Uart} {s t : State} :
    uartWrite i u device s = .next t ↔
      ∃ d, s.uart u = some d ∧ finish none (encode i) s (s.setUart u (device d)) = .next t := by
  unfold uartWrite
  split <;> simp_all

theorem uartLatchedWrite_next_iff {i : Instr} {u : Com} {dlab : Bool} {device : Uart → Uart}
    {s t : State} :
    uartLatchedWrite i u dlab device s = .next t ↔
      ∃ d, s.uart u = some d ∧ d.dlab = dlab ∧
        finish none (encode i) s (s.setUart u (device d)) = .next t := by
  unfold uartLatchedWrite
  split
  · split <;> simp_all
  · simp_all

/-! ## Requests and acknowledges -/

/-- A request changes one bit of one request register, and nothing in `Uninit`. -/
theorem requestLine_cases (c : Ctl) (i : Nat) (s : State) :
    ((s.pic c).phase = .uninit ∧ requestLine c i s = s) ∨
      ((s.pic c).phase ≠ .uninit ∧
        requestLine c i s = s.setPic c { s.pic c with irr := (s.pic c).irr ||| bit i }) := by
  unfold requestLine
  split <;> simp_all

/-- An acknowledge takes a line of the primary or, through input 2, one of the secondary. -/
theorem acknowledge_cases (s : State) :
    (lsb (s.req .P) = 2 ∧ acknowledge s = ackSecondary (lsb (s.req .S)) s) ∨
      (lsb (s.req .P) ≠ 2 ∧ acknowledge s = ackPrimary (lsb (s.req .P)) s) := by
  unfold acknowledge
  split <;> simp_all

/-- End of interrupt keeps everything but the in-service register. -/
theorem endOfInterrupt_keeps (p : Pic) : p.endOfInterrupt = { p with isr := p.endOfInterrupt.isr } := by
  unfold Pic.endOfInterrupt
  split <;> rfl

/-! ## Answers -/

@[simp] theorem andThen_next (t : State) (k : State → State) :
    Answer.andThen (.next t) k = .next (k t) := rfl
@[simp] theorem andThen_fault (f : Fault) (k : State → State) :
    Answer.andThen (.fault f) k = .fault f := rfl
@[simp] theorem andThen_refused (r : Refusal) (k : State → State) :
    Answer.andThen (.refused r) k = .refused r := rfl

theorem andThen_next_iff {a : Answer} {k : State → State} {t : State} :
    Answer.andThen a k = .next t ↔ ∃ r, a = .next r ∧ t = k r := by
  cases a <;> simp [eq_comm]

/-! ## Turns -/

theorem turn_of_empty_schedule {issue : TxnWord → State → Answer} {s : State}
    (h : s.schedule = []) : turn issue s = driverTurn issue s := by
  simp [turn, h]

theorem driverTurn_of_failure {issue : TxnWord → State → Answer} {s : State} {f : Fault}
    (h : s.failure = some f) : driverTurn issue s = .fault f := by
  simp [driverTurn, h]

theorem driverTurn_call {issue : TxnWord → State → Answer} {s : State} {c : Call}
    {cs : List Call} (hf : s.failure = none) (hs : s.stack = []) (hp : s.program = c :: cs) :
    driverTurn issue s = enterCall c { s with program := cs } := by
  simp [driverTurn, hf, hs, hp]

theorem driverTurn_act {issue : TxnWord → State → Answer} {s : State} {f : Frame} {a : Action}
    {rest : List Action} {below : List Frame} (hf : s.failure = none)
    (hs : s.stack = f :: below) (ht : f.todo = a :: rest) :
    driverTurn issue s = act issue a f rest below s := by
  simp [driverTurn, hf, hs, ht]

/-- `run` takes the first step and goes on from what it answers. -/
theorem run_succ {n : Nat} {s t : State} (h : step s = .next t) : run (n + 1) s = run n t := by
  simp [run, Host.Core.run, Sys2Proof.core, h]

@[simp] theorem run_zero (s : State) : run 0 s = .next s := rfl

end Sys2Proof.Machine
end

