-- ==== Sys2Proof/Laws/Decode.lean ====
section
/-! SUPPORT. What the decoder reads in a packed word, and the word each port gives. -/

namespace Sys2Proof

/-! ## Fields of packed words -/

theorem packPic_bit (write : Bool) (port : Port) (data : Byte) (i : Nat) :
    (packPic write port data).getLsbD i =
      if i < 8 then data.getLsbD i
      else if i < 24 then port.getLsbD (i - 8) else (BitVec.ofBool write).getLsbD (i - 24) := by
  unfold packPic
  show BitVec.getLsbD (BitVec.append (BitVec.append (BitVec.ofBool write) port) data) i = _
  rw [BitVec.append_eq, BitVec.getLsbD_append]
  split
  · rfl
  · rw [BitVec.append_eq, BitVec.getLsbD_append]
    split
    · rw [if_pos (by omega)]
    · rw [if_neg (by omega), Nat.sub_sub]

theorem packUart_bit (write : Bool) (off : BitVec 3) (data : Byte) (i : Nat) :
    (packUart write off data).getLsbD i =
      if i < 8 then data.getLsbD i
      else if i < 11 then off.getLsbD (i - 8) else (BitVec.ofBool write).getLsbD (i - 11) := by
  unfold packUart
  show BitVec.getLsbD (BitVec.append (BitVec.append (BitVec.ofBool write) off) data) i = _
  rw [BitVec.append_eq, BitVec.getLsbD_append]
  split
  · rfl
  · rw [BitVec.append_eq, BitVec.getLsbD_append]
    split
    · rw [if_pos (by omega)]
    · rw [if_neg (by omega), Nat.sub_sub]

@[simp] theorem packPic_write (write : Bool) (port : Port) (data : Byte) :
    (packPic write port data)[24] = write := by
  rw [← BitVec.getLsbD_eq_getElem, packPic_bit]
  cases write <;> rfl

@[simp] theorem packPic_port (write : Bool) (port : Port) (data : Byte) :
    (packPic write port data).extractLsb' 8 16 = port := by
  apply BitVec.eq_of_getLsbD_eq
  intro i hi
  rw [BitVec.getLsbD_extractLsb', packPic_bit, if_neg (by omega), if_pos (by omega)]
  simp [hi]

@[simp] theorem packPic_data (write : Bool) (port : Port) (data : Byte) :
    (packPic write port data).extractLsb' 0 8 = data := by
  apply BitVec.eq_of_getLsbD_eq
  intro i hi
  rw [BitVec.getLsbD_extractLsb', packPic_bit, if_pos (by omega)]
  simp [hi]

@[simp] theorem packUart_write (write : Bool) (off : BitVec 3) (data : Byte) :
    (packUart write off data)[11] = write := by
  rw [← BitVec.getLsbD_eq_getElem, packUart_bit]
  cases write <;> rfl

@[simp] theorem packUart_off (write : Bool) (off : BitVec 3) (data : Byte) :
    (packUart write off data).extractLsb' 8 3 = off := by
  apply BitVec.eq_of_getLsbD_eq
  intro i hi
  rw [BitVec.getLsbD_extractLsb', packUart_bit, if_neg (by omega), if_pos (by omega)]
  simp [hi]

@[simp] theorem packUart_data (write : Bool) (off : BitVec 3) (data : Byte) :
    (packUart write off data).extractLsb' 0 8 = data := by
  apply BitVec.eq_of_getLsbD_eq
  intro i hi
  rw [BitVec.getLsbD_extractLsb', packUart_bit, if_pos (by omega)]
  simp [hi]

/-! ## Every word is a packed word -/

theorem pic_word_fields (w : BitVec 25) :
    w = packPic (w.getLsbD 24) (w.extractLsb' 8 16) (w.extractLsb' 0 8) := by
  apply BitVec.eq_of_getLsbD_eq
  intro i hi
  rw [packPic_bit]
  split
  · simp [*]
  · split
    · rw [BitVec.getLsbD_extractLsb']
      simp [show i - 8 < 16 by omega, show 8 + (i - 8) = i by omega]
    · obtain rfl : i = 24 := by omega
      cases w.getLsbD 24 <;> rfl

theorem uart_word_fields (w : BitVec 12) :
    w = packUart (w.getLsbD 11) (w.extractLsb' 8 3) (w.extractLsb' 0 8) := by
  apply BitVec.eq_of_getLsbD_eq
  intro i hi
  rw [packUart_bit]
  split
  · simp [*]
  · split
    · rw [BitVec.getLsbD_extractLsb']
      simp [show i - 8 < 3 by omega, show 8 + (i - 8) = i by omega]
    · obtain rfl : i = 11 := by omega
      cases w.getLsbD 11 <;> rfl

/-! ## Another data byte leaves direction, port and offset alone -/

@[simp] theorem withData_pic (write : Bool) (port : Port) (a b : Byte) :
    (TxnWord.pic25 (packPic write port a)).withData b = .pic25 (packPic write port b) := by
  simp only [TxnWord.withData, TxnWord.pic25.injEq]
  apply BitVec.eq_of_getLsbD_eq
  intro i hi
  rw [packPic_bit]
  show BitVec.getLsbD (BitVec.append _ _) i = _
  rw [BitVec.append_eq, BitVec.getLsbD_append]
  split
  · rfl
  · rw [BitVec.getLsbD_extractLsb', packPic_bit, if_neg (by omega)]
    simp [show 8 + (i - 8) = i by omega, show i - 8 < 17 by omega]

@[simp] theorem withData_uart (u : Com) (write : Bool) (off : BitVec 3) (a b : Byte) :
    (TxnWord.uart12 u (packUart write off a)).withData b = .uart12 u (packUart write off b) := by
  simp only [TxnWord.withData, TxnWord.uart12.injEq, true_and]
  apply BitVec.eq_of_getLsbD_eq
  intro i hi
  rw [packUart_bit]
  show BitVec.getLsbD (BitVec.append _ _) i = _
  rw [BitVec.append_eq, BitVec.getLsbD_append]
  split
  · rfl
  · rw [BitVec.getLsbD_extractLsb', packUart_bit, if_neg (by omega)]
    simp [show 8 + (i - 8) = i by omega, show i - 8 < 4 by omega]

@[simp] theorem withData_withData (w : TxnWord) (a b : Byte) :
    (w.withData a).withData b = w.withData b := by
  cases w with
  | pic25 w => rw [pic_word_fields w]; simp only [withData_pic]
  | uart12 u w => rw [uart_word_fields w]; simp only [withData_uart]

@[simp] theorem withData_data (w : TxnWord) : w.withData w.data = w := by
  cases w with
  | pic25 w => rw [pic_word_fields w]; simp only [withData_pic, TxnWord.data, packPic_data]
  | uart12 u w => rw [uart_word_fields w]; simp only [withData_uart, TxnWord.data, packUart_data]

/-! ## Decoding a packed word goes by its port -/

theorem decode_cmd (sel : Selectors) (c : Ctl) (write : Bool) (data : Byte) :
    decode sel (.pic25 (packPic write c.cmdPort data)) = decodeCmd c write data := by
  cases c <;> simp [decode, decodePic, Ctl.cmdPort, Ctl.dataPort]

theorem decode_data (sel : Selectors) (c : Ctl) (write : Bool) (data : Byte) :
    decode sel (.pic25 (packPic write c.dataPort data)) =
      decodeData c (sel.phase c) write data := by
  cases c <;> simp [decode, decodePic, Ctl.cmdPort, Ctl.dataPort, Selectors.phase]

theorem decode_uart_write (sel : Selectors) (u : Com) (off : BitVec 3) (data : Byte) :
    decode sel (.uart12 u (packUart true off data)) = decodeUartWrite sel.dlab u off data := by
  simp [decode, decodeUart]

theorem decode_uart_read (sel : Selectors) (u : Com) (off : BitVec 3) (data : Byte) :
    decode sel (.uart12 u (packUart false off data)) = decodeUartRead sel.dlab u off := by
  simp [decode, decodeUart]

/-! ## The word of a port -/

theorem wordAt_cmd (present : Com → Bool) (c : Ctl) (write : Bool) (data : Byte) :
    wordAt present write c.cmdPort data = some (.pic25 (packPic write c.cmdPort data)) := by
  cases c <;> simp [wordAt]

theorem wordAt_data (present : Com → Bool) (c : Ctl) (write : Bool) (data : Byte) :
    wordAt present write c.dataPort data = some (.pic25 (packPic write c.dataPort data)) := by
  cases c <;> simp [wordAt]

/-- A port `u + off` with `off ≤ 5` of a UART that is present gives a word of that UART. -/
theorem wordAt_uart (present : Com → Bool) (u : Com) (off : Nat) (write : Bool) (data : Byte)
    (hu : present u = true) (ho : off ≤ 5) :
    wordAt present write (u.port off) data =
      some (.uart12 u (packUart write (BitVec.ofNat 3 off) data)) := by
  have h : off = 0 ∨ off = 1 ∨ off = 2 ∨ off = 3 ∨ off = 4 ∨ off = 5 := by omega
  rcases h with rfl | rfl | rfl | rfl | rfl | rfl <;> cases u <;>
    simp [wordAt, Com.port, Com.base, Ctl.cmdPort, Ctl.dataPort, Com.all, hu]

end Sys2Proof
end

