-- ==== Sys2Proof/Laws/PerInstr.lean ====
section
/-! SUPPORT. Per instruction: the word the encoder gives lies in the instruction's row of the opcode
table, the row's match and mask columns being written out in `Instr.rowBits`. -/

namespace Sys2Proof.Laws.EncodedInRow

/-- The encoded word of a well-formed instruction has the bits its opcode-table row fixes. -/
def Statement (i : Instr) : Prop := i.wellFormed = true → i.rowBits.holds (encode i) = true

theorem pic1Icw1 : Statement .pic1Icw1 := by
  unfold Statement
  decide

theorem pic1Icw2 (data : Byte) : Statement (.pic1Icw2 data) := by
  revert data
  unfold Statement
  decide

theorem pic1Icw3 : Statement .pic1Icw3 := by
  unfold Statement
  decide

theorem pic1Icw4 : Statement .pic1Icw4 := by
  unfold Statement
  decide

theorem pic1Ocw1 (data : Byte) : Statement (.pic1Ocw1 data) := by
  revert data
  unfold Statement
  decide

theorem pic1RdImr : Statement .pic1RdImr := by
  unfold Statement
  decide

theorem pic1Eoi : Statement .pic1Eoi := by
  unfold Statement
  decide

theorem pic1SelIrr : Statement .pic1SelIrr := by
  unfold Statement
  decide

theorem pic1SelIsr : Statement .pic1SelIsr := by
  unfold Statement
  decide

theorem pic1RdSel : Statement .pic1RdSel := by
  unfold Statement
  decide

theorem pic2Icw1 : Statement .pic2Icw1 := by
  unfold Statement
  decide

theorem pic2Icw2 (data : Byte) : Statement (.pic2Icw2 data) := by
  revert data
  unfold Statement
  decide

theorem pic2Icw3 : Statement .pic2Icw3 := by
  unfold Statement
  decide

theorem pic2Icw4 : Statement .pic2Icw4 := by
  unfold Statement
  decide

theorem pic2Ocw1 (data : Byte) : Statement (.pic2Ocw1 data) := by
  revert data
  unfold Statement
  decide

theorem pic2RdImr : Statement .pic2RdImr := by
  unfold Statement
  decide

theorem pic2Eoi : Statement .pic2Eoi := by
  unfold Statement
  decide

theorem pic2SelIrr : Statement .pic2SelIrr := by
  unfold Statement
  decide

theorem pic2SelIsr : Statement .pic2SelIsr := by
  unfold Statement
  decide

theorem pic2RdSel : Statement .pic2RdSel := by
  unfold Statement
  decide

theorem uartThrWr (u : Com) (data : Byte) : Statement (.uartThrWr u data) := by
  unfold Statement
  revert data
  cases u <;> decide

theorem uartRbrRd (u : Com) : Statement (.uartRbrRd u) := by
  unfold Statement
  cases u <;> decide

theorem uartDllWr (u : Com) (data : Byte) : Statement (.uartDllWr u data) := by
  unfold Statement
  revert data
  cases u <;> decide

theorem uartDlmWr (u : Com) (data : Byte) : Statement (.uartDlmWr u data) := by
  unfold Statement
  revert data
  cases u <;> decide

theorem uartIerWr (u : Com) (data : Byte) : Statement (.uartIerWr u data) := by
  unfold Statement
  revert data
  cases u <;> decide

theorem uartFcrWr (u : Com) : Statement (.uartFcrWr u) := by
  unfold Statement
  cases u <;> decide

theorem uartLcrWr (u : Com) (data : Byte) : Statement (.uartLcrWr u data) := by
  unfold Statement
  revert data
  cases u <;> decide

theorem uartMcrWr (u : Com) : Statement (.uartMcrWr u) := by
  unfold Statement
  cases u <;> decide

theorem uartLsrRd (u : Com) : Statement (.uartLsrRd u) := by
  unfold Statement
  cases u <;> decide

end Sys2Proof.Laws.EncodedInRow
end

