-- ==== Sys2Proof/Laws/Step.lean ====
section
/-! SUPPORT. What one transaction, one event and one step can do, said once: the proofs over all
instructions or all steps are case analyses of these three lemmas. -/

namespace Sys2Proof.Machine

/-! ## A transaction -/

/-- Close a case of `exec_next_cases` for a controller write. -/
theorem picWrite_case {i : Instr} {c : Ctl} {needed : Phase} {device : Pic → Pic} {s r : State}
    (h : picWrite i c needed device s = .next r) :
    ∃ p, finish (some c) (encode i) s (s.setPic c p) = .next r :=
  ⟨_, (picWrite_next_iff.1 h).2⟩

theorem icw2At_case {i : Instr} {c : Ctl} {data : Byte} {s r : State}
    (h : icw2At i c data s = .next r) :
    ∃ p, finish (some c) (encode i) s (s.setPic c p) = .next r := by
  unfold icw2At at h
  split at h
  · exact picWrite_case h
  · cases h

theorem picRead_case {i : Instr} {c : Ctl} {value : Byte} {s r : State}
    (h : picRead i c value s = .next r) :
    ∃ v, finish (some c) ((encode i).withData v) s (s.setReturned v) = .next r :=
  ⟨_, (picRead_next_iff.1 h).2⟩

/-- A transaction that answers a next state is a write that changed one controller, a read of a
controller, a write that changed one UART but for what is on its line, or one of the two reads of a
UART. -/
theorem exec_next_cases {i : Instr} {s r : State} (h : exec i s = .next r) :
    (∃ c p, i.site = .inl c ∧ i.isRead = false ∧
      finish (some c) (encode i) s (s.setPic c p) = .next r) ∨
    (∃ c v, i.site = .inl c ∧ i.isRead = true ∧
      finish (some c) ((encode i).withData v) s (s.setReturned v) = .next r) ∨
    (∃ u d e, i.site = .inr u ∧ i.isRead = false ∧ s.uart u = some d ∧ e.txLine = d.txLine ∧
      finish none (encode i) s (s.setUart u e) = .next r) ∨
    (∃ u d e v, i.site = .inr u ∧ i.isRead = true ∧ s.uart u = some d ∧ e.txLine = d.txLine ∧
      finish none ((encode i).withData v) s ((s.setUart u e).setReturned v) = .next r) ∨
    (∃ u v, i.site = .inr u ∧ i.isRead = true ∧
      finish none ((encode i).withData v) s
        { s.setReturned v with draws := s.draws + 1 } = .next r) := by
  have write : ∀ {c}, i.site = .inl c → i.isRead = false →
      (∃ p, finish (some c) (encode i) s (s.setPic c p) = .next r) →
      ∃ c p, i.site = .inl c ∧ i.isRead = false ∧
        finish (some c) (encode i) s (s.setPic c p) = .next r :=
    fun h1 h2 ⟨p, h⟩ => ⟨_, p, h1, h2, h⟩
  have read : ∀ {c}, i.site = .inl c → i.isRead = true →
      (∃ v, finish (some c) ((encode i).withData v) s (s.setReturned v) = .next r) →
      ∃ c v, i.site = .inl c ∧ i.isRead = true ∧
        finish (some c) ((encode i).withData v) s (s.setReturned v) = .next r :=
    fun h1 h2 ⟨v, h⟩ => ⟨_, v, h1, h2, h⟩
  cases i
  case pic1Icw1 => exact .inl (write rfl rfl ⟨_, h⟩)
  case pic2Icw1 => exact .inl (write rfl rfl ⟨_, h⟩)
  case pic1Icw2 => exact .inl (write rfl rfl (icw2At_case h))
  case pic2Icw2 => exact .inl (write rfl rfl (icw2At_case h))
  case pic1RdImr => exact .inr (.inl (read rfl rfl (picRead_case h)))
  case pic2RdImr => exact .inr (.inl (read rfl rfl (picRead_case h)))
  case pic1RdSel => exact .inr (.inl (read rfl rfl (picRead_case h)))
  case pic2RdSel => exact .inr (.inl (read rfl rfl (picRead_case h)))
  case uartThrWr u b =>
    simp only [exec, execUartThrWr] at h
    split at h
    · rename_i d hd
      split_ifs at h
      exact .inr (.inr (.inl ⟨u, d, { d with txPending := [b] }, rfl, rfl, hd, rfl, h⟩))
    · cases h
  case uartRbrRd u =>
    simp only [exec, execUartRbrRd] at h
    split at h
    · rename_i d hd
      split_ifs at h
      split at h
      · rename_i b rest _
        exact .inr (.inr (.inr (.inl ⟨u, d, { d with rxFifo := rest }, b, rfl, rfl, hd, rfl, h⟩)))
      · cases h
    · cases h
  case uartLsrRd u =>
    simp only [exec, execUartLsrRd] at h
    split at h
    · exact .inr (.inr (.inr (.inr ⟨u, _, rfl, rfl, h⟩)))
    · cases h
  case uartFcrWr u =>
    obtain ⟨d, hd, h⟩ := uartWrite_next_iff.1 h
    exact .inr (.inr (.inl ⟨u, d, d.fcrEffect, rfl, rfl, hd, rfl, h⟩))
  case uartMcrWr u =>
    obtain ⟨d, hd, h⟩ := uartWrite_next_iff.1 h
    exact .inr (.inr (.inl ⟨u, d, { d with mcr := mcrByte }, rfl, rfl, hd, rfl, h⟩))
  case uartLcrWr u b =>
    simp only [exec, execUartLcrWr] at h
    split_ifs at h
    obtain ⟨d, hd, h⟩ := uartWrite_next_iff.1 h
    exact .inr (.inr (.inl ⟨u, d, { d with lcr := b }, rfl, rfl, hd, rfl, h⟩))
  case uartIerWr u b =>
    simp only [exec, execUartIerWr] at h
    split_ifs at h
    obtain ⟨d, hd, -, h⟩ := uartLatchedWrite_next_iff.1 h
    exact .inr (.inr (.inl ⟨u, d, { d with ier := b }, rfl, rfl, hd, rfl, h⟩))
  case uartDllWr u b =>
    obtain ⟨d, hd, -, h⟩ := uartLatchedWrite_next_iff.1 h
    exact .inr (.inr (.inl ⟨u, d, { d with dll := b }, rfl, rfl, hd, rfl, h⟩))
  case uartDlmWr u b =>
    obtain ⟨d, hd, -, h⟩ := uartLatchedWrite_next_iff.1 h
    exact .inr (.inr (.inl ⟨u, d, { d with dlm := b }, rfl, rfl, hd, rfl, h⟩))
  all_goals
    simp only [exec, execPic1Icw3, execPic1Icw4, execPic1Ocw1, execPic1Eoi, execPic1SelIrr,
      execPic1SelIsr, execPic2Icw3, execPic2Icw4, execPic2Ocw1, execPic2Eoi, execPic2SelIrr,
      execPic2SelIsr] at h
    exact .inl (write rfl rfl (picWrite_case h))

/-! ## A step -/

/-- A driver's turn that answers a next state carried out one transaction, which may have been the
last write of `uart.init()`, began a call or found nothing to do, or ended a call. -/
theorem driverTurn_next_cases {s t : State} (h : driverTurn issue s = .next t) :
    (∃ i r stack, exec i s = .next r ∧
      (t = { r with stack := stack } ∨ ∃ u, t = { r.markInited u with stack := stack })) ∨
    (∃ failure stack program,
      t = { s with failure := failure, stack := stack, program := program }) ∨
    (∃ r f below, t = leaveCall r f below s) := by
  have issued : ∀ w k, Answer.andThen (issue w s) k = .next t →
      ∃ i r, exec i s = .next r ∧ t = k r := by
    intro w k h
    obtain ⟨r, h1, h2⟩ := andThen_next_iff.1 h
    unfold issue at h1
    split at h1
    · exact ⟨_, r, h1, h2⟩
    · cases h1
  have issuedAt : ∀ write port data k,
      Answer.andThen (issueAt issue write port data s) k = .next t →
      ∃ i r, exec i s = .next r ∧ t = k r := by
    intro write port data k h
    unfold issueAt at h
    split at h
    · exact issued _ _ h
    · cases h
  unfold driverTurn at h
  split at h
  · cases h
  split at h
  · split at h
    · cases h
      exact .inr (.inl ⟨_, _, _, rfl⟩)
    · unfold enterCall at h
      split at h <;> cases h <;> exact .inr (.inl ⟨_, _, _, rfl⟩)
  · split at h
    · cases h
      exact .inr (.inl ⟨_, _, _, rfl⟩)
    · unfold act at h
      split at h
      · obtain ⟨i, r, h1, h2⟩ := issued _ _ h
        exact .inl ⟨i, r, _, h1, .inl h2⟩
      · obtain ⟨i, r, h1, h2⟩ := issuedAt _ _ _ _ h
        exact .inl ⟨i, r, _, h1, .inl h2⟩
      · obtain ⟨i, r, h1, h2⟩ := issuedAt _ _ _ _ h
        exact .inl ⟨i, r, _, h1, .inr ⟨_, h2⟩⟩
      · obtain ⟨i, r, h1, h2⟩ := issuedAt _ _ _ _ h
        exact .inl ⟨i, r, _, h1, .inl h2⟩
      · obtain ⟨i, r, h1, h2⟩ := issuedAt _ _ _ _ h
        left
        split at h2 <;> exact ⟨i, r, _, h1, .inl h2⟩
      · cases h
        exact .inr (.inr ⟨_, _, _, rfl⟩)

/-- A step that answers a next state took the first turn off the schedule, if there is one, and then
an event occurred, or one transaction was carried out, or a call began or failed or there was nothing
to do, or a call ended. -/
theorem step_next_cases {s t : State} (h : step s = .next t) : ∃ later,
    (∃ e, s.schedule = .event e :: later ∧ t = occur e { s with schedule := later }) ∨
    (∃ i r stack, exec i { s with schedule := later } = .next r ∧
      (t = { r with stack := stack } ∨ ∃ u, t = { r.markInited u with stack := stack })) ∨
    (∃ failure stack program,
      t = { s with
        schedule := later, failure := failure, stack := stack, program := program }) ∨
    (∃ r f below, t = leaveCall r f below { s with schedule := later }) := by
  unfold step turn at h
  split at h
  · rename_i hs
    rw [show s = { s with schedule := [] } by rw [← hs]] at h
    exact ⟨[], .inr (driverTurn_next_cases h)⟩
  · rename_i later hs
    exact ⟨later, .inr (driverTurn_next_cases h)⟩
  · rename_i e later hs
    cases h
    exact ⟨later, .inl ⟨e, hs, rfl⟩⟩
  · unfold handlerTurn enterCall at h
    split at h
    · cases h
    · split at h <;> cases h <;> exact ⟨_, .inr (.inr (.inl ⟨_, _, _, rfl⟩))⟩

/-! ## An event -/

/-- A request line changes request bits of one controller, and never the primary's bit 2. -/
theorem occurIrqEdge_cases (n : Source) (s : State) :
    occurIrqEdge n s = s ∨
      ∃ c irr, (c = .P → irr.getLsbD 2 = (s.pic .P).irr.getLsbD 2) ∧
        occurIrqEdge n s = s.setPic c { s.pic c with irr := irr } := by
  unfold occurIrqEdge
  rcases requestLine_cases (lineCtl (sourceLine n)) (lineInput (sourceLine n)) s with
    ⟨-, h⟩ | ⟨-, h⟩
  · exact .inl h
  · refine .inr ⟨_, _, ?_, h⟩
    cases n <;> simp [lineCtl, lineInput, sourceLine, bit]

/-- An event does nothing, or clears `int_dropped` and besides that: nothing; request bits of one
controller; request and in-service bits of both and one vector; or the queues of one UART, whose
line grows by at most one byte. -/
theorem occur_cases (e : Event) (s : State) :
    occur e s = s ∨
    occur e s = { s with intDropped := none } ∨
    (∃ c irr, (c = .P → irr.getLsbD 2 = (s.pic .P).irr.getLsbD 2) ∧
      occur e s = { s.setPic c { s.pic c with irr := irr } with intDropped := none }) ∨
    (∃ irr1 isr1 irr2 isr2 v, (irr1.getLsbD 2 = true → s.pic1.irr.getLsbD 2 = true) ∧
      occur e s = { s with
        pic1 := { s.pic1 with irr := irr1, isr := isr1 }
        pic2 := { s.pic2 with irr := irr2, isr := isr2 }
        vectors := s.vectors ++ [v]
        intDropped := none }) ∨
    (∃ u d rx tx line, s.uart u = some d ∧ (d.rxFifo.length ≤ 16 → rx.length ≤ 16) ∧
      (d.txPending.length ≤ 1 → tx.length ≤ 1) ∧
      (line = d.txLine ∨ ∃ b, line = d.txLine ++ [b]) ∧
      occur e s = { s.setUart u { d with rxFifo := rx, txPending := tx, txLine := line } with
        intDropped := none }) := by
  have edge : ∀ n, Event.effect e s = some (occurIrqEdge n s) →
      occur e s = { s with intDropped := none } ∨
      ∃ c irr, (c = .P → irr.getLsbD 2 = (s.pic .P).irr.getLsbD 2) ∧
        occur e s = { s.setPic c { s.pic c with irr := irr } with intDropped := none } := by
    intro n h
    unfold occur
    rw [h]
    rcases occurIrqEdge_cases n s with h | ⟨c, irr, h2, h⟩
    · exact .inl (by simp only [h])
    · exact .inr ⟨c, irr, h2, by simp only [h]⟩
  have idle : Event.effect e s = none → occur e s = s := by
    intro h
    unfold occur
    rw [h]
  cases e with
  | irqEdge n =>
    rcases edge n rfl with h | h
    · exact .inr (.inl h)
    · exact .inr (.inr (.inl h))
  | ack =>
    by_cases ho : s.intOut .P = true
    · right; right; right; left
      simp only [occur, Event.effect, occurAck, ho, if_true]
      rcases acknowledge_cases s with ⟨-, h⟩ | ⟨-, h⟩
      · rw [h]
        exact ⟨s.pic1.irr, s.pic1.isr ||| cascadeBit, (s.pic2.take (lsb (s.req .S))).irr,
          (s.pic2.take (lsb (s.req .S))).isr, _, id, rfl⟩
      · rw [h]
        refine ⟨(s.pic1.take (lsb (s.req .P))).irr, (s.pic1.take (lsb (s.req .P))).isr, s.pic2.irr,
          s.pic2.isr, _, ?_, rfl⟩
        simp [Pic.take]
        tauto
    · exact .inl (idle (by simp [Event.effect, occurAck, ho]))
  | spurious c =>
    cases c with
    | P =>
      by_cases hc : (s.params.spuriousModelled && s.intDropped.isSome) = true
      · right; right; right; left
        simp only [occur, Event.effect, occurSpurious, hc, if_true]
        exact ⟨s.pic1.irr, s.pic1.isr, s.pic2.irr, s.pic2.isr, _, id, rfl⟩
      · exact .inl (idle (by simp only [Event.effect, occurSpurious]; rw [if_neg hc]))
    | S =>
      by_cases hc : (s.params.spuriousModelled && s.intDropped == some .S
          && !s.pic1.imr.getLsbD 2) = true
      · right; right; right; left
        simp only [occur, Event.effect, occurSpurious, hc, if_true]
        exact ⟨s.pic1.irr, s.pic1.isr ||| cascadeBit, s.pic2.irr, s.pic2.isr, _, id, rfl⟩
      · exact .inl (idle (by simp only [Event.effect, occurSpurious]; rw [if_neg hc]))
  | txShift u =>
    cases hu : s.uart u with
    | none => exact .inl (idle (by simp [Event.effect, occurTxShift, hu]))
    | some d =>
      cases hp : d.txPending with
      | nil => exact .inl (idle (by simp [Event.effect, occurTxShift, hu, hp]))
      | cons b rest =>
        right; right; right; right
        refine ⟨u, d, d.rxFifo, rest, d.txLine ++ [b], hu, id, ?_, .inr ⟨b, rfl⟩, ?_⟩
        · rw [hp]
          simp only [List.length_cons]
          omega
        · simp only [occur, Event.effect, occurTxShift, hu, hp]
  | rxArrive u b =>
    cases hu : s.uart u with
    | none => exact .inl (idle (by simp [Event.effect, occurRxArrive, hu]))
    | some d =>
      by_cases hl : d.rxFifo.length < rxCapacity
      · right; right; right; right
        refine ⟨u, d, d.rxFifo ++ [b], d.txPending, d.txLine, hu, fun _ => ?_, id, .inl rfl, ?_⟩
        · rw [List.length_append]
          exact hl
        · simp only [occur, Event.effect, occurRxArrive, hu, if_pos hl]
      · exact .inr (.inl (by simp only [occur, Event.effect, occurRxArrive, hu, if_neg hl]))
  | uartIrq u =>
    cases hu : s.uart u with
    | none => exact .inl (idle (by simp [Event.effect, occurUartIrq, hu]))
    | some d =>
      cases hl : s.params.uartIrqLine with
      | none => exact .inl (idle (by simp [Event.effect, occurUartIrq, hu, hl]))
      | some n =>
        by_cases hr : d.req = true
        · rcases edge n (by simp only [Event.effect, occurUartIrq, hu, hl, hr, if_true]) with h | h
          · exact .inr (.inl h)
          · exact .inr (.inr (.inl h))
        · exact .inl (idle (by simp [Event.effect, occurUartIrq, hu, hl, hr]))

end Sys2Proof.Machine
end

