-- ==== Sys2Proof/Laws/Run.lean ====
section
/-! SUPPORT. Runs of one driver call with no other agent moving: where the call stands after each
step, and what one action of it does. -/

namespace Sys2Proof.Machine

/-! ## What a word at a port is -/

theorem selectors_phase (s : State) (w : TxnWord) (c : Ctl) :
    (s.selectors w).phase c = (s.pic c).phase := by
  cases c <;> rfl

theorem selectors_dlab {s : State} {u : Com} {d : Uart} (w : BitVec 12) (h : s.uart u = some d) :
    (s.selectors (.uart12 u w)).dlab = d.dlab := by
  simp [State.selectors, h]

theorem issue_of_decode {s : State} {w : TxnWord} {i : Instr}
    (h : decode (s.selectors w) w = .ok i) : issue w s = exec i s := by
  simp [issue, fetchDecode, h]

theorem issueAt_cmd (c : Ctl) (write : Bool) (v : Byte) (s : State) {i : Instr}
    (h : decodeCmd c write v = .ok i) : issueAt issue write c.cmdPort v s = exec i s := by
  simp only [issueAt, wordAt_cmd]
  exact issue_of_decode (by rw [decode_cmd, h])

theorem issueAt_data (c : Ctl) (write : Bool) (v : Byte) (s : State) {i : Instr}
    (h : decodeData c (s.pic c).phase write v = .ok i) :
    issueAt issue write c.dataPort v s = exec i s := by
  simp only [issueAt, wordAt_data]
  exact issue_of_decode (by rw [decode_data, selectors_phase, h])

theorem issueAt_uart_write {s : State} {u : Com} {d : Uart} {off : Nat} {v : Byte} {i : Instr}
    (hu : s.uart u = some d) (ho : off ≤ 5)
    (h : decodeUartWrite d.dlab u (BitVec.ofNat 3 off) v = .ok i) :
    issueAt issue true (u.port off) v s = exec i s := by
  simp only [issueAt, wordAt_uart (fun u => (s.uart u).isSome) u off true v (by simp [hu]) ho]
  exact issue_of_decode (by rw [decode_uart_write, selectors_dlab _ hu, h])

theorem issueAt_uart_read {s : State} {u : Com} {d : Uart} {off : Nat} {v : Byte} {i : Instr}
    (hu : s.uart u = some d) (ho : off ≤ 5)
    (h : decodeUartRead d.dlab u (BitVec.ofNat 3 off) = .ok i) :
    issueAt issue false (u.port off) v s = exec i s := by
  simp only [issueAt, wordAt_uart (fun u => (s.uart u).isSome) u off false v (by simp [hu]) ho]
  exact issue_of_decode (by rw [decode_uart_read, selectors_dlab _ hu, h])

/-! ## A call in progress -/

/-- In the state `t`, the call begun in the quiet state `s` has issued `words`, has brought the
devices to `p1`, `p2` and `us`, has `todo` left to do, and holds the bytes `x` and `y`. -/
structure InCall (s : State) (rest : List Call) (p1 p2 : Pic) (us : Uarts) (words : List TxnWord)
    (todo : List Action) (x y : Byte) (t : State) : Prop where
  pic1 : t.pic1 = p1
  pic2 : t.pic2 = p2
  uarts : t.uarts = us
  params : t.params = s.params
  trace : t.trace = s.trace ++ words
  results : t.results = s.results
  program : t.program = rest
  vectors : t.vectors = s.vectors
  schedule : t.schedule = []
  failure : t.failure = none
  stack : t.stack = [{ todo := todo, x := x, y := y }]

/-- A quiet state with a call to begin begins it. -/
theorem step_begins_call {s : State} {call : Call} {rest : List Call} (hq : s.Quiet)
    (hp : s.program = call :: rest) :
    step s = enterCall call { s with program := rest } := by
  rw [step, turn_of_empty_schedule hq.schedule, driverTurn_call hq.failure hq.stack hp]

theorem InCall.begin_call {s : State} {call : Call} {rest : List Call} {actions : List Action}
    (hq : s.Quiet) (hp : s.program = call :: rest)
    (hc : call.start { s with program := rest } = .run actions) :
    ∃ t, step s = .next t ∧
      InCall s rest s.pic1 s.pic2 s.uarts [] actions 0x00#8 0x00#8 t := by
  refine ⟨_, by rw [step_begins_call hq hp, enterCall, hc], ?_⟩
  exact ⟨rfl, rfl, rfl, rfl, by simp, rfl, rfl, rfl, hq.schedule, hq.failure, by simp [hq.stack]⟩

section
variable {s t : State} {rest : List Call} {p1 p2 : Pic} {us : Uarts} {words : List TxnWord}
  {a : Action} {todo : List Action} {x y : Byte}

theorem InCall.step_acts (h : InCall s rest p1 p2 us words (a :: todo) x y t) :
    step t = act issue a { todo := a :: todo, x := x, y := y } todo [] t := by
  rw [step, turn_of_empty_schedule h.schedule, driverTurn_act h.failure h.stack rfl]

/-- After a transaction the call has issued one word more. -/
theorem InCall.after_transaction {p1' p2' : Pic} {us' : Uarts} {todo' : List Action}
    {at? : Option Ctl} {w : TxnWord} {dev r : State} {f : Frame}
    (h : InCall s rest p1 p2 us words (a :: todo) x y t) (hf : finish at? w t dev = .next r)
    (hpic1 : dev.pic1 = p1') (hpic2 : dev.pic2 = p2') (huarts : dev.uarts = us')
    (hparams : dev.params = t.params) (hresults : dev.results = t.results)
    (hprogram : dev.program = t.program) (hvectors : dev.vectors = t.vectors)
    (hschedule : dev.schedule = t.schedule) (hfailure : dev.failure = t.failure) :
    InCall s rest p1' p2' us' (words ++ [w]) todo' f.x f.y (r.goOn f todo' []) := by
  obtain rfl := finish_next_iff.1 hf
  refine ⟨hpic1, hpic2, huarts, hparams.trans h.params, ?_, hresults.trans h.results,
    hprogram.trans h.program, hvectors.trans h.vectors, hschedule.trans h.schedule,
    hfailure.trans h.failure, rfl⟩
  simp [h.trace]

/-- A write at a controller. -/
theorem InCall.writes_pic {port : Port} {e : ByteExpr} {c : Ctl} {w : TxnWord} {p : Pic}
    (h : InCall s rest p1 p2 us words (.output port e :: todo) x y t)
    (hx : issueAt issue true port (e.eval { todo := .output port e :: todo, x := x, y := y }) t =
      finish (some c) w t (t.setPic c p)) :
    ∃ t', step t = .next t' ∧
      InCall s rest (t.setPic c p).pic1 (t.setPic c p).pic2 us (words ++ [w]) todo x y t' := by
  refine ⟨_, by rw [h.step_acts, act, hx]; rfl, ?_⟩
  exact h.after_transaction (f := { todo := .output port e :: todo, x := x, y := y }) rfl rfl rfl
    (by simp [h.uarts]) (by simp) (by simp) (by simp) (by simp) (by simp) (by simp)

/-- A write at a UART. -/
theorem InCall.writes_uart {port : Port} {e : ByteExpr} {u : Com} {d : Uart} {w : TxnWord}
    (h : InCall s rest p1 p2 us words (.output port e :: todo) x y t)
    (hx : issueAt issue true port (e.eval { todo := .output port e :: todo, x := x, y := y }) t =
      finish none w t (t.setUart u d)) :
    ∃ t', step t = .next t' ∧ InCall s rest p1 p2 (us.set u d) (words ++ [w]) todo x y t' := by
  refine ⟨_, by rw [h.step_acts, act, hx]; rfl, ?_⟩
  exact h.after_transaction (f := { todo := .output port e :: todo, x := x, y := y }) rfl h.pic1
    h.pic2 (by simp [h.uarts]) rfl rfl rfl rfl rfl rfl

/-- Marking an instance initialised leaves a call where it stands. -/
theorem InCall.marks_inited {u : Com} {d : Uart} {todo' : List Action}
    (h : InCall s rest p1 p2 (us.set u d) words todo' x y t) :
    InCall s rest p1 p2 (us.set u { d with inited := true }) words todo' x y (t.markInited u) := by
  have hu : t.uart u = some d := by simp [State.uart, h.uarts]
  exact ⟨by simp [h.pic1], by simp [h.pic2], by simp [markInited_of_present hu, h.uarts],
    by simp [h.params], by simp [h.trace], by simp [h.results], by simp [h.program],
    by simp [h.vectors], by simp [h.schedule], by simp [h.failure], by simp [h.stack]⟩

/-- The last write of `uart.init()`. -/
theorem InCall.writes_uart_last {port : Port} {e : ByteExpr} {u : Com} {d : Uart} {w : TxnWord}
    (h : InCall s rest p1 p2 us words (.outputLast u port e :: todo) x y t)
    (hx : issueAt issue true port (e.eval { todo := .outputLast u port e :: todo, x := x, y := y })
      t = finish none w t (t.setUart u d)) :
    ∃ t', step t = .next t' ∧
      InCall s rest p1 p2 (us.set u { d with inited := true }) (words ++ [w]) todo x y t' := by
  refine ⟨_, by rw [h.step_acts, act, hx]; rfl, ?_⟩
  simp only [← goOn_markInited]
  exact InCall.marks_inited (u := u) (d := d)
    (h.after_transaction (f := { todo := .outputLast u port e :: todo, x := x, y := y }) rfl
      h.pic1 h.pic2 (by simp [h.uarts]) rfl rfl rfl rfl rfl rfl)

/-- A read at a controller. -/
theorem InCall.reads_pic {port : Port} {c : Ctl} {w : TxnWord} {v : Byte}
    (h : InCall s rest p1 p2 us words (.input port .x :: todo) x y t)
    (hx : issueAt issue false port 0x00#8 t = finish (some c) w t (t.setReturned v)) :
    ∃ t', step t = .next t' ∧ InCall s rest p1 p2 us (words ++ [w]) todo v y t' := by
  refine ⟨_, by rw [h.step_acts, act, hx]; rfl, ?_⟩
  exact h.after_transaction (f := { todo := .input port .x :: todo, x := v, y := y }) rfl h.pic1
    h.pic2 h.uarts rfl rfl rfl rfl rfl rfl

/-- A read at a controller into the second byte. -/
theorem InCall.reads_pic_second {port : Port} {c : Ctl} {w : TxnWord} {v : Byte}
    (h : InCall s rest p1 p2 us words (.input port .y :: todo) x y t)
    (hx : issueAt issue false port 0x00#8 t = finish (some c) w t (t.setReturned v)) :
    ∃ t', step t = .next t' ∧ InCall s rest p1 p2 us (words ++ [w]) todo x v t' := by
  refine ⟨_, by rw [h.step_acts, act, hx]; rfl, ?_⟩
  exact h.after_transaction (f := { todo := .input port .y :: todo, x := x, y := v }) rfl h.pic1
    h.pic2 h.uarts rfl rfl rfl rfl rfl rfl

/-- The end of a call. -/
theorem InCall.ends {r : Ret} {result : Result}
    (h : InCall s rest p1 p2 us words [.ret r] x y t)
    (hr : r.result { todo := [.ret r], x := x, y := y } = result) :
    ∃ t', step t = .next t' ∧ t'.pic1 = p1 ∧ t'.pic2 = p2 ∧ t'.uarts = us ∧
      t'.params = s.params ∧ t'.trace = s.trace ++ words ∧ t'.results = s.results ++ [result] ∧
      t'.program = rest ∧ t'.vectors = s.vectors ∧ t'.Quiet := by
  refine ⟨{ t with stack := [], results := t.results ++ [result] },
    by rw [h.step_acts, act, leaveCall, hr], h.pic1, h.pic2, h.uarts, h.params, h.trace, ?_, h.program,
    h.vectors, h.schedule, h.failure, rfl⟩
  simp [h.results]

end

end Sys2Proof.Machine
end

