-- ==== Sys2Proof/Tests/Slice0.lean ====
section
/-! SUPPORT. The model's own tests: ill-formed terms, decoding of words written from the opcode table,
one step of each transaction and event, and for each obligation with hypotheses a witness that meets
them. Expected values are those of spec/95_test_vectors.md, whose row names the comments give. -/

namespace Sys2Proof.Tests

open Sys2Proof Sys2Proof.Machine Sys2Proof.Claims

/-! ## Small states -/

/-- Power-on with example values of the open parameters: divisor 3, UARTs on line 4. -/
def demo : State := { State.reset with params := ⟨0x0003#16, some .irq4, true⟩ }

/-- A ready controller. -/
def readyPic (c : Ctl) (imr irr isr : Byte) : Pic where
  imr := imr
  irr := irr
  isr := isr
  vbase := atCtl c 0x20#8 0x28#8
  phase := .ready
  icw1 := 0x11#8
  icw3 := c.icw3Byte
  icw4 := 0x01#8
  readSel := .selIrr

/-- After `init(32)`, with these masks. -/
def masked (p q : Byte) : State :=
  { demo with pic1 := readyPic .P p 0x00#8 0x00#8, pic2 := readyPic .S q 0x00#8 0x00#8 }

/-- A UART after `uart.init()`, with these queues. -/
def serial (rx tx : List Byte) : Uart where
  lcr := 0x03#8
  ier := 0x01#8
  fifoEn := true
  rxTrigger := 14
  mcr := 0x0B#8
  dll := 0x03#8
  dlm := 0x00#8
  rxFifo := rx
  txPending := tx
  txLine := [0x40#8]
  inited := true

/-- The UART with the divisor-latch bit set. -/
def latched : Uart := { serial [] [] with lcr := 0x80#8 }

/-- COM1 is this UART. -/
def withCom1 (d : Uart) : State := demo.setUart .com1 d

/-- COM1 is absent. -/
def noCom1 : State := { demo with uarts := { demo.uarts with com1 := none } }

/-- The driver is about to begin these calls. -/
def calling (s : State) (cs : List Call) : State := { s with program := cs }

/-- The driver is about to do these things in a call. -/
def doing (s : State) (todo : List Machine.Action) : State :=
  { s with stack := [{ todo := todo, x := 0x00#8, y := 0x00#8 }] }

/-- The event comes next. -/
def occurring (s : State) (e : Event) : State := { s with schedule := [.event e] }

/-- The answer is a next state with this property. -/
def goesTo (a : Answer) (p : State → Bool) : Bool :=
  match a with
  | .next t => p t
  | .fault _ => false
  | .refused _ => false

/-- The answer is this refusal. -/
def refuses (a : Answer) (r : Refusal) : Bool :=
  match a with
  | .next _ => false
  | .fault _ => false
  | .refused q => q == r

/-- The decoder reads this instruction. -/
def reads (sel : Selectors) (w : TxnWord) (i : Instr) : Bool :=
  match decode sel w with
  | .ok j => j == i
  | .error _ => false

/-- The decoder rejects the word under this name. -/
def rejects (sel : Selectors) (w : TxnWord) (r : Reject) : Bool :=
  match decode sel w with
  | .ok _ => false
  | .error q => q == r

/-- Both controllers in one phase, with the divisor-latch bit. -/
def under (p : Phase) (dlab : Bool) : Selectors := ⟨p, p, dlab⟩

/-! ## Ill-formed terms are refused -/

theorem test_icw2_low_bits_ill_formed :
    (Instr.pic1Icw2 0x21#8).wellFormed = false ∧ (Instr.pic2Icw2 0x2C#8).wellFormed = false := by
  decide

theorem test_ier_value_ill_formed : (Instr.uartIerWr .com1 0x02#8).wellFormed = false := by decide

theorem test_lcr_value_ill_formed :
    (Instr.uartLcrWr .com1 0x83#8).wellFormed = false ∧
      (Instr.uartLcrWr .com1 0x00#8).wellFormed = false := by
  decide

theorem test_ill_formed_terms_are_refused :
    refuses (exec (.pic1Icw2 0x21#8) demo) (.operandNotAdmitted 0x21#8) = true ∧
      refuses (exec (.uartIerWr .com1 0x02#8) demo) (.operandNotAdmitted 0x02#8) = true ∧
      refuses (exec (.uartLcrWr .com1 0x83#8) demo) (.operandNotAdmitted 0x83#8) = true := by
  decide

/-! ## Decoding: every constructor from a word written bit by bit (30_encoding.md rules R61 to R72) -/

/-- 1 0000000000100000 00010001 and its like: direction, port 0x0020 or 0x00A0, byte. -/
theorem test_decode_command_port_writes :
    reads (under .uninit false) (.pic25 0b1000000000010000000010001#25) .pic1Icw1 = true ∧
    reads (under .ready false) (.pic25 0b1000000001010000000010001#25) .pic2Icw1 = true ∧
    reads (under .ready false) (.pic25 0b1000000000010000000100000#25) .pic1Eoi = true ∧
    reads (under .ready false) (.pic25 0b1000000001010000000100000#25) .pic2Eoi = true ∧
    reads (under .ready false) (.pic25 0b1000000000010000000001010#25) .pic1SelIrr = true ∧
    reads (under .ready false) (.pic25 0b1000000001010000000001010#25) .pic2SelIrr = true ∧
    reads (under .ready false) (.pic25 0b1000000000010000000001011#25) .pic1SelIsr = true ∧
    reads (under .ready false) (.pic25 0b1000000001010000000001011#25) .pic2SelIsr = true := by
  decide

/-- PC5, PC9, PC11, PC13, PC18: one data-port write under each phase. -/
theorem test_decode_data_port_writes :
    reads (under .waitIcw2 false) (.pic25 0b1000000000010000100100000#25) (.pic1Icw2 0x20#8) = true ∧
    reads (under .waitIcw2 false) (.pic25 0b1000000001010000100101000#25) (.pic2Icw2 0x28#8) = true ∧
    reads (under .waitIcw3 false) (.pic25 0b1000000000010000100000100#25) .pic1Icw3 = true ∧
    reads (under .waitIcw3 false) (.pic25 0b1000000001010000100000010#25) .pic2Icw3 = true ∧
    reads (under .waitIcw4 false) (.pic25 0b1000000000010000100000001#25) .pic1Icw4 = true ∧
    reads (under .waitIcw4 false) (.pic25 0b1000000001010000100000001#25) .pic2Icw4 = true ∧
    reads (under .ready false) (.pic25 0b1000000000010000111111011#25) (.pic1Ocw1 0xFB#8) = true ∧
    reads (under .ready false) (.pic25 0b1000000001010000111111011#25) (.pic2Ocw1 0xFB#8) = true := by
  decide

/-- PC19 and PC24: the byte returned takes no part. -/
theorem test_decode_controller_reads :
    reads (under .ready false) (.pic25 0b0000000000010000110100101#25) .pic1RdImr = true ∧
    reads (under .ready false) (.pic25 0b0000000001010000110100101#25) .pic2RdImr = true ∧
    reads (under .ready false) (.pic25 0b0000000000010000000000100#25) .pic1RdSel = true ∧
    reads (under .ready false) (.pic25 0b0000000001010000000000100#25) .pic2RdSel = true := by
  decide

/-- UR1, UR2, UR7, UR8, UR11, UR13, UR16: direction, offset, byte. -/
theorem test_decode_uart_writes :
    reads (under .ready false) (.uart12 .com1 0b100001000001#12) (.uartThrWr .com1 0x41#8) = true ∧
    reads (under .ready true) (.uart12 .com1 0b100001000001#12) (.uartDllWr .com1 0x41#8) = true ∧
    reads (under .ready true) (.uart12 .com2 0b100100000000#12) (.uartDlmWr .com2 0x00#8) = true ∧
    reads (under .ready false) (.uart12 .com2 0b100100000001#12) (.uartIerWr .com2 0x01#8) = true ∧
    reads (under .ready false) (.uart12 .com3 0b101011000111#12) (.uartFcrWr .com3) = true ∧
    reads (under .ready false) (.uart12 .com4 0b101110000000#12) (.uartLcrWr .com4 0x80#8) = true ∧
    reads (under .ready true) (.uart12 .com5 0b101100000011#12) (.uartLcrWr .com5 0x03#8) = true ∧
    reads (under .ready false) (.uart12 .com6 0b110000001011#12) (.uartMcrWr .com6) = true := by
  decide

/-- UR4 and UR18. -/
theorem test_decode_uart_reads :
    reads (under .ready false) (.uart12 .com7 0b000001101000#12) (.uartRbrRd .com7) = true ∧
    reads (under .ready true) (.uart12 .com8 0b010101100000#12) (.uartLsrRd .com8) = true := by
  decide

/-- PC2, PC6, PC10, PC12, PC14, PC28, PC29, PC30 and a port of no device. -/
theorem test_decode_refuses_controller_words :
    rejects (under .uninit false) (.pic25 0x10021FF#25) (.dataWriteBeforeInit .P) = true ∧
    rejects (under .waitIcw2 false) (.pic25 0x1002121#25) (.icw2LowBits .P 0x21#8) = true ∧
    rejects (under .waitIcw3 false) (.pic25 0x1002102#25) (.icw3Wiring .P 0x02#8) = true ∧
    rejects (under .waitIcw3 false) (.pic25 0x100A104#25) (.icw3Wiring .S 0x04#8) = true ∧
    rejects (under .waitIcw4 false) (.pic25 0x1002103#25) (.icw4Mode .P 0x03#8) = true ∧
    rejects (under .ready false) (.pic25 0x1002060#25) (.ocw2NotAdmitted .P 0x60#8) = true ∧
    rejects (under .ready false) (.pic25 0x100200C#25) (.ocw3NotAdmitted .P 0x0C#8) = true ∧
    rejects (under .ready false) (.pic25 0x1002013#25) (.icw1Options .P 0x13#8) = true ∧
    rejects (under .ready false) (.pic25 0x1008000#25) (.notAControllerPort 0x0080#16) = true := by
  decide

/-- UR6, UR9, UR12, UR15, UR17, UR22. -/
theorem test_decode_refuses_uart_words :
    rejects (under .ready true) (.uart12 .com1 0x068#12) (.divisorRead .com1) = true ∧
    rejects (under .ready false) (.uart12 .com1 0x902#12) (.ierValue .com1 0x02#8) = true ∧
    rejects (under .ready false) (.uart12 .com1 0xA07#12) (.fcrValue .com1 0x07#8) = true ∧
    rejects (under .ready false) (.uart12 .com1 0xB83#12) (.lcrValue .com1 0x83#8) = true ∧
    rejects (under .ready false) (.uart12 .com1 0xC08#12) (.mcrValue .com1 0x08#8) = true ∧
    rejects (under .ready false) (.uart12 .com1 0x100#12) (.uartOffset .com1 false 1#3) = true ∧
    rejects (under .ready false) (.uart12 .com1 0xD00#12) (.uartOffset .com1 true 5#3) = true ∧
    rejects (under .ready false) (.uart12 .com1 0xF00#12) (.uartOffset .com1 true 7#3) = true := by
  decide

/-- A row's word placed and run as the first step after reset. -/
theorem test_placed_word_runs_first :
    goesTo (step (State.reset.withFetchWord 32 0x1002120))
      (fun t => t.pic1.vbase == 0x20#8 && t.pic1.phase == .waitIcw3) = true ∧
    goesTo (step (State.reset.withFetchWord 16 0x068))
      (fun t => t.returned == 0x68#8) = true := by
  decide

/-! ## One step of each controller transaction -/

/-- PC17. -/
theorem test_icw1_restarts :
    goesTo (exec .pic1Icw1 { demo with pic1 := readyPic .P 0xFB#8 0x08#8 0x02#8 }) (fun t =>
      t.pic1 == { readyPic .P 0x00#8 0x00#8 0x00#8 with phase := .waitIcw2 } &&
        t.trace == [.pic25 0x1002011#25]) = true ∧
    goesTo (exec .pic2Icw1 { demo with pic2 := { readyPic .S 0xFB#8 0x08#8 0x02#8 with
        readSel := .selIsr } }) (fun t =>
      t.pic2 == { readyPic .S 0x00#8 0x00#8 0x00#8 with phase := .waitIcw2 } &&
        t.trace == [.pic25 0x100A011#25]) = true := by
  decide

/-- PC7 and PC8. -/
theorem test_icw2_sets_base :
    goesTo (exec (.pic1Icw2 0x00#8) { demo with pic1 := { readyPic .P 0#8 0#8 0#8 with
        phase := .waitIcw2 } }) (fun t => t.pic1.vbase == 0x00#8 && t.pic1.phase == .waitIcw3) = true ∧
    goesTo (exec (.pic2Icw2 0xF8#8) { demo with pic2 := { readyPic .S 0#8 0#8 0#8 with
        phase := .waitIcw2 } }) (fun t => t.pic2.vbase == 0xF8#8 && t.pic2.phase == .waitIcw3) = true := by
  decide

/-- PC9, PC11, PC13. -/
theorem test_icw3_icw4 :
    goesTo (exec .pic1Icw3 { demo with pic1 := { Pic.powerOn with phase := .waitIcw3 } }) (fun t =>
      t.pic1.icw3 == 0x04#8 && t.pic1.phase == .waitIcw4) = true ∧
    goesTo (exec .pic2Icw3 { demo with pic2 := { Pic.powerOn with phase := .waitIcw3 } }) (fun t =>
      t.pic2.icw3 == 0x02#8 && t.pic2.phase == .waitIcw4) = true ∧
    goesTo (exec .pic1Icw4 { demo with pic1 := { Pic.powerOn with phase := .waitIcw4 } }) (fun t =>
      t.pic1.icw4 == 0x01#8 && t.pic1.phase == .ready) = true ∧
    goesTo (exec .pic2Icw4 { demo with pic2 := { Pic.powerOn with phase := .waitIcw4 } }) (fun t =>
      t.pic2.icw4 == 0x01#8 && t.pic2.phase == .ready) = true := by
  decide

/-- PC18, PC31. -/
theorem test_mask_write :
    goesTo (exec (.pic1Ocw1 0xFF#8) (masked 0xFB#8 0x12#8)) (fun t =>
      t.pic1.imr == 0xFF#8 && t.pic2.imr == 0x12#8) = true ∧
    goesTo (exec (.pic2Ocw1 0xFB#8) (masked 0xFB#8 0x12#8)) (fun t =>
      t.pic2 == readyPic .S 0xFB#8 0x00#8 0x00#8) = true := by
  decide

/-- PC19. -/
theorem test_mask_read :
    goesTo (exec .pic1RdImr (masked 0xA5#8 0xFF#8)) (fun t =>
      t.returned == 0xA5#8 && t.trace == [.pic25 0x00021A5#25]) = true ∧
    goesTo (exec .pic2RdImr (masked 0xFF#8 0xA5#8)) (fun t =>
      t.returned == 0xA5#8 && t.trace == [.pic25 0x000A1A5#25]) = true := by
  decide

/-- PC20 and PC23. -/
theorem test_eoi_clears_lowest :
    goesTo (exec .pic1Eoi { demo with pic1 := readyPic .P 0#8 0#8 0x12#8 }) (fun t =>
      t.pic1.isr == 0x10#8) = true ∧
    goesTo (exec .pic2Eoi { demo with pic2 := readyPic .S 0#8 0#8 0xFF#8 }) (fun t =>
      t.pic2.isr == 0xFE#8) = true := by
  decide

/-- PC21 and PC22. -/
theorem test_eoi_corners :
    goesTo (exec .pic1Eoi { demo with pic1 := readyPic .P 0#8 0#8 0x00#8 }) (fun t =>
      t.pic1.isr == 0x00#8) = true ∧
    goesTo (exec .pic2Eoi { demo with pic2 := readyPic .S 0#8 0#8 0x80#8 }) (fun t =>
      t.pic2.isr == 0x00#8) = true := by
  decide

/-- R97 and R98, worked examples. -/
theorem test_read_selects :
    goesTo (exec .pic1SelIsr (masked 0#8 0#8)) (fun t => t.pic1.readSel == .selIsr) = true ∧
    goesTo (exec .pic2SelIsr (masked 0#8 0#8)) (fun t => t.pic2.readSel == .selIsr) = true ∧
    goesTo (exec .pic1SelIrr { demo with pic1 := { readyPic .P 0#8 0#8 0#8 with
      readSel := .selIsr } }) (fun t => t.pic1.readSel == .selIrr) = true ∧
    goesTo (exec .pic2SelIrr { demo with pic2 := { readyPic .S 0#8 0#8 0#8 with
      readSel := .selIsr } }) (fun t => t.pic2.readSel == .selIrr) = true := by
  decide

/-- PC26 and PC27: bit 2 shows the secondary's output. -/
theorem test_selected_read_cascade :
    goesTo (exec .pic1RdSel { demo with
      pic1 := readyPic .P 0xFF#8 0x02#8 0#8
      pic2 := readyPic .S 0xEF#8 0x10#8 0#8 }) (fun t => t.trace == [.pic25 0x0002006#25]) = true ∧
    goesTo (exec .pic1RdSel { demo with
      pic1 := readyPic .P 0xFF#8 0x02#8 0#8
      pic2 := readyPic .S 0xFF#8 0x10#8 0#8 }) (fun t => t.trace == [.pic25 0x0002002#25]) = true := by
  decide

/-- R99, worked example. -/
theorem test_selected_read_in_service :
    goesTo (exec .pic2RdSel { demo with pic2 := { readyPic .S 0#8 0#8 0x04#8 with
      readSel := .selIsr } }) (fun t =>
      t.returned == 0x04#8 && t.trace == [.pic25 0x000A004#25]) = true := by
  decide

/-- PC3, PC4, PC15. -/
theorem test_out_of_phase_is_refused :
    refuses (exec .pic1RdImr demo) (.wrongPhase .P .ready) = true ∧
    refuses (exec .pic1Eoi demo) (.wrongPhase .P .ready) = true ∧
    refuses (exec .pic2Eoi { demo with pic2 := { Pic.powerOn with phase := .waitIcw3 } })
      (.wrongPhase .S .ready) = true := by
  decide

/-! ## One step of each UART transaction -/

/-- UR1 and UR3. -/
theorem test_transmit_write :
    goesTo (exec (.uartThrWr .com1 0x41#8) (withCom1 (serial [] []))) (fun t =>
      t.uart .com1 == some (serial [] [0x41#8])) = true ∧
    refuses (exec (.uartThrWr .com1 0x41#8) (withCom1 (serial [] [0x40#8])))
      (.transmitterBusy .com1) = true := by
  decide

/-- UR4 and UR5. -/
theorem test_receive_read :
    goesTo (exec (.uartRbrRd .com1) (withCom1 (serial [0x68#8, 0x69#8] []))) (fun t =>
      t.returned == 0x68#8 && t.uart .com1 == some (serial [0x69#8] []) &&
        t.trace == [.uart12 .com1 0x068#12]) = true ∧
    refuses (exec (.uartRbrRd .com1) (withCom1 (serial [] []))) (.receiverEmpty .com1) = true := by
  decide

/-- UR2, UR8, UR10. -/
theorem test_divisor_writes :
    goesTo (exec (.uartDllWr .com1 0x41#8) (withCom1 latched)) (fun t =>
      t.uart .com1 == some { latched with dll := 0x41#8 }) = true ∧
    goesTo (exec (.uartDlmWr .com1 0x02#8) (withCom1 latched)) (fun t =>
      t.uart .com1 == some { latched with dlm := 0x02#8 }) = true := by
  decide

/-- UR7 and UR13. -/
theorem test_enable_and_line_control_writes :
    goesTo (exec (.uartIerWr .com1 0x00#8) (withCom1 (serial [] []))) (fun t =>
      t.uart .com1 == some { serial [] [] with ier := 0x00#8 }) = true ∧
    goesTo (exec (.uartLcrWr .com1 0x80#8) (withCom1 (serial [] []))) (fun t =>
      t.uart .com1 == some latched) = true := by
  decide

/-- UR11: the line keeps 0x40, and 0x41 is never sent. -/
theorem test_fifo_control_write :
    goesTo (exec (.uartFcrWr .com1) (withCom1 { serial [0x0D#8] [0x41#8] with
      fifoEn := false, rxTrigger := 0 })) (fun t =>
      t.uart .com1 == some (serial [] [])) = true := by
  decide

/-- UR16. -/
theorem test_modem_control_write :
    goesTo (exec (.uartMcrWr .com2) demo) (fun t =>
      t.uart .com2 == some { Uart.powerOn with mcr := 0x0B#8 }) = true := by
  decide

/-- UR18 to UR21, for every draw of the six other bits. -/
theorem test_line_status_bits (draw : Byte) :
    (serial [] []).lsr draw &&& 0x21#8 = 0x20#8 ∧
    (serial [0x61#8] [0x41#8]).lsr draw &&& 0x21#8 = 0x01#8 ∧
    (serial [0x61#8] []).lsr draw &&& 0x21#8 = 0x21#8 ∧
    (serial [] [0x41#8]).lsr draw &&& 0x21#8 = 0x00#8 := by
  revert draw
  decide

/-! ## Events -/

/-- IR1 and IR17. -/
theorem test_edge :
    goesTo (step (occurring (masked 0xFF#8 0xFF#8) (.irqEdge .irq1))) (fun t =>
      t.pic1.irr == 0x02#8 && !t.intOut .P) = true ∧
    goesTo (step (occurring demo (.irqEdge .irq1))) (fun t => t.pic1 == Pic.powerOn) = true := by
  decide

/-- IR4: line 1 wins over line 3. -/
theorem test_ack_priority :
    goesTo (step (occurring { masked 0xF5#8 0xFF#8 with pic1 := readyPic .P 0xF5#8 0x0A#8 0#8 } .ack))
      (fun t => t.vectors == [33] && t.pic1.irr == 0x08#8 && t.pic1.isr == 0x02#8 &&
        !t.intOut .P) = true := by
  decide

/-- IR9: the last line of the secondary. -/
theorem test_ack_cascade :
    goesTo (step (occurring { masked 0xFB#8 0x7F#8 with pic2 := readyPic .S 0x7F#8 0x80#8 0#8 } .ack))
      (fun t => t.vectors == [47] && t.pic1.isr == 0x04#8 && t.pic2.isr == 0x80#8 &&
        t.pic2.irr == 0x00#8) = true := by
  decide

/-- IR11: a higher-priority secondary line waits for the primary's end of interrupt. -/
theorem test_not_specially_nested :
    ({ demo with
      pic1 := readyPic .P 0xFB#8 0#8 0x04#8
      pic2 := readyPic .S 0xFA#8 0x01#8 0x04#8 } : State).intOut .S = true ∧
    ({ demo with
      pic1 := readyPic .P 0xFB#8 0#8 0x04#8
      pic2 := readyPic .S 0xFA#8 0x01#8 0x04#8 } : State).intOut .P = false := by
  decide

/-- IR18: the mask write drops the output, and the spurious vector is that of input 7. -/
theorem test_spurious :
    goesTo (exec (.pic1Ocw1 0xFF#8) { demo with pic1 := readyPic .P 0xFD#8 0x02#8 0#8 }) (fun t =>
      t.intDropped == some .P) = true ∧
    goesTo (step (occurring { masked 0xFF#8 0xFF#8 with intDropped := some .P } (.spurious .P)))
      (fun t => t.vectors == [39] && t.pic1.isr == 0x00#8 && t.intDropped == none) = true := by
  decide

/-- UR23 to UR26. -/
theorem test_shift_and_arrival :
    goesTo (step (occurring (withCom1 (serial [] [0x41#8])) (.txShift .com1))) (fun t =>
      t.uart .com1 == some { serial [] [] with txLine := [0x40#8, 0x41#8] }) = true ∧
    goesTo (step (occurring (withCom1 (serial (List.replicate 15 0x00#8) [])) (.rxArrive .com1 0x7A#8)))
      (fun t => t.uart .com1 == some (serial (List.replicate 15 0x00#8 ++ [0x7A#8]) [])) = true ∧
    goesTo (step (occurring (withCom1 (serial (List.replicate 16 0x00#8) [])) (.rxArrive .com1 0x7A#8)))
      (fun t => t.uart .com1 == some (serial (List.replicate 16 0x00#8) [])) = true := by
  decide

/-- IR19, with line 4 as the UARTs' line. -/
theorem test_uart_raises_line :
    goesTo (step (occurring ({ masked 0xFF#8 0xFF#8 with
      uarts := demo.uarts.set .com1 (serial [0x61#8] []) }) (.uartIrq .com1))) (fun t =>
      t.pic1.irr == 0x10#8) = true := by
  decide

/-! ## Calls: what they check before their first transaction -/

/-- PD4, PD5, PD6, PD9, PA4, E5. -/
theorem test_calls_check_first :
    goesTo (step (calling demo [.picInit 31#8])) (fun t =>
      t.failure == some (.badVectorOffset 31#8) && t.trace == []) = true ∧
    refuses (step (calling demo [.picInit 33#8])) (.vectorOffsetNotAdmitted 33#8) = true ∧
    refuses (step (calling demo [.picInit 248#8])) (.vectorOffsetNotAdmitted 248#8) = true ∧
    goesTo (step (calling demo [.eoi 16])) (fun t => t.failure == some (.badIrqIndex 16)) = true ∧
    goesTo (step (calling demo [.rangeRead ⟨0x3F8#16, 6⟩ 6])) (fun t =>
      t.failure == some (.portRangeOutOfBounds 0x3F8#16 6 6)) = true ∧
    goesTo (step (calling demo [.serialNew 0x1234#16])) (fun t =>
      t.failure == some (.badSerialBase 0x1234#16)) = true := by
  decide

/-- PA9, PA10, PA11, PD8. -/
theorem test_calls_refused :
    refuses (step (calling demo [.handleWrite 0x0020#16 (.v16 0xFF11#16)]))
      (.wideAccess ⟨0x0020#16, .w16⟩) = true ∧
    refuses (step (doing demo [.input 0x0080#16 .x])) (.unclaimedPort 0x0080#16) = true ∧
    refuses (step (doing noCom1 [.input 0x3FD#16 .x])) (.unclaimedPort 0x3FD#16) = true ∧
    refuses (step (doing demo [.output 0x0021#16 (.lit 0xFF#8)]))
      (.undecoded (.dataWriteBeforeInit .P)) = true := by
  decide

/-- R31: the eighth write of `uart.init()` makes the instance initialised, and a handler's `send`
right after it is begun. -/
theorem test_eighth_write_initialises :
    (let last : List Machine.Action := [.outputLast .com1 0x03F9#16 (.lit 0x01#8), .ret .unit]
     goesTo (step (doing (withCom1 { serial [] [] with inited := false }) last))
       (fun t => (t.uart .com1).any (fun d => d.inited && d.ier == 0x01#8))) = true ∧
    (let after : State := doing (withCom1 (serial [] [])) [.ret .unit]
     goesTo (step { after with schedule := [.handler (.send .com1 0x41#8)] })
       (fun t => t.stack.length == 2)) = true := by
  decide

/-- PD17, the write of its second pair. -/
theorem test_byte_expressions :
    goesTo (step { masked 0xF8#8 0xFC#8 with stack :=
      [{ todo := [.output 0x0021#16 (.clearBits .y 0x04#8)], x := 0x00#8, y := 0xF8#8 }] }) (fun t =>
      t.trace == [.pic25 0x10021F8#25]) = true := by
  decide

/-! ## Witnesses: each obligation's hypotheses are met together

One theorem per obligation that has hypotheses, a conjunct per clause, at boundary values. -/

theorem quiet_masked (p q : Byte) (cs : List Call) :
    (calling (masked p q) cs).Quiet ∧ (calling (masked p q) cs).BothReady :=
  ⟨⟨rfl, rfl, rfl⟩, rfl, rfl⟩

theorem quiet_com1 (d : Uart) (cs : List Call) :
    (calling (withCom1 d) cs).Quiet ∧ (calling (withCom1 d) cs).uart .com1 = some d :=
  ⟨⟨rfl, rfl, rfl⟩, rfl⟩

theorem witness_DecodeOfEncodeGivesTheInstruction :
    ((Instr.pic1Icw2 0xF8#8).wellFormed = true ∧
      (under .waitIcw2 false).selects (.pic1Icw2 0xF8#8) = true) ∧
    ((Instr.uartDlmWr .com8 0xFF#8).wellFormed = true ∧
      (under .ready true).selects (.uartDlmWr .com8 0xFF#8) = true) := by
  decide

theorem witness_DecodedWordLiesInItsRow :
    decode (under .ready false) (.pic25 0x10021FF#25) = .ok (.pic1Ocw1 0xFF#8) ∧
      decode (under .ready false) (.uart12 .com8 0x0FF#12) = .ok (.uartRbrRd .com8) :=
  ⟨rfl, rfl⟩

theorem witness_StepRunsTheDecodedInstruction :
    (∃ (s : State) (f : Frame) (i : Instr), s.failure = none ∧ s.stack = [f] ∧ f.todo = [.txn (.pic25 0x10021FB#25)] ∧
      s.schedule = [] ∧ decode (s.selectors (.pic25 0x10021FB#25)) (.pic25 0x10021FB#25) = .ok i) ∧
    (∃ (s' : State) (f : Frame) (r : Reject), s'.failure = none ∧ s'.stack = [f] ∧ f.todo = [.txn (.pic25 0x10021FB#25)] ∧
      ({ s' with schedule := Turn.driver :: s'.schedule } : State).schedule = [.driver] ∧
      decode (s'.selectors (.pic25 0x10021FB#25)) (.pic25 0x10021FB#25) = .error r) :=
  ⟨⟨doing (masked 0#8 0#8) [.txn (.pic25 0x10021FB#25)], _, _, rfl, rfl, rfl, rfl, rfl⟩,
    ⟨doing demo [.txn (.pic25 0x10021FB#25)], _, _, rfl, rfl, rfl, rfl, rfl⟩⟩

theorem witness_DriverAccessesRunTheDecodedInstruction :
    (∃ (s r : State) (i : Instr), s = doing (masked 0#8 0#8) [.output 0x0021#16 (.lit 0xFB#8)] ∧
      wordAt (fun u => (s.uart u).isSome) true 0x0021#16 0xFB#8 = some (.pic25 0x10021FB#25) ∧
      decode (s.selectors (.pic25 0x10021FB#25)) (.pic25 0x10021FB#25) = .ok i ∧
      exec i s = .next r) ∧
    (∀ dst, ∃ (s r : State) (i : Instr), s = doing (masked 0#8 0#8) [.input 0x0021#16 dst] ∧
      wordAt (fun u => (s.uart u).isSome) false 0x0021#16 0x00#8 = some (.pic25 0x0002100#25) ∧
      decode (s.selectors (.pic25 0x0002100#25)) (.pic25 0x0002100#25) = .ok i ∧
      exec i s = .next r) ∧
    (∃ (s r : State) (i : Instr), s = doing (withCom1 (serial [] []))
        [.outputLast .com1 0x03F9#16 (.lit 0x01#8)] ∧
      wordAt (fun u => (s.uart u).isSome) true 0x03F9#16 0x01#8 = some (.uart12 .com1 0x901#12) ∧
      decode (s.selectors (.uart12 .com1 0x901#12)) (.uart12 .com1 0x901#12) = .ok i ∧
      exec i s = .next r) ∧
    (∃ (s r : State) (i : Instr), s = doing demo [.poll 0x03FD#16 0x20#8] ∧
      wordAt (fun u => (s.uart u).isSome) false 0x03FD#16 0x00#8 = some (.uart12 .com1 0x500#12) ∧
      decode (s.selectors (.uart12 .com1 0x500#12)) (.uart12 .com1 0x500#12) = .ok i ∧
      exec i s = .next r) :=
  ⟨⟨_, _, .pic1Ocw1 0xFB#8, rfl, rfl, rfl, rfl⟩, fun _ => ⟨_, _, .pic1RdImr, rfl, rfl, rfl, rfl⟩,
    ⟨_, _, .uartIerWr .com1 0x01#8, rfl, rfl, rfl, rfl⟩, ⟨_, _, .uartLsrRd .com1, rfl, rfl, rfl, rfl⟩⟩

theorem witness_PlacedTableWordRunsAndCompletes :
    decodeTableWord 32 0x1002011 = some .pic1Icw1 ∧
      decodeTableWord 16 0x90F = some (.uartDlmWr .com1 0x0F#8) := by
  decide

theorem witness_Icw1OpensTheSequence :
    (demo.pic .P).phase ≠ .ready ∧
      (({ demo with pic2 := { Pic.powerOn with phase := .waitIcw4 } } : State).pic .S).phase ≠
        .ready := by
  decide

theorem witness_Icw2SetsTheVectorBase :
    ((0xF8#8 : Byte) &&& 0x07#8 = 0x00#8 ∧
      (({ demo with pic2 := { Pic.powerOn with phase := .waitIcw2 } } : State).pic .S).phase =
        .waitIcw2) ∧
    (0xFF#8 : Byte) &&& 0x07#8 ≠ 0x00#8 := by
  decide

theorem witness_Icw3AndIcw4CompleteTheSequence :
    (({ demo with pic1 := { Pic.powerOn with phase := .waitIcw3 } } : State).pic .P).phase =
      .waitIcw3 ∧
    (({ demo with pic2 := { Pic.powerOn with phase := .waitIcw4 } } : State).pic .S).phase =
      .waitIcw4 := by
  decide

theorem witness_MaskIsWrittenAndReadExactly :
    ((masked 0xFF#8 0x00#8).pic .P).phase = .ready ∧
      ((masked 0xFF#8 0x00#8).pic .S).phase = .ready := by
  decide

theorem witness_EoiClearsTheLowestInServiceBit :
    (({ demo with pic1 := readyPic .P 0#8 0#8 0x80#8 } : State).pic .P).phase = .ready ∧
      (({ demo with pic1 := readyPic .P 0#8 0#8 0x80#8 } : State).pic .P).isr ≠ 0x00#8 ∧
      ((masked 0#8 0#8).pic .S).phase = .ready ∧ ((masked 0#8 0#8).pic .S).isr = 0x00#8 := by
  decide

theorem witness_ReadSelectCommandsSetTheLatch :
    ((masked 0#8 0#8).pic .P).phase = .ready ∧ ((masked 0#8 0#8).pic .S).phase = .ready := by
  decide

theorem witness_SelectedReadReturnsTheSelectedRegister :
    (((masked 0#8 0#8).pic .P).phase = .ready ∧ ((masked 0#8 0#8).pic .P).readSel = .selIrr) ∧
    ((({ demo with pic2 := { readyPic .S 0#8 0#8 0xFF#8 with readSel := .selIsr } } : State).pic
        .S).phase = .ready ∧
      (({ demo with pic2 := { readyPic .S 0#8 0#8 0xFF#8 with readSel := .selIsr } } : State).pic
        .S).readSel = .selIsr) := by
  decide

theorem witness_TransmitWriteQueuesTheByte :
    ((withCom1 (serial [] [])).uart .com1 = some (serial [] []) ∧
      (serial [] []).lcr.getLsbD 7 = false ∧ (serial [] []).txPending = []) ∧
    ((withCom1 (serial [] [0#8])).uart .com1 = some (serial [] [0#8]) ∧
      (serial [] [0#8]).lcr.getLsbD 7 = false ∧ (serial [] [0#8]).txPending ≠ []) := by
  decide

theorem witness_ReceiveReadReturnsTheOldestByte :
    ((withCom1 (serial [0xFF#8] [])).uart .com1 = some (serial [0xFF#8] []) ∧
      (serial [0xFF#8] []).lcr.getLsbD 7 = false ∧ (serial [0xFF#8] []).rxFifo = [0xFF#8]) ∧
    ((withCom1 (serial [] [])).uart .com1 = some (serial [] []) ∧
      (serial [] []).lcr.getLsbD 7 = false ∧ (serial [] []).rxFifo = []) := by
  decide

theorem witness_DivisorWritesSetTheLatch :
    (withCom1 latched).uart .com1 = some latched ∧ latched.lcr.getLsbD 7 = true := by
  decide

theorem witness_InterruptEnableWriteSetsTheRegister :
    (withCom1 (serial [] [])).uart .com1 = some (serial [] []) ∧
      (serial [] []).lcr.getLsbD 7 = false ∧ (0x01#8 : Byte) = 0x01#8 ∧
      (0x02#8 : Byte) ≠ 0x00#8 ∧ (0x02#8 : Byte) ≠ 0x01#8 := by
  decide

theorem witness_FifoControlWriteEmptiesTheQueues :
    (withCom1 latched).uart .com1 = some latched := by decide

theorem witness_LineAndModemControlWritesSetTheRegisters :
    (withCom1 latched).uart .com1 = some latched ∧ (0x03#8 : Byte) = 0x03#8 ∧
      (0x83#8 : Byte) ≠ 0x80#8 ∧ (0x83#8 : Byte) ≠ 0x03#8 := by
  decide

theorem witness_StatusReadShowsTheQueues :
    (withCom1 (serial [0#8] [])).uart .com1 = some (serial [0#8] []) := by decide

theorem witness_TransactionOutOfPlaceIsRefused :
    (Instr.pic1Eoi.wellFormed = true ∧ phaseNeeded .pic1Eoi = some (.P, .ready) ∧
      (demo.pic .P).phase ≠ .ready) ∧
    ((Instr.uartFcrWr .com1).wellFormed = true ∧ (Instr.uartFcrWr .com1).site = .inr .com1 ∧
      noCom1.uart .com1 = none) ∧
    ((Instr.uartThrWr .com1 0#8).wellFormed = true ∧
      (Instr.uartThrWr .com1 0#8).site = .inr .com1 ∧ (withCom1 latched).uart .com1 = some latched ∧
      dlabNeeded (.uartThrWr .com1 0#8) = some false ∧ latched.lcr.getLsbD 7 ≠ false) := by
  decide

theorem masked_inv (p q : Byte) : (masked p q).Inv := by
  refine ⟨⟨?_, ?_, ?_, ?_, ?_⟩, ⟨?_, ?_, ?_, ?_, ?_⟩, ?_, ?_⟩ <;>
    try simp [masked, readyPic, demo, atCtl, State.reset]
  intro u d h
  have : d = .powerOn := by cases u <;> exact (Option.some.inj h).symm
  subst this
  exact ⟨by decide, by decide, by decide⟩

theorem witness_EveryStepKeepsTheInvariant :
    ∃ s t : State, s.Inv ∧ step s = .next t ∧ t.vectors ≠ s.vectors := by
  refine ⟨occurring { masked 0xF5#8 0xFF#8 with pic1 := readyPic .P 0xF5#8 0x0A#8 0#8 } .ack, _,
    ?_, rfl, by decide⟩
  have h := masked_inv 0xF5#8 0xFF#8
  exact ⟨⟨by decide, by decide, by decide, by decide, by decide⟩, h.secondary, h.serial, h.dropped⟩

theorem witness_TransactionTouchesOnlyItsDevice :
    (∃ t, exec (.pic1Ocw1 0xFF#8) (masked 0#8 0#8) = .next t) ∧
      (∃ t, exec (.uartRbrRd .com1) (withCom1 (serial [0#8] [])) = .next t) :=
  ⟨⟨_, rfl⟩, ⟨_, rfl⟩⟩

theorem witness_WritesAtTheTwoControllersCommute :
    ∃ a b, exec .pic1Eoi (masked 0#8 0#8) = .next a ∧ exec .pic2Eoi a = .next b :=
  ⟨_, _, rfl, rfl⟩

theorem witness_ObservationsOnlyGrow :
    ∃ t, step (occurring (withCom1 (serial [] [0#8])) (.txShift .com1)) = .next t := ⟨_, rfl⟩

theorem witness_OnlyMaskWriteAndIcw1ChangeAMask :
    (∃ t, step (doing (masked 0#8 0#8) [.txn (.pic25 0x10021FB#25)]) = .next t ∧
      (t.pic .P).imr ≠ ((masked 0#8 0#8).pic .P).imr) ∧
    (∃ t, step (doing (masked 0#8 0xFF#8) [.txn (.pic25 0x100A011#25)]) = .next t ∧
      (t.pic .S).imr ≠ ((masked 0#8 0xFF#8).pic .S).imr) :=
  ⟨⟨_, rfl, by decide⟩, ⟨_, rfl, by decide⟩⟩

theorem witness_OnlyTheNamedCommandsMoveTheHiddenState :
    (∃ t, step (doing demo [.txn (.pic25 0x1002011#25)]) = .next t ∧
      (t.pic .P).phase ≠ (demo.pic .P).phase) ∧
    (∃ t, step (doing { demo with pic2 := { Pic.powerOn with phase := .waitIcw2 } }
        [.txn (.pic25 0x100A1F8#25)]) = .next t ∧ (t.pic .S).vbase ≠ 0x00#8) ∧
    (∃ t, step (doing (masked 0#8 0#8) [.txn (.pic25 0x100A00B#25)]) = .next t ∧
      (t.pic .S).readSel ≠ ((masked 0#8 0#8).pic .S).readSel) :=
  ⟨⟨_, rfl, by decide⟩, ⟨_, rfl, by decide⟩, ⟨_, rfl, by decide⟩⟩

theorem witness_FailureHaltsTheDriver :
    (raise (.badIrqIndex 16) demo).failure = some (.badIrqIndex 16) ∧
    (raise (.badIrqIndex 16) demo).schedule = [] ∧
    ({ raise (.badIrqIndex 16) demo with schedule := [.driver] } : State).schedule = .driver :: [] ∧
    ({ raise (.badIrqIndex 16) demo with schedule := [.handler .picDisable] } : State).schedule =
      .handler .picDisable :: [] ∧
    (occurring (raise (.badIrqIndex 16) demo) .ack).schedule = .event .ack :: [] := by
  decide

theorem witness_AssertionsRaiseTheFourFailures :
    ((calling demo [.picInit 31#8]).Quiet ∧ (31#8 : Byte).toNat < 32) ∧
    ((calling demo [.eoi 16]).Quiet ∧ (calling demo [.enableIrq 16]).Quiet ∧
      (calling demo [.disableIrq 16]).Quiet ∧ 16 ≤ 16) ∧
    ((calling demo [.rangeRead ⟨0x3F8#16, 6⟩ 6]).Quiet ∧
      (calling demo [.rangeWrite ⟨0x3F8#16, 0⟩ 0 0#8]).Quiet ∧
      (⟨0x3F8#16, 6⟩ : Range).count ≤ 6 ∧ (⟨0x3F8#16, 0⟩ : Range).count ≤ 0) ∧
    ((calling demo [.serialNew 0x3F9#16]).Quiet ∧ ∀ u : Com, u.base ≠ 0x3F9#16) :=
  ⟨⟨⟨rfl, rfl, rfl⟩, by decide⟩,
    ⟨⟨rfl, rfl, rfl⟩, ⟨rfl, rfl, rfl⟩, ⟨rfl, rfl, rfl⟩, by decide⟩,
    ⟨⟨rfl, rfl, rfl⟩, ⟨rfl, rfl, rfl⟩, by decide, by decide⟩,
    ⟨rfl, rfl, rfl⟩, by intro u; cases u <;> decide⟩

theorem witness_OutputAndCascadeFollowTheRules : 0 < 8 ∧ 2 < 8 ∧ 7 < 8 := by decide

theorem witness_EdgeSetsTheRequestBit :
    ((occurring (masked 0#8 0#8) (.irqEdge .irq15)).schedule = .event (.irqEdge .irq15) :: [] ∧
      sourceLine .irq15 = atCtl .S 7 15 ∧ ((masked 0#8 0#8).pic .S).phase ≠ .uninit) ∧
    ((occurring demo (.irqEdge .irq0)).schedule = .event (.irqEdge .irq0) :: [] ∧
      sourceLine .irq0 = atCtl .P 0 8 ∧ (demo.pic .P).phase = .uninit) := by
  decide

/-- Line 1 pending and unmasked; line 15 pending and unmasked; nothing pending. -/
theorem witness_AckTakesTheRequestAndDeliversItsVector :
    (let s := occurring { masked 0xFD#8 0xFF#8 with pic1 := readyPic .P 0xFD#8 0x02#8 0#8 } .ack
     s.intOut .P = true ∧ lsb (s.req .P) ≠ 2) ∧
    (let s := occurring { masked 0xFB#8 0x7F#8 with pic2 := readyPic .S 0x7F#8 0x80#8 0#8 } .ack
     s.intOut .P = true ∧ lsb (s.req .P) = 2) ∧
    (occurring (masked 0#8 0#8) .ack).intOut .P = false := by
  decide

theorem deliverable_line15 :
    deliverable (occurring { masked 0xFB#8 0x7F#8 with pic2 := readyPic .S 0x7F#8 0x80#8 0#8 } .ack)
      15 :=
  ⟨⟨rfl, by decide, by decide, by intro j _; exact BitVec.getLsbD_zero⟩, rfl, by decide,
    by intro j _; exact BitVec.getLsbD_zero⟩

theorem witness_AckDeliversTheHighestPriorityLine :
    (∃ s : State, s.schedule = .event .ack :: [] ∧ s.intOut .P = true ∧ deliverable s 15) ∧
    (∃ s : State, s.pic1.isr.getLsbD 2 = true ∧ 8 ≤ 8) :=
  ⟨⟨occurring { masked 0xFB#8 0x7F#8 with pic2 := readyPic .S 0x7F#8 0x80#8 0#8 } .ack, rfl,
      by decide, deliverable_line15⟩,
    ⟨{ demo with pic1 := readyPic .P 0#8 0#8 0x04#8 }, by decide, by decide⟩⟩

theorem witness_MissingEoiStallsLowerPriorities :
    (let s := occurring { demo with pic1 := readyPic .P 0#8 0#8 0x01#8 } .ack
     0 < 8 ∧ s.schedule = .event .ack :: [] ∧ s.pic1.isr.getLsbD 0 = true) ∧
    (let s := occurring { demo with pic1 := readyPic .P 0#8 0xFF#8 0x80#8 } .ack
     7 < 8 ∧ s.schedule = .event .ack :: [] ∧ s.pic1.isr.getLsbD 7 = true ∧
       s.intOut .P = true) ∧
    (let s := occurring { masked 0#8 0#8 with pic2 := readyPic .S 0#8 0xFF#8 0x80#8 } .ack
     7 < 8 ∧ s.schedule = .event .ack :: [] ∧ s.pic2.isr.getLsbD 7 = true ∧
       s.intOut .P = true) := by
  decide

/-- Line 15 alone is pending, under the offset 32. -/
theorem witness_LineIsDeliveredAtOffsetPlusLine :
    ∃ s : State, s.schedule = .event .ack :: [] ∧ 32 ≤ (32#8 : Byte).toNat ∧
      (32#8 : Byte).toNat ≤ 240 ∧ s.pic1.vbase = 32#8 ∧ s.pic2.vbase = 32#8 + 8#8 ∧
      deliverable s 15 ∧
      ∀ m, m < 16 → m ≠ 2 → deliverable s m → priorityPlace 15 ≤ priorityPlace m := by
  refine ⟨occurring { masked 0xFB#8 0x7F#8 with pic2 := readyPic .S 0x7F#8 0x80#8 0#8 } .ack, rfl,
    by decide, by decide, rfl, rfl, deliverable_line15, ?_⟩
  intro m hm h2 hd
  by_cases h8 : m < 8
  · simp only [deliverable, h8, if_true] at hd
    have hirr := hd.2.1
    interval_cases m <;> first | exact absurd rfl h2 | (revert hirr; decide)
  · simp only [deliverable, h8, if_false] at hd
    have hirr := hd.1.2.1
    interval_cases m <;> revert hirr <;> decide

theorem witness_SpuriousDeliversInputSeven :
    (∃ s : State, s.schedule = .event (.spurious .P) :: [] ∧ s.params.spuriousModelled = true ∧
      s.intDropped ≠ none) ∧
    (∃ s : State, s.schedule = .event (.spurious .P) :: [] ∧
      ¬ (s.params.spuriousModelled = true ∧ s.intDropped ≠ none)) ∧
    (∃ s : State, s.schedule = .event (.spurious .S) :: [] ∧ s.params.spuriousModelled = true ∧
      s.intDropped = some .S ∧ s.pic1.imr.getLsbD 2 = false) ∧
    (∃ s : State, s.schedule = .event (.spurious .S) :: [] ∧
      ¬ (s.params.spuriousModelled = true ∧ s.intDropped = some .S ∧
        s.pic1.imr.getLsbD 2 = false)) :=
  ⟨⟨occurring { masked 0#8 0#8 with intDropped := some .S } (.spurious .P), by decide⟩,
    ⟨occurring (masked 0#8 0#8) (.spurious .P), by decide⟩,
    ⟨occurring { masked 0#8 0#8 with intDropped := some .S } (.spurious .S), by decide⟩,
    ⟨occurring { masked 0#8 0#8 with intDropped := some .P } (.spurious .S), by decide⟩⟩

theorem witness_ShiftMovesTheOldestPendingByte :
    (∃ s : State, s.uart .com1 = some (serial [] [0#8]) ∧ s.schedule = .event (.txShift .com1) :: []) ∧
    (∃ s : State, s.uart .com1 = some (serial [] []) ∧ s.schedule = .event (.txShift .com1) :: []) :=
  ⟨⟨occurring (withCom1 (serial [] [0#8])) (.txShift .com1), by decide⟩,
    ⟨occurring (withCom1 (serial [] [])) (.txShift .com1), by decide⟩⟩

theorem witness_ArrivalAppendsUpToCapacity :
    (∃ s : State, s.uart .com1 = some (serial (List.replicate 15 0#8) []) ∧
      s.schedule = .event (.rxArrive .com1 0#8) :: []) ∧
    (∃ s : State, s.uart .com1 = some (serial (List.replicate 16 0#8) []) ∧
      s.schedule = .event (.rxArrive .com1 0#8) :: []) :=
  ⟨⟨occurring (withCom1 (serial (List.replicate 15 0#8) [])) (.rxArrive .com1 0#8), by decide⟩,
    ⟨occurring (withCom1 (serial (List.replicate 16 0#8) [])) (.rxArrive .com1 0#8), by decide⟩⟩

theorem witness_UartRaisesItsLineWhileItRequests :
    (∃ s : State, s.uart .com1 = some (serial [0#8] []) ∧ s.schedule = .event (.uartIrq .com1) :: [] ∧
      s.params.uartIrqLine = some .irq4 ∧ (serial [0#8] []).ier.getLsbD 0 = true ∧
      (serial [0#8] []).mcr.getLsbD 3 = true ∧ (serial [0#8] []).rxFifo ≠ []) ∧
    (∃ s : State, s.uart .com1 = some (serial [] []) ∧ s.schedule = .event (.uartIrq .com1) :: [] ∧
      (serial [] []).rxFifo = []) :=
  ⟨⟨occurring (withCom1 (serial [0#8] [])) (.uartIrq .com1), by decide⟩,
    ⟨occurring (withCom1 (serial [] [])) (.uartIrq .com1), by decide⟩⟩

theorem witness_HandleAccessIsOneTransaction :
    (∃ (s r : State) (i : Instr), s = calling (masked 0xFB#8 0#8) [.handleRead ⟨0x0021#16, .w8⟩] ∧ s.Quiet ∧
      wordAt (fun u => (s.uart u).isSome) false 0x0021#16 0x00#8 = some (.pic25 0x0002100#25) ∧
      decode (s.selectors (.pic25 0x0002100#25)) (.pic25 0x0002100#25) = .ok i ∧
      exec i s = .next r) ∧
    (∃ (s r : State) (i : Instr), s = calling (masked 0#8 0#8) [.handleWrite 0x0020#16 (.v8 0x20#8)] ∧ s.Quiet ∧
      wordAt (fun u => (s.uart u).isSome) true 0x0020#16 0x20#8 = some (.pic25 0x1002020#25) ∧
      decode (s.selectors (.pic25 0x1002020#25)) (.pic25 0x1002020#25) = .ok i ∧
      exec i s = .next r) :=
  ⟨⟨_, _, .pic1RdImr, rfl, ⟨rfl, rfl, rfl⟩, rfl, rfl, rfl⟩,
    ⟨_, _, .pic1Eoi, rfl, ⟨rfl, rfl, rfl⟩, rfl, rfl, rfl⟩⟩

theorem not_mapped_22 (s : State) : ¬ mapped s 0x0022#16 := by
  rintro (h | h | h | h | ⟨u, k, -, -, h⟩)
  iterate 4 exact absurd h (by decide)
  revert h
  cases u <;> simp [Com.base] <;> omega

theorem not_mapped_23 (s : State) : ¬ mapped s 0x0023#16 := by
  rintro (h | h | h | h | ⟨u, k, -, -, h⟩)
  iterate 4 exact absurd h (by decide)
  revert h
  cases u <;> simp [Com.base] <;> omega

theorem witness_UnmappedAndWideAccessesAreRefused :
    ((calling demo [.handleRead ⟨0x0022#16, .w8⟩]).Quiet ∧
      (calling demo [.handleWrite 0x0022#16 (.v8 0#8)]).Quiet ∧
      ¬ mapped (calling demo [.handleRead ⟨0x0022#16, .w8⟩]) 0x0022#16 ∧
      ¬ mapped (calling demo [.handleWrite 0x0022#16 (.v8 0#8)]) 0x0022#16) ∧
    ((calling demo [.handleRead ⟨0x001F#16, .w16⟩]).Quiet ∧ Width.w16 ≠ .w8 ∧
      touchesMapped (calling demo [.handleRead ⟨0x001F#16, .w16⟩]) ⟨0x001F#16, .w16⟩) ∧
    ((calling demo [.handleWrite 0x03FD#16 (.v32 0#32)]).Quiet ∧
      (Value.v32 0#32).width = Width.w32 ∧
      touchesMapped (calling demo [.handleWrite 0x03FD#16 (.v32 0#32)]) ⟨0x03FD#16, .w32⟩) ∧
    ((calling demo [.handleRead ⟨0x0022#16, .w16⟩]).Quiet ∧
      ¬ touchesMapped (calling demo [.handleRead ⟨0x0022#16, .w16⟩]) ⟨0x0022#16, .w16⟩) :=
  ⟨⟨⟨rfl, rfl, rfl⟩, ⟨rfl, rfl, rfl⟩, not_mapped_22 _, not_mapped_22 _⟩,
    ⟨⟨rfl, rfl, rfl⟩, by decide, .inr (.inl (.inl rfl))⟩,
    ⟨⟨rfl, rfl, rfl⟩, rfl,
      .inl (.inr (.inr (.inr (.inr ⟨.com1, 5, rfl, by decide, by decide⟩))))⟩,
    ⟨⟨rfl, rfl, rfl⟩, by
      rintro (h | h | h)
      · exact not_mapped_22 _ h
      · exact not_mapped_23 _ h
      · exact absurd h.1 (by decide)⟩⟩

theorem witness_RangeAccessIsTheHandleAccessAtItsOffset :
    (calling demo [.rangeRead ⟨0x3F8#16, 6⟩ 5]).Quiet ∧
      (calling demo [.rangeWrite ⟨0x3F8#16, 6⟩ 5 0#8]).Quiet ∧ 5 < 6 ∧
      (0x3FD#16 : Port).toNat = (0x3F8#16 : Port).toNat + 5 :=
  ⟨⟨rfl, rfl, rfl⟩, ⟨rfl, rfl, rfl⟩, by decide, by decide⟩

theorem witness_InitRemapsAndMasksEverything :
    (calling demo [.picInit 240#8]).Quiet ∧ (31#8 : Byte).toNat < 32 ∧
    (32 ≤ (33#8 : Byte).toNat ∧ (33#8 : Byte) &&& 0x07#8 ≠ 0x00#8) ∧
    (32 ≤ (248#8 : Byte).toNat ∧ 240 < (248#8 : Byte).toNat) ∧
    (32 ≤ (240#8 : Byte).toNat ∧ (240#8 : Byte) &&& 0x07#8 = 0x00#8 ∧
      (240#8 : Byte).toNat ≤ 240) :=
  ⟨⟨rfl, rfl, rfl⟩, by decide⟩

theorem witness_MaskOperationsWriteAndReadBothMasks :
    ((calling (masked 0xFF#8 0xFF#8) [.setMask 0xFF#8 0x00#8, .getMask]).Quiet ∧
      (calling (masked 0xFF#8 0xFF#8) [.setMask 0xFF#8 0x00#8, .getMask]).BothReady) ∧
    ((calling (masked 0xFB#8 0xFB#8) [.picDisable]).Quiet ∧
      (calling (masked 0xFB#8 0xFB#8) [.picDisable]).BothReady) :=
  ⟨quiet_masked _ _ _, quiet_masked _ _ _⟩

theorem witness_EoiTellsTheSecondaryFirst :
    ((calling (masked 0#8 0#8) [.eoi 7]).Quiet ∧ (calling (masked 0#8 0#8) [.eoi 7]).BothReady) ∧
    ((calling (masked 0#8 0#8) [.eoi 15]).Quiet ∧ (calling (masked 0#8 0#8) [.eoi 15]).BothReady) ∧
    ((calling (masked 0#8 0#8) [.eoi 16]).Quiet ∧ (calling (masked 0#8 0#8) [.eoi 16]).BothReady) :=
  ⟨quiet_masked _ _ _, quiet_masked _ _ _, quiet_masked _ _ _⟩

theorem witness_EnableClearsTheLineAndTheCascade :
    ((calling (masked 0#8 0#8) [.enableIrq 7]).Quiet ∧
      (calling (masked 0#8 0#8) [.enableIrq 7]).BothReady) ∧
    ((calling (masked 0#8 0#8) [.enableIrq 8]).Quiet ∧
      (calling (masked 0#8 0#8) [.enableIrq 8]).BothReady) ∧
    ((calling (masked 0#8 0#8) [.enableIrq 16]).Quiet ∧
      (calling (masked 0#8 0#8) [.enableIrq 16]).BothReady) :=
  ⟨quiet_masked _ _ _, quiet_masked _ _ _, quiet_masked _ _ _⟩

theorem witness_DisableSetsTheLineAlone :
    ((calling (masked 0#8 0#8) [.disableIrq 15]).Quiet ∧
      (calling (masked 0#8 0#8) [.disableIrq 15]).BothReady) ∧
    ((calling (masked 0xFF#8 0xFF#8) [.enableIrq 2, .disableIrq 2]).Quiet ∧
      (masked 0xFF#8 0xFF#8).pic1.imr.getLsbD 2 = true) ∧
    ((calling (masked 0xFF#8 0xFF#8) [.enableIrq 10, .disableIrq 10]).Quiet ∧
      (masked 0xFF#8 0xFF#8).pic2.imr.getLsbD (10 - 8) = true) :=
  ⟨quiet_masked _ _ _, ⟨(quiet_masked _ _ _).1, by decide⟩, ⟨(quiet_masked _ _ _).1, by decide⟩⟩

theorem witness_DiagnosticReadsReturnBothRegisters :
    ((calling (masked 0#8 0#8) [.getIrr]).Quiet ∧ (calling (masked 0#8 0#8) [.getIrr]).BothReady) ∧
    ((calling (masked 0#8 0#8) [.getIsr]).Quiet ∧ (calling (masked 0#8 0#8) [.getIsr]).BothReady) :=
  ⟨quiet_masked _ _ _, quiet_masked _ _ _⟩

theorem witness_OperationsThatKeepTheCascadeOpen :
    ((calling (masked 0xFB#8 0xFE#8) [.enableIrq 15]).Quiet ∧
      (calling (masked 0xFB#8 0xFE#8) [.enableIrq 15]).BothReady ∧
      (calling (masked 0xFB#8 0xFE#8) [.enableIrq 15]).CascadeOpen) ∧
    (calling (masked 0xFF#8 0x00#8) [.picDisable]).Quiet ∧
    ((0xFF#8 : Byte).getLsbD 2 = true ∧ (0x00#8 : Byte) ≠ 0xFF#8) ∧
    ((calling (masked 0xFB#8 0xFE#8) [.disableIrq 2]).Quiet ∧
      (masked 0xFB#8 0xFE#8).pic2.imr ≠ 0xFF#8) :=
  ⟨⟨(quiet_masked _ _ _).1, (quiet_masked _ _ _).2, by intro _; decide⟩, (quiet_masked _ _ _).1,
    by decide, (quiet_masked _ _ _).1, by decide⟩

theorem witness_InterruptedMaskUpdateIsLost :
    ∃ s : State, s.BothReady ∧ s.failure = none ∧ s.stack = [] ∧ s.program = [.enableIrq 1] ∧
      s.schedule = [.driver, .driver, .handler (.enableIrq 0)] :=
  ⟨{ calling (masked 0xFF#8 0xFF#8) [.enableIrq 1] with
      schedule := [.driver, .driver, .handler (.enableIrq 0)] }, ⟨rfl, rfl⟩, rfl, rfl, rfl, rfl⟩

theorem witness_NewAcceptsTheCanonicalBases :
    (calling demo [.serialNew 0x4E8#16]).Quiet ∧ Com.base .com8 = 0x4E8#16 ∧
      ¬ ∃ u : Com, u.base = 0xFFFF#16 :=
  ⟨⟨rfl, rfl, rfl⟩, rfl, by rintro ⟨u, h⟩; cases u <;> cases h⟩

theorem witness_UartInitReachesItsEndState :
    (calling (withCom1 latched) [.uartInit .com1]).Quiet ∧
      (calling (withCom1 latched) [.uartInit .com1]).uart .com1 = some latched :=
  quiet_com1 _ _

/-- One poll before the transmitter takes the byte, and none. -/
theorem witness_SendRawReadsStatusUntilReady :
    ∀ n, n = 0 ∨ n = 1 → ∃ s : State, s.failure = none ∧ s.stack = [] ∧
      s.program = [.sendRaw .com1 0x41#8] ∧ s.uart .com1 = some (serial [] [0x40#8]) ∧
      (serial [] [0x40#8]).inited = true ∧ (serial [] [0x40#8]).lcr.getLsbD 7 = false ∧
      (serial [] [0x40#8]).txPending = [0x40#8] ∧
      s.schedule = .driver :: (List.replicate n .driver ++ [.event (.txShift .com1)]) :=
  fun n _ => ⟨{ calling (withCom1 (serial [] [0x40#8])) [.sendRaw .com1 0x41#8] with
    schedule := .driver :: (List.replicate n .driver ++ [.event (.txShift .com1)]) },
    rfl, rfl, rfl, rfl, rfl, by decide, rfl, rfl⟩

theorem witness_SendRawSpinsOnAStuckTransmitter :
    ((calling (withCom1 (serial [] [0x40#8])) [.sendRaw .com1 0x41#8]).Quiet ∧
      (calling (withCom1 (serial [] [0x40#8])) [.sendRaw .com1 0x41#8]).uart .com1 =
        some (serial [] [0x40#8])) ∧
      (serial [] [0x40#8]).inited = true ∧ (serial [] [0x40#8]).txPending ≠ [] :=
  ⟨quiet_com1 _ _, rfl, by decide⟩

theorem witness_ReceiveReturnsTheOldestByte :
    ((calling (withCom1 (serial [0x68#8] [])) [.receive .com1]).Quiet ∧
      (calling (withCom1 (serial [0x68#8] [])) [.receive .com1]).uart .com1 =
        some (serial [0x68#8] [])) ∧
    ((calling (withCom1 (serial [] [])) [.receive .com1]).Quiet ∧
      (calling (withCom1 (serial [] [])) [.receive .com1]).uart .com1 = some (serial [] [])) ∧
    (serial [] []).inited = true ∧ (serial [0x68#8] []).lcr.getLsbD 7 = false :=
  ⟨quiet_com1 _ _, quiet_com1 _ _, rfl, by decide⟩

theorem witness_SendAndWriteStrExtendTheLineInOrder :
    (∃ s : State, s.failure = none ∧ s.stack = [] ∧ s.program = [.send .com1 0x7F#8] ∧
      s.uart .com1 = some (serial [] []) ∧ (serial [] []).inited = true ∧
      (serial [] []).lcr.getLsbD 7 = false ∧ (serial [] []).txPending = [] ∧
      s.schedule = .driver :: (sent 0x7F#8).flatMap (fun _ => keepingUp .com1)) ∧
    (∃ s : State, s.failure = none ∧ s.stack = [] ∧
      s.program = [.writeStr .com1 [0x61#8, 0x08#8]] ∧ s.uart .com1 = some (serial [] []) ∧
      s.schedule = .driver ::
        ([0x61#8, 0x08#8].flatMap sent).flatMap (fun _ => keepingUp .com1)) ∧
    (calling demo [.writeStr .com1 []]).Quiet :=
  ⟨⟨{ calling (withCom1 (serial [] [])) [.send .com1 0x7F#8] with
      schedule := .driver :: (sent 0x7F#8).flatMap (fun _ => keepingUp .com1) },
      rfl, rfl, rfl, rfl, rfl, by decide, rfl, rfl⟩,
    ⟨{ calling (withCom1 (serial [] [])) [.writeStr .com1 [0x61#8, 0x08#8]] with
      schedule := .driver ::
        ([0x61#8, 0x08#8].flatMap sent).flatMap (fun _ => keepingUp .com1) },
      rfl, rfl, rfl, rfl, rfl⟩,
    ⟨rfl, rfl, rfl⟩⟩

theorem witness_SerialOperationsNeedInit :
    (calling (withCom1 .powerOn) [.receive .com1]).Quiet ∧
      (calling (withCom1 .powerOn) [.receive .com1]).uart .com1 = some .powerOn ∧
      Uart.powerOn.inited = false :=
  ⟨(quiet_com1 _ _).1, (quiet_com1 _ _).2, rfl⟩

end Sys2Proof.Tests
end

section
/-! The driver's port accesses on its own turn (00_scope.md rules R8 and R31): one access at a port
that gives a word is `exec` of the decoded instruction, and each action of a call continues from its
answer. -/

namespace Sys2Proof.Machine

/-! ## Marking an instance initialised -/

@[simp] theorem markInited_uart_same (s : State) (u : Com) :
    (s.markInited u).uart u = (s.uart u).map (fun d => { d with inited := true }) := by
  cases h : s.uart u with
  | none => rw [markInited_of_absent h, h, Option.map_none]
  | some d => rw [markInited_of_present h, setUart_uart_same, Option.map_some]

theorem markInited_uart_ne (s : State) (u v : Com) (hv : v ≠ u) :
    (s.markInited u).uart v = s.uart v := by
  cases h : s.uart u with
  | none => rw [markInited_of_absent h]
  | some d => rw [markInited_of_present h, setUart_uart_ne s u v _ hv]

/-! ## One access on the driver's turn -/

/-- With no other agent scheduled the step is the next action of the top call. -/
theorem step_eq_act {s : State} {a : Action} {f : Frame} {rest : List Action}
    {below : List Frame} (hsched : s.schedule = []) (hfail : s.failure = none)
    (hstack : s.stack = f :: below) (htodo : f.todo = a :: rest) :
    step s = act issue a f rest below s := by
  rw [step, turn_of_empty_schedule hsched, driverTurn_act hfail hstack htodo]

/-- An access at a port that gives the word `w` answers what `exec` answers for the instruction `w`
decodes to. -/
theorem issueAt_of_wordAt {s : State} {w : TxnWord} {i : Instr} {write : Bool} {port : Port}
    {data : Byte} (hw : wordAt (fun u => (s.uart u).isSome) write port data = some w)
    (hd : decode (s.selectors w) w = .ok i) : issueAt issue write port data s = exec i s := by
  simp only [issueAt, hw]
  exact issue_of_decode hd

section
variable {s r : State} {f : Frame} {rest : List Action} {below : List Frame} {port : Port}

theorem act_output {e : ByteExpr} (h : issueAt issue true port (e.eval f) s = .next r) :
    act issue (.output port e) f rest below s = .next (r.goOn f rest below) := by
  simp only [act, h, andThen_next]

theorem act_outputLast {u : Com} {e : ByteExpr}
    (h : issueAt issue true port (e.eval f) s = .next r) :
    act issue (.outputLast u port e) f rest below s =
      .next ((r.markInited u).goOn f rest below) := by
  simp only [act, h, andThen_next]

theorem act_input {dst : Slot} (h : issueAt issue false port 0x00#8 s = .next r) :
    act issue (.input port dst) f rest below s =
      .next (r.goOn (f.store dst r.returned) rest below) := by
  simp only [act, h, andThen_next]

/-- A polling pass leaves the call as it stands when no bit of the mask is set. -/
theorem act_poll {mask : Byte} (htodo : f.todo = .poll port mask :: rest)
    (h : issueAt issue false port 0x00#8 s = .next r) :
    act issue (.poll port mask) f rest below s = .next { r with stack :=
      (if r.returned &&& mask = 0x00#8 then f else { f with todo := rest }) :: below } := by
  simp only [act, h, andThen_next, State.goOn, ← htodo]
  split
  · rfl
  · rfl

end

end Sys2Proof.Machine
end

section
namespace Sys2Proof.Claims

open Sys2Proof.Machine

/-- Settles O6: the access answers `exec` of the decoded instruction, and each kind of action goes
on from that state. -/
theorem driverAccessesRunTheDecodedInstruction :
    Obligations.DriverAccessesRunTheDecodedInstruction := by
  unfold Obligations.DriverAccessesRunTheDecodedInstruction
  intro s r f rest below w i port hsched hfail hstack hdecode hexec
  have acts : ∀ {a : Action}, f.todo = a :: rest → step s = act issue a f rest below s :=
    fun htodo => step_eq_act hsched hfail hstack htodo
  have answer : ∀ {write : Bool} {data : Byte},
      wordAt (fun u => (s.uart u).isSome) write port data = some w →
      issueAt issue write port data s = .next r :=
    fun hw => (issueAt_of_wordAt hw hdecode).trans hexec
  refine ⟨fun e htodo hw => ?output, fun u e htodo hw => ?outputLast, fun htodo hw => ?inputX,
    fun htodo hw => ?inputY, fun mask htodo hw => ?poll⟩
  case output => exact (acts htodo).trans (act_output (answer hw))
  case outputLast =>
    refine ⟨_, (acts htodo).trans (act_outputLast (answer hw)), ?_, ?_, fun v hv => ?_⟩
    · rw [State.goOn, markInited_uarts_only]
    · rw [goOn_uart, markInited_uart_same]
    · rw [goOn_uart, markInited_uart_ne r u v hv]
  case inputX => exact (acts htodo).trans (act_input (answer hw))
  case inputY => exact (acts htodo).trans (act_input (answer hw))
  case poll => exact (acts htodo).trans (act_poll htodo (answer hw))

end Sys2Proof.Claims
end

section
/-! What one transaction does to each device, said once per kind of row with all of its guard and
effect: the proofs over a controller or a UART are case analyses of the two command relations here. -/

namespace Sys2Proof.Machine

/-! ## The rows of a controller, once for both -/

/-- An instruction is one of the ten rows of a controller or a row of a UART. -/
theorem instr_cases {motive : Instr → Prop}
    (icw1 : ∀ c, motive (.icw1 c)) (icw2 : ∀ c b, motive (.icw2 c b))
    (icw3 : ∀ c, motive (.icw3 c)) (icw4 : ∀ c, motive (.icw4 c))
    (ocw1 : ∀ c b, motive (.ocw1 c b)) (rdImr : ∀ c, motive (.rdImr c))
    (eoi : ∀ c, motive (.eoi c)) (selIrr : ∀ c, motive (.selIrr c))
    (selIsr : ∀ c, motive (.selIsr c)) (rdSel : ∀ c, motive (.rdSel c))
    (uart : ∀ i u, i.site = .inr u → motive i) (i : Instr) : motive i := by
  cases i with
  | pic1Icw1 => exact icw1 .P
  | pic1Icw2 b => exact icw2 .P b
  | pic1Icw3 => exact icw3 .P
  | pic1Icw4 => exact icw4 .P
  | pic1Ocw1 b => exact ocw1 .P b
  | pic1RdImr => exact rdImr .P
  | pic1Eoi => exact eoi .P
  | pic1SelIrr => exact selIrr .P
  | pic1SelIsr => exact selIsr .P
  | pic1RdSel => exact rdSel .P
  | pic2Icw1 => exact icw1 .S
  | pic2Icw2 b => exact icw2 .S b
  | pic2Icw3 => exact icw3 .S
  | pic2Icw4 => exact icw4 .S
  | pic2Ocw1 b => exact ocw1 .S b
  | pic2RdImr => exact rdImr .S
  | pic2Eoi => exact eoi .S
  | pic2SelIrr => exact selIrr .S
  | pic2SelIsr => exact selIsr .S
  | pic2RdSel => exact rdSel .S
  | _ => exact uart _ _ rfl

theorem exec_icw1 (c : Ctl) (s : State) : exec (.icw1 c) s = icw1At (.icw1 c) c s := by
  cases c <;> rfl
theorem exec_icw2 (c : Ctl) (b : Byte) (s : State) :
    exec (.icw2 c b) s = icw2At (.icw2 c b) c b s := by
  cases c <;> rfl
theorem exec_icw3 (c : Ctl) (s : State) :
    exec (.icw3 c) s = picWrite (.icw3 c) c .waitIcw3 (·.icw3Effect c.icw3Byte) s := by
  cases c <;> rfl
theorem exec_icw4 (c : Ctl) (s : State) :
    exec (.icw4 c) s = picWrite (.icw4 c) c .waitIcw4 (·.icw4Effect icw4Byte) s := by
  cases c <;> rfl
theorem exec_ocw1 (c : Ctl) (b : Byte) (s : State) :
    exec (.ocw1 c b) s = picWrite (.ocw1 c b) c .ready (fun p => { p with imr := b }) s := by
  cases c <;> rfl
theorem exec_rdImr (c : Ctl) (s : State) :
    exec (.rdImr c) s = picRead (.rdImr c) c (s.pic c).imr s := by
  cases c <;> rfl
theorem exec_eoi (c : Ctl) (s : State) :
    exec (.eoi c) s = picWrite (.eoi c) c .ready (·.endOfInterrupt) s := by
  cases c <;> rfl
theorem exec_selIrr (c : Ctl) (s : State) :
    exec (.selIrr c) s =
      picWrite (.selIrr c) c .ready (fun p => { p with readSel := .selIrr }) s := by
  cases c <;> rfl
theorem exec_selIsr (c : Ctl) (s : State) :
    exec (.selIsr c) s =
      picWrite (.selIsr c) c .ready (fun p => { p with readSel := .selIsr }) s := by
  cases c <;> rfl
theorem exec_rdSel (c : Ctl) (s : State) :
    exec (.rdSel c) s = picRead (.rdSel c) c (s.selected c) s := by
  cases c <;> rfl

/-! ## What a transaction does to a controller -/

/-- `PicCommand c p i q`: the write `i` is admitted at controller `c` in the state `p` and takes it
to `q`. -/
inductive PicCommand (c : Ctl) (p : Pic) : Instr → Pic → Prop
  | icw1 : PicCommand c p (.icw1 c) p.icw1Effect
  | icw2 (b : Byte) (admitted : icw2Admitted b = true) (awaited : p.phase = .waitIcw2) :
    PicCommand c p (.icw2 c b) (p.icw2Effect b)
  | icw3 (awaited : p.phase = .waitIcw3) : PicCommand c p (.icw3 c) (p.icw3Effect c.icw3Byte)
  | icw4 (awaited : p.phase = .waitIcw4) : PicCommand c p (.icw4 c) (p.icw4Effect icw4Byte)
  | ocw1 (b : Byte) (ready : p.phase = .ready) : PicCommand c p (.ocw1 c b) { p with imr := b }
  | eoi (ready : p.phase = .ready) : PicCommand c p (.eoi c) p.endOfInterrupt
  | selIrr (ready : p.phase = .ready) : PicCommand c p (.selIrr c) { p with readSel := .selIrr }
  | selIsr (ready : p.phase = .ready) : PicCommand c p (.selIsr c) { p with readSel := .selIsr }

theorem PicCommand.not_isRead {c : Ctl} {p q : Pic} {i : Instr} (h : PicCommand c p i q) :
    i.isRead = false := by
  cases h <;> cases c <;> rfl

/-- The end of a transaction changes no device. -/
theorem finish_pic {at? : Option Ctl} {w : TxnWord} {s t r : State}
    (h : finish at? w s t = .next r) (c : Ctl) : r.pic c = t.pic c := by
  obtain rfl := finish_next_iff.1 h
  rfl

theorem finish_uart {at? : Option Ctl} {w : TxnWord} {s t r : State}
    (h : finish at? w s t = .next r) (u : Com) : r.uart u = t.uart u := by
  obtain rfl := finish_next_iff.1 h
  rfl

section
variable {i : Instr} {c : Ctl} {needed : Phase} {device : Pic → Pic} {s r : State}

theorem finish_setPic_cases {p : Pic} (h : finish (some c) (encode i) s (s.setPic c p) = .next r)
    (hcmd : PicCommand c (s.pic c) i p) (d : Ctl) :
    r.pic d = s.pic d ∨ PicCommand d (s.pic d) i (r.pic d) := by
  rw [finish_pic h d]
  by_cases hd : d = c
  · subst hd
    rw [setPic_pic_same]
    exact .inr hcmd
  · exact .inl (setPic_pic_ne s c d p hd)

theorem picWrite_pic_cases (h : picWrite i c needed device s = .next r)
    (hcmd : (s.pic c).phase = needed → PicCommand c (s.pic c) i (device (s.pic c))) (d : Ctl) :
    r.pic d = s.pic d ∨ PicCommand d (s.pic d) i (r.pic d) := by
  obtain ⟨hphase, hfinish⟩ := picWrite_next_iff.1 h
  exact finish_setPic_cases hfinish (hcmd hphase) d

theorem picRead_pic {value : Byte} (h : picRead i c value s = .next r) (d : Ctl) :
    r.pic d = s.pic d := by
  rw [finish_pic (picRead_next_iff.1 h).2 d]
  rfl

theorem icw2At_next_iff {b : Byte} :
    icw2At i c b s = .next r ↔
      icw2Admitted b = true ∧ picWrite i c .waitIcw2 (·.icw2Effect b) s = .next r := by
  unfold icw2At
  split <;> simp_all

/-- A transaction at a UART leaves both controllers alone. -/
theorem exec_uart_site_pic {u : Com} (hsite : i.site = .inr u) (h : exec i s = .next r) (c : Ctl) :
    r.pic c = s.pic c := by
  rcases exec_next_cases h with ⟨_, _, hctl, -⟩ | ⟨_, _, hctl, -⟩ | ⟨_, _, _, -, -, -, -, hf⟩ |
    ⟨_, _, _, _, -, -, -, -, hf⟩ | ⟨_, _, -, -, hf⟩
  · rw [hsite] at hctl
    cases hctl
  · rw [hsite] at hctl
    cases hctl
  all_goals
    rw [finish_pic hf c]
    rfl

/-- A transaction leaves a controller as it was, or is one of its commands. -/
theorem exec_pic_cases (h : exec i s = .next r) (d : Ctl) :
    r.pic d = s.pic d ∨ PicCommand d (s.pic d) i (r.pic d) := by
  induction i using instr_cases with
  | icw1 c => exact finish_setPic_cases (by rwa [exec_icw1] at h) .icw1 d
  | icw2 c b =>
    rw [exec_icw2] at h
    obtain ⟨hb, h⟩ := icw2At_next_iff.1 h
    exact picWrite_pic_cases h (.icw2 b hb) d
  | icw3 c =>
    rw [exec_icw3] at h
    exact picWrite_pic_cases h .icw3 d
  | icw4 c =>
    rw [exec_icw4] at h
    exact picWrite_pic_cases h .icw4 d
  | ocw1 c b =>
    rw [exec_ocw1] at h
    exact picWrite_pic_cases h (.ocw1 b) d
  | eoi c =>
    rw [exec_eoi] at h
    exact picWrite_pic_cases h .eoi d
  | selIrr c =>
    rw [exec_selIrr] at h
    exact picWrite_pic_cases h .selIrr d
  | selIsr c =>
    rw [exec_selIsr] at h
    exact picWrite_pic_cases h .selIsr d
  | rdImr c =>
    rw [exec_rdImr] at h
    exact .inl (picRead_pic h d)
  | rdSel c =>
    rw [exec_rdSel] at h
    exact .inl (picRead_pic h d)
  | uart i u hsite => exact .inl (exec_uart_site_pic hsite h d)

end

/-! ## What a transaction does to a UART -/

/-- `UartCommand u d i e`: the transaction `i` is admitted at UART `u` in the state `d` and takes it
to `e`. The read of the line status is none: it leaves the UART alone. -/
inductive UartCommand (u : Com) (d : Uart) : Instr → Uart → Prop
  | thrWr (b : Byte) (dlab : d.dlab = false) (idle : d.txPending = []) :
    UartCommand u d (.uartThrWr u b) { d with txPending := [b] }
  | rbrRd (b : Byte) (rest : List Byte) (dlab : d.dlab = false) (received : d.rxFifo = b :: rest) :
    UartCommand u d (.uartRbrRd u) { d with rxFifo := rest }
  | dllWr (b : Byte) (dlab : d.dlab = true) : UartCommand u d (.uartDllWr u b) { d with dll := b }
  | dlmWr (b : Byte) (dlab : d.dlab = true) : UartCommand u d (.uartDlmWr u b) { d with dlm := b }
  | ierWr (b : Byte) (admitted : ierAdmitted b = true) (dlab : d.dlab = false) :
    UartCommand u d (.uartIerWr u b) { d with ier := b }
  | fcrWr : UartCommand u d (.uartFcrWr u) d.fcrEffect
  | lcrWr (b : Byte) (admitted : lcrAdmitted b = true) :
    UartCommand u d (.uartLcrWr u b) { d with lcr := b }
  | mcrWr : UartCommand u d (.uartMcrWr u) { d with mcr := mcrByte }

section
variable {i : Instr} {u : Com} {s r : State}

theorem finish_setUart_cases {w : TxnWord} {d e : Uart} {t : State}
    (h : finish none w s t = .next r) (ht : t.uarts = s.uarts.set u e) (hd : s.uart u = some d)
    (hcmd : UartCommand u d i e) (v : Com) :
    r.uart v = s.uart v ∨
      ∃ d e, s.uart v = some d ∧ r.uart v = some e ∧ UartCommand v d i e := by
  have hr : r.uart v = (s.uarts.set u e).get v := by rw [finish_uart h v, State.uart, ht]
  by_cases hv : v = u
  · subst hv
    rw [get_set_same] at hr
    exact .inr ⟨d, e, hd, hr, hcmd⟩
  · rw [get_set_ne _ _ _ _ hv] at hr
    exact .inl hr

theorem uartWrite_uart_cases {device : Uart → Uart} (h : uartWrite i u device s = .next r)
    (hcmd : ∀ d, UartCommand u d i (device d)) (v : Com) :
    r.uart v = s.uart v ∨
      ∃ d e, s.uart v = some d ∧ r.uart v = some e ∧ UartCommand v d i e := by
  obtain ⟨d, hd, hfinish⟩ := uartWrite_next_iff.1 h
  exact finish_setUart_cases hfinish rfl hd (hcmd d) v

theorem uartLatchedWrite_uart_cases {dlab : Bool} {device : Uart → Uart}
    (h : uartLatchedWrite i u dlab device s = .next r)
    (hcmd : ∀ d, d.dlab = dlab → UartCommand u d i (device d)) (v : Com) :
    r.uart v = s.uart v ∨
      ∃ d e, s.uart v = some d ∧ r.uart v = some e ∧ UartCommand v d i e := by
  obtain ⟨d, hd, hdlab, hfinish⟩ := uartLatchedWrite_next_iff.1 h
  exact finish_setUart_cases hfinish rfl hd (hcmd d hdlab) v

/-- A transaction at a controller leaves every UART alone. -/
theorem exec_pic_site_uart {c : Ctl} (hsite : i.site = .inl c) (h : exec i s = .next r) (v : Com) :
    r.uart v = s.uart v := by
  rcases exec_next_cases h with ⟨_, _, -, -, hf⟩ | ⟨_, _, -, -, hf⟩ | ⟨_, _, _, hu, -⟩ |
    ⟨_, _, _, _, hu, -⟩ | ⟨_, _, hu, -⟩
  · rw [finish_uart hf v, setPic_uart]
  · rw [finish_uart hf v, setReturned_uart]
  all_goals
    rw [hsite] at hu
    cases hu

/-- A transaction leaves a UART as it was, or is one of its commands. -/
theorem exec_uart_cases (h : exec i s = .next r) (v : Com) :
    r.uart v = s.uart v ∨
      ∃ d e, s.uart v = some d ∧ r.uart v = some e ∧ UartCommand v d i e := by
  cases i with
  | uartThrWr u b =>
    simp only [exec, execUartThrWr] at h
    split at h
    · rename_i d hd
      split_ifs at h with hdlab hidle
      exact finish_setUart_cases h rfl hd (.thrWr b hdlab hidle) v
    · cases h
  | uartRbrRd u =>
    simp only [exec, execUartRbrRd] at h
    split at h
    · rename_i d hd
      split_ifs at h with hdlab
      split at h
      · rename_i b rest hrx
        exact finish_setUart_cases h rfl hd (.rbrRd b rest hdlab hrx) v
      · cases h
    · cases h
  | uartDllWr u b => exact uartLatchedWrite_uart_cases h (fun _ => .dllWr b) v
  | uartDlmWr u b => exact uartLatchedWrite_uart_cases h (fun _ => .dlmWr b) v
  | uartIerWr u b =>
    simp only [exec, execUartIerWr] at h
    split_ifs at h with hb
    exact uartLatchedWrite_uart_cases h (fun _ => .ierWr b hb) v
  | uartFcrWr u => exact uartWrite_uart_cases h (fun _ => .fcrWr) v
  | uartLcrWr u b =>
    simp only [exec, execUartLcrWr] at h
    split_ifs at h with hb
    exact uartWrite_uart_cases h (fun _ => .lcrWr b hb) v
  | uartMcrWr u => exact uartWrite_uart_cases h (fun _ => .mcrWr) v
  | uartLsrRd u =>
    simp only [exec, execUartLsrRd] at h
    split at h
    · exact .inl (finish_uart h v)
    · cases h
  | _ => exact .inl (exec_pic_site_uart rfl h v)

end

/-! ## What a transaction does besides -/

/-- One word joins the trace, and it is the instruction's own word unless the device gave its byte. -/
theorem exec_trace {i : Instr} {s r : State} (h : exec i s = .next r) :
    ∃ w, r.trace = s.trace ++ [w] ∧ (i.isRead = false → w = encode i) := by
  rcases exec_next_cases h with ⟨_, _, -, -, hf⟩ | ⟨_, _, -, hread, hf⟩ | ⟨_, _, _, -, -, -, -, hf⟩ |
    ⟨_, _, _, _, -, hread, -, -, hf⟩ | ⟨_, _, -, hread, hf⟩
  all_goals
    obtain rfl := finish_next_iff.1 hf
    refine ⟨_, rfl, ?_⟩
    simp [*]

/-- The parameters and the vectors stay, and `int_dropped` is set only where spurious acknowledges
are modelled. -/
theorem exec_frame {i : Instr} {s r : State} (h : exec i s = .next r) :
    r.params = s.params ∧ r.vectors = s.vectors ∧
      (s.params.spuriousModelled = false → r.intDropped = none) := by
  rcases exec_next_cases h with ⟨_, _, -, -, hf⟩ | ⟨_, _, -, -, hf⟩ | ⟨_, _, _, -, -, -, -, hf⟩ |
    ⟨_, _, _, _, -, -, -, -, hf⟩ | ⟨_, _, -, -, hf⟩
  all_goals
    obtain rfl := finish_next_iff.1 hf
    simp +contextual [intDroppedAfter]

end Sys2Proof.Machine
end

section
/-! What one step does to each device and to the observations: the case analysis of a step is made
here once per part of the state. -/

namespace Sys2Proof.Machine

/-! ## A controller -/

/-- What an event can do to a controller: request and in-service bits move, and bit 2 of the primary's
request register is not set (10_state.md rule R19). -/
def Pic.LinesMoved (c : Ctl) (p q : Pic) : Prop :=
  ∃ irr isr, (c = .P → irr.getLsbD 2 = true → p.irr.getLsbD 2 = true) ∧
    q = { p with irr := irr, isr := isr }

theorem Pic.LinesMoved.refl (c : Ctl) (p : Pic) : p.LinesMoved c p :=
  ⟨p.irr, p.isr, fun _ => id, rfl⟩

theorem occur_pic (e : Event) (s : State) (c : Ctl) :
    (s.pic c).LinesMoved c ((occur e s).pic c) := by
  rcases occur_cases e s with h | h | ⟨d, irr, hbit, h⟩ | ⟨irr1, isr1, irr2, isr2, _, hbit, h⟩ |
    ⟨_, _, _, _, _, -, -, -, -, h⟩ <;> rw [h]
  · exact .refl c _
  · exact .refl c _
  · by_cases hc : c = d
    · subst hc
      refine ⟨irr, (s.pic c).isr, fun hP hset => ?_, setPic_pic_same s c _⟩
      rwa [hbit hP, ← hP] at hset
    · exact (setPic_pic_ne s d c _ hc).symm ▸ .refl c _
  · cases c with
    | P => exact ⟨irr1, isr1, fun _ => hbit, rfl⟩
    | S => exact ⟨irr2, isr2, nofun, rfl⟩
  · exact .refl c _

/-- A step moves the request and in-service bits of a controller, or carries out one of its
commands, whose word joins the trace. -/
theorem step_pic_cases {s t : State} (h : step s = .next t) (c : Ctl) :
    (s.pic c).LinesMoved c (t.pic c) ∨
      ∃ i, PicCommand c (s.pic c) i (t.pic c) ∧ t.trace = s.trace ++ [encode i] := by
  obtain ⟨later, ⟨e, -, rfl⟩ | ⟨i, r, stack, hexec, ht⟩ | ⟨_, _, _, rfl⟩ | ⟨_, _, _, rfl⟩⟩ :=
    step_next_cases h
  · exact .inl (occur_pic e { s with schedule := later } c)
  · have hpic : t.pic c = r.pic c := by
      rcases ht with rfl | ⟨u, rfl⟩
      · rfl
      · cases c
        · exact markInited_pic1 r u
        · exact markInited_pic2 r u
    have htrace : t.trace = r.trace := by
      rcases ht with rfl | ⟨u, rfl⟩
      · rfl
      · exact markInited_trace r u
    rw [hpic, htrace]
    rcases exec_pic_cases hexec c with hsame | hcmd
    · exact .inl (hsame ▸ .refl c _)
    · obtain ⟨w, hr, hw⟩ := exec_trace hexec
      exact .inr ⟨i, hcmd, hr.trans (by rw [hw hcmd.not_isRead])⟩
  · exact .inl (.refl c _)
  · exact .inl (.refl c _)

/-! ## A UART -/

/-- What one step can do to a UART: its invariant is kept and at most one byte joins its line. -/
structure Uart.Advances (d e : Uart) : Prop where
  inv : d.Inv → e.Inv
  line : e.txLine = d.txLine ∨ ∃ b, e.txLine = d.txLine ++ [b]

theorem Uart.Advances.refl (d : Uart) : d.Advances d := ⟨id, .inl rfl⟩

theorem Uart.Advances.inited {d e : Uart} (h : d.Advances e) (b : Bool) :
    d.Advances { e with inited := b } :=
  ⟨fun hd => ⟨(h.inv hd).received, (h.inv hd).pending, (h.inv hd).trigger⟩, h.line⟩

theorem UartCommand.keeps_inv {u : Com} {d e : Uart} {i : Instr} (h : UartCommand u d i e)
    (hd : d.Inv) : e.Inv := by
  obtain ⟨hrx, htx, htrigger⟩ := hd
  cases h with
  | thrWr b => exact ⟨hrx, Nat.le_refl 1, htrigger⟩
  | rbrRd b rest dlab received =>
    rw [received, List.length_cons] at hrx
    exact ⟨Nat.le_of_succ_le hrx, htx, htrigger⟩
  | fcrWr => exact ⟨Nat.zero_le _, Nat.zero_le _, fun _ => rfl⟩
  | _ => exact ⟨hrx, htx, htrigger⟩

theorem UartCommand.keeps_line {u : Com} {d e : Uart} {i : Instr} (h : UartCommand u d i e) :
    e.txLine = d.txLine := by
  cases h <;> rfl

theorem UartCommand.advances {u : Com} {d e : Uart} {i : Instr} (h : UartCommand u d i e) :
    d.Advances e := ⟨h.keeps_inv, .inl h.keeps_line⟩

theorem advances_refl (o : Option Uart) : Option.Rel Uart.Advances o o := by
  cases o with
  | none => exact .none
  | some d => exact .some (.refl d)

theorem occur_uart (e : Event) (s : State) (u : Com) :
    Option.Rel Uart.Advances (s.uart u) ((occur e s).uart u) := by
  rcases occur_cases e s with h | h | ⟨_, _, -, h⟩ | ⟨_, _, _, _, _, -, h⟩ |
    ⟨v, d, rx, tx, line, hd, hrx, htx, hline, h⟩ <;> rw [h]
  · exact advances_refl _
  · exact advances_refl _
  · exact (setPic_uart s _ _ u).symm ▸ advances_refl _
  · exact advances_refl _
  · show Option.Rel _ _ ((s.setUart v _).uart u)
    by_cases hv : u = v
    · subst hv
      rw [setUart_uart_same, hd]
      exact .some ⟨fun hinv => ⟨hrx hinv.received, htx hinv.pending, hinv.trigger⟩, hline⟩
    · exact (setUart_uart_ne s v u _ hv).symm ▸ advances_refl _

theorem exec_uart {i : Instr} {s r : State} (h : exec i s = .next r) (u : Com) :
    Option.Rel Uart.Advances (s.uart u) (r.uart u) := by
  rcases exec_uart_cases h u with hsame | ⟨d, e, hd, he, hcmd⟩
  · exact hsame ▸ advances_refl _
  · rw [hd, he]
    exact .some hcmd.advances

theorem markInited_advances {o : Option Uart} {r : State} {u : Com}
    (h : Option.Rel Uart.Advances o (r.uart u)) (v : Com) :
    Option.Rel Uart.Advances o ((r.markInited v).uart u) := by
  by_cases hv : u = v
  · subst hv
    rw [markInited_uart_same]
    generalize r.uart u = p at h ⊢
    cases h with
    | none => exact .none
    | some hde => exact .some (hde.inited true)
  · rwa [markInited_uart_ne r v u hv]

/-- No step makes a UART come or go, and each that is present advances. -/
theorem step_uart {s t : State} (h : step s = .next t) (u : Com) :
    Option.Rel Uart.Advances (s.uart u) (t.uart u) := by
  obtain ⟨later, ⟨e, -, rfl⟩ | ⟨i, r, stack, hexec, rfl | ⟨v, rfl⟩⟩ | ⟨_, _, _, rfl⟩ |
    ⟨_, _, _, rfl⟩⟩ := step_next_cases h
  · exact occur_uart e { s with schedule := later } u
  · exact exec_uart hexec u
  · exact markInited_advances (exec_uart hexec u) v
  · exact advances_refl _
  · exact advances_refl _

/-! ## The observations and `int_dropped` -/

/-- What one step can do to the two traces and to `int_dropped`. -/
structure State.Advances (s t : State) : Prop where
  trace : t.trace = s.trace ∨ ∃ w, t.trace = s.trace ++ [w]
  vectors : t.vectors = s.vectors ∨ ∃ v, t.vectors = s.vectors ++ [v]
  params : t.params = s.params
  dropped : s.params.spuriousModelled = false → t.intDropped = s.intDropped ∨ t.intDropped = none

theorem occur_advances (e : Event) (s : State) : s.Advances (occur e s) := by
  rcases occur_cases e s with h | h | ⟨_, _, -, h⟩ | ⟨_, _, _, _, v, -, h⟩ |
    ⟨_, _, _, _, _, -, -, -, -, h⟩ <;> rw [h]
  · exact ⟨.inl rfl, .inl rfl, rfl, fun _ => .inl rfl⟩
  · exact ⟨.inl rfl, .inl rfl, rfl, fun _ => .inr rfl⟩
  · exact ⟨.inl (setPic_trace ..), .inl (setPic_vectors ..), setPic_params .., fun _ => .inr rfl⟩
  · exact ⟨.inl rfl, .inr ⟨v, rfl⟩, rfl, fun _ => .inr rfl⟩
  · exact ⟨.inl rfl, .inl rfl, rfl, fun _ => .inr rfl⟩

theorem exec_advances {i : Instr} {s r : State} (h : exec i s = .next r) : s.Advances r := by
  obtain ⟨w, htrace, -⟩ := exec_trace h
  obtain ⟨hparams, hvectors, hdropped⟩ := exec_frame h
  exact ⟨.inr ⟨w, htrace⟩, .inl hvectors, hparams, fun hs => .inr (hdropped hs)⟩

theorem State.Advances.markInited {s r : State} (h : s.Advances r) (u : Com) :
    s.Advances (r.markInited u) := by
  rw [markInited_uarts_only]
  exact ⟨h.trace, h.vectors, h.params, h.dropped⟩

theorem step_advances {s t : State} (h : step s = .next t) : s.Advances t := by
  obtain ⟨later, ⟨e, -, rfl⟩ | ⟨i, r, stack, hexec, rfl | ⟨u, rfl⟩⟩ | ⟨_, _, _, rfl⟩ |
    ⟨_, _, _, rfl⟩⟩ := step_next_cases h
  · have hadv := occur_advances e { s with schedule := later }
    exact ⟨hadv.trace, hadv.vectors, hadv.params, hadv.dropped⟩
  · have hadv := exec_advances hexec
    exact ⟨hadv.trace, hadv.vectors, hadv.params, hadv.dropped⟩
  · have hadv := (exec_advances hexec).markInited u
    exact ⟨hadv.trace, hadv.vectors, hadv.params, hadv.dropped⟩
  · exact ⟨.inl rfl, .inl rfl, rfl, fun _ => .inl rfl⟩
  · exact ⟨.inl rfl, .inl rfl, rfl, fun _ => .inl rfl⟩

/-! ## The invariant -/

theorem Pic.LinesMoved.keeps_inv {c : Ctl} {p q : Pic} (h : p.LinesMoved c q) (hp : p.Inv c) :
    q.Inv c := by
  obtain ⟨irr, isr, hbit, rfl⟩ := h
  refine ⟨fun hc => ?_, hp.vectorBase, hp.latch1, hp.latch3, hp.latch4⟩
  by_contra hset
  have hstored := hp.cascadeNotStored hc
  rw [hbit hc (by simpa using hset)] at hstored
  cases hstored

theorem PicCommand.keeps_inv {c : Ctl} {p q : Pic} {i : Instr} (h : PicCommand c p i q)
    (hp : p.Inv c) : q.Inv c := by
  obtain ⟨hbit, hbase, h1, h3, h4⟩ := hp
  cases h with
  | icw1 =>
    exact ⟨by simp [Pic.icw1Effect], hbase, fun _ => rfl, by simp [Pic.icw1Effect], nofun⟩
  | icw2 b admitted awaited =>
    exact ⟨hbit, by simpa [icw2Admitted, Pic.icw2Effect] using admitted,
      fun _ => h1 (by simp [awaited]), by simp [Pic.icw2Effect], nofun⟩
  | icw3 awaited => exact ⟨hbit, hbase, fun _ => h1 (by simp [awaited]), fun _ => rfl, nofun⟩
  | icw4 awaited =>
    exact ⟨hbit, hbase, fun _ => h1 (by simp [awaited]), fun _ => h3 (.inl awaited), fun _ => rfl⟩
  | eoi ready =>
    rw [endOfInterrupt_keeps]
    exact ⟨hbit, hbase, h1, h3, h4⟩
  | _ => exact ⟨hbit, hbase, h1, h3, h4⟩

theorem step_keeps_pic_inv {s t : State} (h : step s = .next t) {c : Ctl}
    (hinv : (s.pic c).Inv c) : (t.pic c).Inv c := by
  rcases step_pic_cases h c with hmoved | ⟨i, hcmd, -⟩
  · exact hmoved.keeps_inv hinv
  · exact hcmd.keeps_inv hinv

theorem step_keeps_inv {s t : State} (hinv : s.Inv) (h : step s = .next t) : t.Inv where
  primary := step_keeps_pic_inv (c := .P) h hinv.primary
  secondary := step_keeps_pic_inv (c := .S) h hinv.secondary
  serial := by
    intro u e he
    have hadv := step_uart h u
    rw [he] at hadv
    generalize hd : s.uart u = o at hadv
    cases hadv with
    | some hde => exact hde.inv (hinv.serial u _ hd)
  dropped := by
    intro ht
    have hadv := step_advances h
    have hs : s.params.spuriousModelled = false := by rw [← hadv.params, ht]
    rcases hadv.dropped hs with hsame | hnone
    · rw [hsame, hinv.dropped hs]
    · exact hnone

end Sys2Proof.Machine
end

section
/-! The lowest set bit and the output of a controller, in terms of single bits (00_scope.md rule R7,
10_state.md rules R18 and R19), and the state after power-on. -/

namespace Sys2Proof.Machine

/-! ## The lowest set bit -/

theorem lsb_cases (v : Byte) :
    (v = 0x00#8 ∧ lsb v = 8) ∨
      (lsb v < 8 ∧ v.getLsbD (lsb v) = true ∧ ∀ j, j < lsb v → v.getLsbD j = false) := by
  unfold lsb
  split_ifs with h0 h1 h2 h3 h4 h5 h6 h7
  case neg =>
    refine .inl ⟨BitVec.eq_of_getLsbD_eq fun i hi => ?_, rfl⟩
    interval_cases i <;> simp_all
  all_goals
    refine .inr ⟨by decide, by assumption, fun j hj => ?_⟩
    interval_cases j <;> simp_all

theorem lsb_bit {v : Byte} (h : lsb v < 8) : v.getLsbD (lsb v) = true := by
  rcases lsb_cases v with ⟨-, h8⟩ | ⟨-, hbit, -⟩
  · omega
  · exact hbit

theorem lsb_lt_eight_iff {v : Byte} : lsb v < 8 ↔ v ≠ 0x00#8 := by
  rcases lsb_cases v with ⟨rfl, h8⟩ | ⟨hlt, hbit, -⟩
  · simp [h8]
  · refine ⟨fun _ hv => ?_, fun _ => hlt⟩
    simp [hv] at hbit

/-- A set bit bounds the lowest one. -/
theorem lsb_le_of_bit {v : Byte} {i : Nat} (h : v.getLsbD i = true) : lsb v ≤ i := by
  rcases lsb_cases v with ⟨rfl, -⟩ | ⟨-, -, hbelow⟩
  · simp at h
  · by_contra hlt
    rw [hbelow i (by omega)] at h
    cases h

/-- Input `i` has priority over every set bit exactly when no bit up to `i` is set. -/
theorem lt_lsb_iff {v : Byte} {i : Nat} (hi : i < 8) :
    i < lsb v ↔ ∀ j, j ≤ i → v.getLsbD j = false := by
  constructor
  · intro hlt j hj
    by_contra hset
    have := lsb_le_of_bit (Bool.eq_true_of_not_eq_false hset)
    omega
  · intro hclear
    by_contra hle
    have hbit := lsb_bit (v := v) (by omega)
    rw [hclear (lsb v) (by omega)] at hbit
    cases hbit

/-! ## The output of a controller -/

theorem intOut_iff (s : State) (c : Ctl) :
    s.intOut c = true ↔ (s.pic c).phase = .ready ∧ lsb (s.req c) < 8 ∧
      lsb (s.req c) < lsb (s.pic c).isr := by
  rw [lsb_lt_eight_iff]
  simp [State.intOut, Pic.output, State.req, and_assoc]

theorem req_bit {s : State} {c : Ctl} {i : Nat} (hi : i < 8) :
    (s.req c).getLsbD i = true ↔
      (s.irr c).getLsbD i = true ∧ (s.pic c).imr.getLsbD i = false := by
  simp [State.req, hi]

/-- Bit 2 of the primary's request register reads as the secondary's output, the others as stored. -/
theorem irr_P_bit (s : State) {i : Nat} (hi : i < 8) :
    (s.irr .P).getLsbD i = if i = 2 then s.intOut .S else s.pic1.irr.getLsbD i := by
  have hcascade : s.cascade = s.intOut .S := rfl
  unfold State.irr
  rw [hcascade]
  interval_cases i <;> cases s.intOut .S <;> simp

/-! ## Power-on -/

theorem powerOn_pic_inv (c : Ctl) : Pic.powerOn.Inv c :=
  ⟨fun _ => by decide, by decide, by decide, by simp [Pic.powerOn], nofun⟩

theorem powerOn_uart_inv : Uart.powerOn.Inv := ⟨by decide, by decide, nofun⟩

theorem reset_uart (u : Com) : State.reset.uart u = some .powerOn := by
  cases u <;> rfl

end Sys2Proof.Machine
end

section
/-! The words of a controller's commands, by the numbers the statements write them in, and what each
command can change. -/

namespace Sys2Proof.Claims

open Sys2Proof.Machine

/-! ## Words -/

theorem packPic_eq_or (write : Bool) (port : Port) (data : Byte) :
    packPic write port data = packPic write port 0x00#8 ||| data.setWidth 25 := by
  apply BitVec.eq_of_getLsbD_eq
  intro i hi
  rw [BitVec.getLsbD_or, packPic_bit, packPic_bit, BitVec.getLsbD_setWidth]
  split
  · simp [hi]
  · simp [BitVec.getLsbD_of_ge data i (by omega)]

theorem cmdPort_word (c : Ctl) (data : Byte) :
    TxnWord.pic25 (packPic true c.cmdPort data) = cmdWrite c data := by
  rw [packPic_eq_or]
  cases c <;> rfl

theorem dataPort_word (c : Ctl) (data : Byte) :
    TxnWord.pic25 (packPic true c.dataPort data) = dataWrite c data := by
  rw [packPic_eq_or]
  cases c <;> rfl

theorem encode_icw1 (c : Ctl) : encode (.icw1 c) = cmdWrite c 0x11#8 := by
  rw [← cmdPort_word]
  cases c <;> rfl

theorem encode_icw2 (c : Ctl) (b : Byte) : encode (.icw2 c b) = dataWrite c b := by
  rw [← dataPort_word]
  cases c <;> rfl

theorem encode_icw3 (c : Ctl) : encode (.icw3 c) = dataWrite c (atCtl c 0x04#8 0x02#8) := by
  rw [← dataPort_word]
  cases c <;> rfl

theorem encode_icw4 (c : Ctl) : encode (.icw4 c) = dataWrite c 0x01#8 := by
  rw [← dataPort_word]
  cases c <;> rfl

theorem encode_ocw1 (c : Ctl) (b : Byte) : encode (.ocw1 c b) = dataWrite c b := by
  rw [← dataPort_word]
  cases c <;> rfl

theorem encode_selIrr (c : Ctl) : encode (.selIrr c) = cmdWrite c 0x0A#8 := by
  rw [← cmdPort_word]
  cases c <;> rfl

theorem encode_selIsr (c : Ctl) : encode (.selIsr c) = cmdWrite c 0x0B#8 := by
  rw [← cmdPort_word]
  cases c <;> rfl

/-! ## What a command can change -/

section
variable {c : Ctl} {p q : Pic} {i : Instr}

theorem command_imr (h : PicCommand c p i q) :
    q.imr = p.imr ∨ (p.phase = .ready ∧ encode i = dataWrite c q.imr) ∨
      (q.imr = 0x00#8 ∧ encode i = cmdWrite c 0x11#8) := by
  cases h with
  | icw1 => exact .inr (.inr ⟨rfl, encode_icw1 c⟩)
  | ocw1 b ready => exact .inr (.inl ⟨ready, encode_ocw1 c b⟩)
  | eoi => exact .inl (by rw [endOfInterrupt_keeps])
  | _ => exact .inl rfl

theorem command_phase (h : PicCommand c p i q) :
    q.phase = p.phase ∨
      (q.phase = .waitIcw2 ∧ encode i = cmdWrite c 0x11#8) ∨
      (p.phase = .waitIcw2 ∧ q.phase = .waitIcw3 ∧ encode i = dataWrite c q.vbase) ∨
      (p.phase = .waitIcw3 ∧ q.phase = .waitIcw4 ∧
        encode i = dataWrite c (atCtl c 0x04#8 0x02#8)) ∨
      (p.phase = .waitIcw4 ∧ q.phase = .ready ∧ encode i = dataWrite c 0x01#8) := by
  cases h with
  | icw1 => exact .inr (.inl ⟨rfl, encode_icw1 c⟩)
  | icw2 b _ awaited => exact .inr (.inr (.inl ⟨awaited, rfl, encode_icw2 c b⟩))
  | icw3 awaited => exact .inr (.inr (.inr (.inl ⟨awaited, rfl, encode_icw3 c⟩)))
  | icw4 awaited => exact .inr (.inr (.inr (.inr ⟨awaited, rfl, encode_icw4 c⟩)))
  | eoi => exact .inl (by rw [endOfInterrupt_keeps])
  | _ => exact .inl rfl

theorem command_vbase (h : PicCommand c p i q) :
    q.vbase = p.vbase ∨ (p.phase = .waitIcw2 ∧ encode i = dataWrite c q.vbase) := by
  cases h with
  | icw2 b _ awaited => exact .inr ⟨awaited, encode_icw2 c b⟩
  | eoi => exact .inl (by rw [endOfInterrupt_keeps])
  | _ => exact .inl rfl

theorem command_readSel (h : PicCommand c p i q) :
    q.readSel = p.readSel ∨
      (q.readSel = .selIrr ∧ (encode i = cmdWrite c 0x11#8 ∨ encode i = cmdWrite c 0x0A#8)) ∨
      (q.readSel = .selIsr ∧ encode i = cmdWrite c 0x0B#8) := by
  cases h with
  | icw1 => exact .inr (.inl ⟨rfl, .inl (encode_icw1 c)⟩)
  | selIrr => exact .inr (.inl ⟨rfl, .inr (encode_selIrr c)⟩)
  | selIsr => exact .inr (.inr ⟨rfl, encode_selIsr c⟩)
  | eoi => exact .inl (by rw [endOfInterrupt_keeps])
  | _ => exact .inl rfl

end

/-! ## The output -/

/-- The output is on exactly when some input passes: the lowest-numbered request is the one to
compare with the inputs in service. -/
theorem intOut_iff_passes (s : State) (c : Ctl) :
    s.intOut c = true ↔ ∃ i, i < 8 ∧ passes s c i := by
  rw [intOut_iff]
  constructor
  · rintro ⟨hready, hlt, hservice⟩
    obtain ⟨hirr, himr⟩ := (req_bit hlt).1 (lsb_bit hlt)
    exact ⟨_, hlt, hready, hirr, himr, (lt_lsb_iff hlt).1 hservice⟩
  · rintro ⟨i, hi, hready, hirr, himr, hclear⟩
    have hle : lsb (s.req c) ≤ i := lsb_le_of_bit ((req_bit hi).2 ⟨hirr, himr⟩)
    have hservice : i < lsb (s.pic c).isr := (lt_lsb_iff hi).2 hclear
    exact ⟨hready, by omega, by omega⟩

/-! ## The claims -/

/-- Settles O23: each part of the invariant follows from what a step can do to that part. -/
theorem everyStepKeepsTheInvariant : Obligations.EveryStepKeepsTheInvariant :=
  fun _ _ => step_keeps_inv

/-- Settles O28, from what a step can do to the traces and to a UART. -/
theorem observationsOnlyGrow : Obligations.ObservationsOnlyGrow := by
  unfold Obligations.ObservationsOnlyGrow
  intro s t h
  refine ⟨(step_advances h).trace, (step_advances h).vectors, fun u d hd => ?_⟩
  have hadv := step_uart h u
  rw [hd] at hadv
  generalize t.uart u = o at hadv ⊢
  cases hadv with
  | some hde => exact ⟨_, rfl, hde.line⟩

/-- Settles O29: events move request and in-service bits only, and of the commands only these two
write the mask. -/
theorem onlyMaskWriteAndIcw1ChangeAMask : Obligations.OnlyMaskWriteAndIcw1ChangeAMask := by
  unfold Obligations.OnlyMaskWriteAndIcw1ChangeAMask
  intro s t c h hne
  rcases step_pic_cases h c with ⟨_, _, -, heq⟩ | ⟨i, hcmd, htrace⟩
  · rw [heq] at hne
    exact absurd rfl hne
  · rw [htrace]
    rcases command_imr hcmd with hsame | ⟨hready, hword⟩ | ⟨hzero, hword⟩
    · exact absurd hsame hne
    · exact .inl ⟨hready, by rw [hword]⟩
    · exact .inr ⟨hzero, by rw [hword]⟩

/-- Settles O30: events move request and in-service bits only, and each command writes only the
fields its lemma names. -/
theorem onlyTheNamedCommandsMoveTheHiddenState :
    Obligations.OnlyTheNamedCommandsMoveTheHiddenState := by
  unfold Obligations.OnlyTheNamedCommandsMoveTheHiddenState
  intro s t c h
  rcases step_pic_cases h c with ⟨_, _, -, heq⟩ | ⟨i, hcmd, htrace⟩
  · rw [heq]
    exact ⟨fun hne => absurd rfl hne, fun hne => absurd rfl hne, fun hne => absurd rfl hne⟩
  · have word : ∀ {w}, encode i = w → t.trace = s.trace ++ [w] := by
      rintro _ rfl
      exact htrace
    refine ⟨fun hne => ?phase, fun hne => ?vbase, fun hne => ?readSel⟩
    case phase =>
      rcases (command_phase hcmd).resolve_left hne with ⟨h1, hw⟩ | ⟨h1, h2, hw⟩ | ⟨h1, h2, hw⟩ |
        ⟨h1, h2, hw⟩
      · exact .inl ⟨h1, word hw⟩
      · exact .inr (.inl ⟨h1, h2, word hw⟩)
      · exact .inr (.inr (.inl ⟨h1, h2, word hw⟩))
      · exact .inr (.inr (.inr ⟨h1, h2, word hw⟩))
    case vbase =>
      obtain ⟨hphase, hw⟩ := (command_vbase hcmd).resolve_left hne
      exact ⟨hphase, word hw⟩
    case readSel =>
      rcases (command_readSel hcmd).resolve_left hne with ⟨hsel, hw⟩ | ⟨hsel, hw⟩
      · exact .inl ⟨hsel, hw.imp word word⟩
      · exact .inr ⟨hsel, word hw⟩

/-- Settles O33: `lsb` by its eight branches, the output through the lowest-numbered request, and the
cascade input bit by bit. -/
theorem outputAndCascadeFollowTheRules : Obligations.OutputAndCascadeFollowTheRules :=
  ⟨lsb_cases, intOut_iff_passes, fun s _ => irr_P_bit s⟩

/-- Settles O24: every device is powered on, and a powered-on device meets its part. -/
theorem resetMeetsTheInvariant : Obligations.ResetMeetsTheInvariant where
  primary := powerOn_pic_inv .P
  secondary := powerOn_pic_inv .S
  serial := by
    intro u d hd
    rw [reset_uart] at hd
    cases hd
    exact powerOn_uart_inv
  dropped := fun _ => rfl

end Sys2Proof.Claims
end

section
/-! The driver's turn, scheduled or by default (20_memory.md rule R53), and the transaction it issues
(30_encoding.md rules R63 and R73). -/

namespace Sys2Proof.Machine

theorem issue_of_reject {s : State} {w : TxnWord} {r : Reject}
    (h : decode (s.selectors w) w = .error r) : issue w s = .refused (.undecoded r) := by
  simp only [issue, fetchDecode, h]

/-- With the schedule empty, or with the driver's turn at its head taken off, the step is the driver's
turn. -/
theorem step_eq_driverTurn {s s' : State}
    (h : s = s' ∧ s.schedule = [] ∨ s = { s' with schedule := .driver :: s'.schedule }) :
    step s = driverTurn issue s' := by
  rcases h with ⟨rfl, hsched⟩ | rfl
  · rw [step, turn_of_empty_schedule hsched]
  · rfl

end Sys2Proof.Machine

namespace Sys2Proof.Claims

open Sys2Proof.Machine

/-- Settles O5: the driver's turn performs the action at the head of the call, and a transaction's
word is issued as the decoder reads it. -/
theorem stepRunsTheDecodedInstruction : Obligations.StepRunsTheDecodedInstruction := by
  unfold Obligations.StepRunsTheDecodedInstruction
  intro s s' w f rest below hfail hstack htodo hturn
  have issued : step s = Answer.andThen (issue w s')
      (fun t => { t with stack := { f with todo := rest } :: below }) := by
    rw [step_eq_driverTurn hturn, driverTurn_act hfail hstack htodo]
    rfl
  refine ⟨fun i hdecode => ?_, fun r hreject => ?_⟩
  · rw [issued, issue_of_decode hdecode]
  · rw [issued, issue_of_reject hreject, andThen_refused]

end Sys2Proof.Claims
end

section
/-! Which ports give a word (20_memory.md rules R42 and R43), and the accesses that are refused: a
byte access at any other port, and every wider access (rule R41). -/

namespace Sys2Proof

theorem Com.mem_all (u : Com) : u ∈ Com.all := by
  cases u <;> decide

/-- Whether a port gives a word depends neither on the direction nor on the byte. -/
theorem wordAt_isSome_iff (present : Com → Bool) (write : Bool) (port : Port) (data : Byte) :
    (wordAt present write port data).isSome = true ↔
      (port = Ctl.cmdPort .P ∨ port = Ctl.dataPort .P ∨ port = Ctl.cmdPort .S ∨
        port = Ctl.dataPort .S) ∨
      ∃ u, present u = true ∧ (port - u.base).toNat ≤ 5 := by
  unfold wordAt
  split
  case isTrue hctl => exact iff_of_true rfl (.inl hctl)
  case isFalse hctl =>
    split
    · next u hfind =>
      have hu := List.find?_some hfind
      rw [Bool.and_eq_true, decide_eq_true_iff] at hu
      exact iff_of_true rfl (.inr ⟨u, hu⟩)
    · next hfind =>
      refine iff_of_false nofun (not_or_intro hctl ?_)
      rintro ⟨u, hpresent, hoff⟩
      exact List.find?_eq_none.1 hfind u u.mem_all (by rw [hpresent, decide_eq_true hoff]; rfl)

/-- The six ports of a UART do not wrap past 0xFFFF: every base is at most 0x5F8. -/
theorem offset_le_iff (port : Port) (u : Com) :
    (port - u.base).toNat ≤ 5 ↔ ∃ k, k ≤ 5 ∧ port.toNat = u.base.toNat + k := by
  have hbase : u.base.toNat ≤ 0x5F8 := by cases u <;> decide
  have hport := port.isLt
  rw [BitVec.toNat_sub]
  constructor
  · intro h
    exact ⟨port.toNat - u.base.toNat, by omega, by omega⟩
  · rintro ⟨k, hk, heq⟩
    omega

end Sys2Proof

namespace Sys2Proof.Machine

/-- A call that is refused when it begins refuses the step. -/
theorem step_refuses_call {s : State} {call : Call} {rest : List Call} {r : Refusal} (hq : s.Quiet)
    (hp : s.program = call :: rest) (hc : call.start { s with program := rest } = .refuse r) :
    step s = .refused r := by
  rw [step_begins_call hq hp, enterCall, hc]

theorem run_of_refused {n : Nat} {s : State} {r : Refusal} (h : step s = .refused r) :
    run (n + 1) s = .refused r := by
  simp [run, Host.Core.run, Sys2Proof.core, h]

theorem start_wide_read {h : Handle} (hw : h.width ≠ .w8) (s : State) :
    (Call.handleRead h).start s = .refuse (wideRefusal h s) := by
  obtain ⟨address, width⟩ := h
  cases width with
  | w8 => exact absurd rfl hw
  | w16 => rfl
  | w32 => rfl

theorem start_wide_write {v : Value} (hw : v.width ≠ .w8) (address : Port) (s : State) :
    (Call.handleWrite address v).start s =
      .refuse (wideRefusal { address := address, width := v.width } s) := by
  cases v with
  | v8 b => exact absurd rfl hw
  | v16 b => rfl
  | v32 b => rfl

end Sys2Proof.Machine

namespace Sys2Proof.Claims

open Sys2Proof.Machine

/-- The ports that give a word are the mapped ones. -/
theorem wordAt_isSome_iff_mapped (s : State) (write : Bool) (port : Port) (data : Byte) :
    (wordAt (fun u => (s.uart u).isSome) write port data).isSome = true ↔ mapped s port := by
  rw [wordAt_isSome_iff]
  simp only [offset_le_iff, mapped, Ctl.cmdPort, Ctl.dataPort, or_assoc, exists_and_left]

theorem claims_iff_mapped (s : State) (port : Port) : s.claims port = true ↔ mapped s port :=
  wordAt_isSome_iff_mapped s true port 0x00#8

theorem issueAt_of_unmapped {s : State} {port : Port} (h : ¬ mapped s port) (write : Bool)
    (data : Byte) : issueAt issue write port data s = .refused (.unclaimedPort port) := by
  have hnone : wordAt (fun u => (s.uart u).isSome) write port data = none := by
    rw [← wordAt_isSome_iff_mapped s write port data, Bool.not_eq_true, Option.isSome_eq_false_iff,
      Option.isNone_iff_eq_none] at h
    exact h
  simp only [issueAt, hnone]

/-- The ports of the map depend on the UARTs present alone. -/
theorem mapped_congr {s t : State} (h : t.uarts = s.uarts) (port : Port) :
    mapped t port ↔ mapped s port := by
  simp only [mapped, State.uart, h]

/-- The ports a wide access counts are two or four, as its width says. -/
theorem claims_any_iff_touchesMapped {h : Handle} (hw : h.width ≠ .w8) (s : State) :
    ((List.range h.width.bytes).any fun k => s.claims (h.address + BitVec.ofNat 16 k)) = true ↔
      touchesMapped s h := by
  unfold touchesMapped
  cases hwidth : h.width with
  | w8 => exact absurd hwidth hw
  | w16 => simp [Width.bytes, List.range_succ, claims_iff_mapped]
  | w32 => simp [Width.bytes, List.range_succ, claims_iff_mapped]

theorem wideRefusal_of_touches {h : Handle} {s : State} (hw : h.width ≠ .w8)
    (ht : touchesMapped s h) : wideRefusal h s = .wideAccess h :=
  if_pos ((claims_any_iff_touchesMapped hw s).2 ht)

theorem wideRefusal_of_not_touches {h : Handle} {s : State} (hw : h.width ≠ .w8)
    (ht : ¬ touchesMapped s h) : wideRefusal h s = .unclaimedPort h.address :=
  if_neg (mt (claims_any_iff_touchesMapped hw s).1 ht)

/-- A call that begins with an access at an unmapped port is begun in one step and refused in the
next. -/
theorem run_refuses_unmapped {s : State} {call : Call} {rest : List Call} {a : Action}
    {todo : List Action} {port : Port} (hq : s.Quiet) (hp : s.program = call :: rest)
    (hc : call.start { s with program := rest } = .run (a :: todo)) (hport : ¬ mapped s port)
    (ha : ∀ (t : State) (f : Frame), ¬ mapped t port →
      act issue a f todo [] t = .refused (.unclaimedPort port)) :
    run 2 s = .refused (.unclaimedPort port) := by
  obtain ⟨t, hbegin, hcall⟩ := InCall.begin_call hq hp hc
  have hport' : ¬ mapped t port := mt (mapped_congr hcall.uarts port).1 hport
  rw [run_succ hbegin]
  exact run_of_refused (hcall.step_acts.trans (ha t _ hport'))

/-- A wide read or write is refused when it begins. -/
theorem step_refuses_wide {s : State} {rest : List Call} {h : Handle} (hq : s.Quiet)
    (hw : h.width ≠ .w8)
    (hp : s.program = .handleRead h :: rest ∨
      ∃ v : Value, v.width = h.width ∧ s.program = .handleWrite h.address v :: rest) :
    step s = .refused (wideRefusal h { s with program := rest }) := by
  rcases hp with hp | ⟨v, hv, hp⟩
  · exact step_refuses_call hq hp (start_wide_read hw _)
  · obtain ⟨address, _⟩ := h
    subst hv
    exact step_refuses_call hq hp (start_wide_write hw address _)

/-- Settles O44: an unmapped port gives no word to issue, and a wide access is refused when it begins,
under the name its ports decide. -/
theorem unmappedAndWideAccessesAreRefused : Obligations.UnmappedAndWideAccessesAreRefused := by
  unfold Obligations.UnmappedAndWideAccessesAreRefused
  intro s rest hq
  refine ⟨fun port hport => ⟨fun hp => ?read, fun v hp => ?write⟩, fun h hw hp => ?wide⟩
  case read =>
    refine run_refuses_unmapped hq hp rfl hport fun t f ht => ?_
    simp only [act, issueAt_of_unmapped ht, andThen_refused]
  case write =>
    refine run_refuses_unmapped hq hp rfl hport fun t f ht => ?_
    simp only [act, issueAt_of_unmapped ht, andThen_refused]
  case wide =>
    rw [step_refuses_wide hq hw hp]
    exact ⟨fun ht => congrArg _ (wideRefusal_of_touches hw ht),
      fun ht => congrArg _ (wideRefusal_of_not_touches hw ht)⟩

end Sys2Proof.Claims
end

section
/-! The decoder as a table: which word is read as which row, and under which selection
(30_encoding.md rules R63, R71 and R77). The claims about decoding go through the table. -/

namespace Sys2Proof

/-! ## The fields of a word -/

theorem packPic_getLsbD_write (write : Bool) (port : Port) (data : Byte) :
    (packPic write port data).getLsbD 24 = write := packPic_write write port data

theorem packUart_getLsbD_write (write : Bool) (off : BitVec 3) (data : Byte) :
    (packUart write off data).getLsbD 11 = write := packUart_write write off data

/-- A `PIC25` word goes to a command port, to a data port, or to no port of a controller. -/
theorem pic_word_cases {motive : BitVec 25 → Prop}
    (cmd : ∀ c write data, motive (packPic write (Ctl.cmdPort c) data))
    (data : ∀ c write data, motive (packPic write (Ctl.dataPort c) data))
    (other : ∀ write port data,
      port ≠ 0x20#16 ∧ port ≠ 0x21#16 ∧ port ≠ 0xA0#16 ∧ port ≠ 0xA1#16 →
      motive (packPic write port data)) (w : BitVec 25) : motive w := by
  rw [pic_word_fields w]
  generalize w.getLsbD 24 = write, w.extractLsb' 8 16 = port, w.extractLsb' 0 8 = byte
  by_cases h20 : port = 0x20#16
  · exact h20 ▸ cmd .P write byte
  by_cases h21 : port = 0x21#16
  · exact h21 ▸ data .P write byte
  by_cases hA0 : port = 0xA0#16
  · exact hA0 ▸ cmd .S write byte
  by_cases hA1 : port = 0xA1#16
  · exact hA1 ▸ data .S write byte
  exact other write port byte ⟨h20, h21, hA0, hA1⟩

theorem uart_word_cases {motive : BitVec 12 → Prop}
    (read : ∀ off data, motive (packUart false off data))
    (write : ∀ off data, motive (packUart true off data)) (w : BitVec 12) : motive w := by
  rw [uart_word_fields w]
  cases w.getLsbD 11 with
  | false => exact read _ _
  | true => exact write _ _

theorem decode_other_port (sel : Selectors) (write : Bool) {port : Port} (data : Byte)
    (h : port ≠ 0x20#16 ∧ port ≠ 0x21#16 ∧ port ≠ 0xA0#16 ∧ port ≠ 0xA1#16) :
    decode sel (.pic25 (packPic write port data)) = .error (.notAControllerPort port) := by
  simp [decode, decodePic, Ctl.cmdPort, Ctl.dataPort, h]

/-! ## The rows the decoder reads -/

/-- `sel.Reads w i`: under the selection `sel` the word `w` is the transaction `i`. One constructor
per row of the opcode table, the rows of a controller once for both. -/
inductive Selectors.Reads (sel : Selectors) : TxnWord → Instr → Prop
  | icw1 (c : Ctl) : Reads sel (.pic25 (packPic true c.cmdPort cmdInit)) (.icw1 c)
  | selIrr (c : Ctl) : Reads sel (.pic25 (packPic true c.cmdPort cmdReadIrr)) (.selIrr c)
  | selIsr (c : Ctl) : Reads sel (.pic25 (packPic true c.cmdPort cmdReadIsr)) (.selIsr c)
  | eoi (c : Ctl) : Reads sel (.pic25 (packPic true c.cmdPort cmdEoi)) (.eoi c)
  | rdSel (c : Ctl) (b : Byte) : Reads sel (.pic25 (packPic false c.cmdPort b)) (.rdSel c)
  | icw2 (c : Ctl) (b : Byte) (hphase : sel.phase c = .waitIcw2) (hb : icw2Admitted b = true) :
    Reads sel (.pic25 (packPic true c.dataPort b)) (.icw2 c b)
  | icw3 (c : Ctl) (hphase : sel.phase c = .waitIcw3) :
    Reads sel (.pic25 (packPic true c.dataPort c.icw3Byte)) (.icw3 c)
  | icw4 (c : Ctl) (hphase : sel.phase c = .waitIcw4) :
    Reads sel (.pic25 (packPic true c.dataPort icw4Byte)) (.icw4 c)
  | ocw1 (c : Ctl) (b : Byte) (hphase : sel.phase c = .ready) :
    Reads sel (.pic25 (packPic true c.dataPort b)) (.ocw1 c b)
  | rdImr (c : Ctl) (b : Byte) : Reads sel (.pic25 (packPic false c.dataPort b)) (.rdImr c)
  | thrWr (u : Com) (b : Byte) (hdlab : sel.dlab = false) :
    Reads sel (.uart12 u (packUart true 0#3 b)) (.uartThrWr u b)
  | dllWr (u : Com) (b : Byte) (hdlab : sel.dlab = true) :
    Reads sel (.uart12 u (packUart true 0#3 b)) (.uartDllWr u b)
  | dlmWr (u : Com) (b : Byte) (hdlab : sel.dlab = true) :
    Reads sel (.uart12 u (packUart true 1#3 b)) (.uartDlmWr u b)
  | ierWr (u : Com) (b : Byte) (hdlab : sel.dlab = false) (hb : ierAdmitted b = true) :
    Reads sel (.uart12 u (packUart true 1#3 b)) (.uartIerWr u b)
  | fcrWr (u : Com) : Reads sel (.uart12 u (packUart true 2#3 fcrByte)) (.uartFcrWr u)
  | lcrWr (u : Com) (b : Byte) (hb : lcrAdmitted b = true) :
    Reads sel (.uart12 u (packUart true 3#3 b)) (.uartLcrWr u b)
  | mcrWr (u : Com) : Reads sel (.uart12 u (packUart true 4#3 mcrByte)) (.uartMcrWr u)
  | rbrRd (u : Com) (b : Byte) (hdlab : sel.dlab = false) :
    Reads sel (.uart12 u (packUart false 0#3 b)) (.uartRbrRd u)
  | lsrRd (u : Com) (b : Byte) : Reads sel (.uart12 u (packUart false 5#3 b)) (.uartLsrRd u)

section
variable {sel : Selectors} {c : Ctl} {u : Com} {write : Bool} {off : BitVec 3} {data : Byte}
  {w : TxnWord} {i : Instr}

theorem decodeCmd_reads (h : decodeCmd c write data = .ok i) :
    sel.Reads (.pic25 (packPic write c.cmdPort data)) i := by
  unfold decodeCmd at h
  split_ifs at h with hwrite _ hinit _ hirr hisr heoi
  · cases h; subst hwrite hinit; exact .icw1 c
  · cases h; subst hwrite hirr; exact .selIrr c
  · cases h; subst hwrite hisr; exact .selIsr c
  · cases h; subst hwrite heoi; exact .eoi c
  · cases h; rw [Bool.not_eq_true] at hwrite; subst hwrite; exact .rdSel c data

theorem decodeData_reads (h : decodeData c (sel.phase c) write data = .ok i) :
    sel.Reads (.pic25 (packPic write c.dataPort data)) i := by
  cases write with
  | false => cases h; exact .rdImr c data
  | true =>
    cases hphase : sel.phase c with
    | uninit => simp [decodeData, hphase] at h
    | waitIcw2 =>
      simp only [decodeData, hphase, if_true] at h
      split_ifs at h with hb
      cases h; exact .icw2 c data hphase hb
    | waitIcw3 =>
      simp only [decodeData, hphase, if_true] at h
      split_ifs at h with hb
      cases h; subst hb; exact .icw3 c hphase
    | waitIcw4 =>
      simp only [decodeData, hphase, if_true] at h
      split_ifs at h with hb
      cases h; subst hb; exact .icw4 c hphase
    | ready =>
      simp only [decodeData, hphase, if_true] at h
      cases h; exact .ocw1 c data hphase

theorem decodeUartWrite_reads (h : decodeUartWrite sel.dlab u off data = .ok i) :
    sel.Reads (.uart12 u (packUart true off data)) i := by
  unfold decodeUartWrite at h
  split_ifs at h with h0 hdlab h1 hdlab hb h2 hb h3 hb h4 hb
  · cases h; subst h0; exact .dllWr u data hdlab
  · cases h; subst h0; exact .thrWr u data (eq_false_of_ne_true hdlab)
  · cases h; subst h1; exact .dlmWr u data hdlab
  · cases h; subst h1; exact .ierWr u data (eq_false_of_ne_true hdlab) hb
  · cases h; subst h2 hb; exact .fcrWr u
  · cases h; subst h3; exact .lcrWr u data hb
  · cases h; subst h4 hb; exact .mcrWr u

theorem decodeUartRead_reads (h : decodeUartRead sel.dlab u off = .ok i) :
    sel.Reads (.uart12 u (packUart false off data)) i := by
  unfold decodeUartRead at h
  split_ifs at h with h0 hdlab h5
  · cases h; subst h0; exact .rbrRd u data (eq_false_of_ne_true hdlab)
  · cases h; subst h5; exact .lsrRd u data

theorem reads_of_decode (h : decode sel w = .ok i) : sel.Reads w i := by
  cases w with
  | pic25 w =>
    induction w using pic_word_cases with
    | cmd c write data => exact decodeCmd_reads (by rwa [decode_cmd] at h)
    | data c write data => exact decodeData_reads (by rwa [decode_data] at h)
    | other write port data hport =>
      rw [decode_other_port sel write data hport] at h
      cases h
  | uart12 u w =>
    induction w using uart_word_cases with
    | read off data => exact decodeUartRead_reads (by rwa [decode_uart_read] at h)
    | write off data => exact decodeUartWrite_reads (by rwa [decode_uart_write] at h)

theorem decode_of_reads (h : sel.Reads w i) : decode sel w = .ok i := by
  cases h with
  | icw1 c => exact decode_cmd sel c true cmdInit
  | selIrr c => exact decode_cmd sel c true cmdReadIrr
  | selIsr c => exact decode_cmd sel c true cmdReadIsr
  | eoi c => exact decode_cmd sel c true cmdEoi
  | rdSel c b => exact decode_cmd sel c false b
  | icw2 c b hphase hb => rw [decode_data, hphase]; exact if_pos hb
  | icw3 c hphase => simp [decode_data, hphase, decodeData]
  | icw4 c hphase => rw [decode_data, hphase]; rfl
  | ocw1 c b hphase => rw [decode_data, hphase]; rfl
  | rdImr c b => exact decode_data sel c false b
  | thrWr u b hdlab => rw [decode_uart_write, hdlab]; rfl
  | dllWr u b hdlab => rw [decode_uart_write, hdlab]; rfl
  | dlmWr u b hdlab => rw [decode_uart_write, hdlab]; rfl
  | ierWr u b hdlab hb => rw [decode_uart_write, hdlab]; exact if_pos hb
  | fcrWr u => exact decode_uart_write sel u 2#3 fcrByte
  | lcrWr u b hb => rw [decode_uart_write]; exact if_pos hb
  | mcrWr u => exact decode_uart_write sel u 4#3 mcrByte
  | rbrRd u b hdlab => rw [decode_uart_read, hdlab]; rfl
  | lsrRd u b => exact decode_uart_read sel u 5#3 b

/-- The decoder reads exactly the rows of the table. -/
theorem decode_ok_iff_reads : decode sel w = .ok i ↔ sel.Reads w i :=
  ⟨reads_of_decode, decode_of_reads⟩

/-! ## What a row fixes -/

theorem Selectors.Reads.wellFormed (h : sel.Reads w i) : i.wellFormed = true := by
  cases h
  case icw2 c b _ hb => cases c <;> exact hb
  case ierWr u b _ hb => exact hb
  case lcrWr u b hb => exact hb
  case icw1 c | selIrr c | selIsr c | eoi c | rdSel c _ | icw3 c _ | icw4 c _ | ocw1 c _ _ |
    rdImr c _ => cases c <;> rfl
  all_goals rfl

theorem Selectors.Reads.selects (h : sel.Reads w i) : sel.selects i = true := by
  cases h
  case icw2 c b hphase hb => cases c <;> exact beq_of_eq hphase
  case icw3 c hphase => cases c <;> exact beq_of_eq hphase
  case icw4 c hphase => cases c <;> exact beq_of_eq hphase
  case ocw1 c b hphase => cases c <;> exact beq_of_eq hphase
  case thrWr u b hdlab => exact congrArg Bool.not hdlab
  case ierWr u b hdlab _ => exact congrArg Bool.not hdlab
  case rbrRd u b hdlab => exact congrArg Bool.not hdlab
  case dllWr u b hdlab => exact hdlab
  case dlmWr u b hdlab => exact hdlab
  case icw1 c | selIrr c | selIsr c | eoi c | rdSel c _ | rdImr c _ => cases c <;> rfl
  all_goals rfl

theorem Selectors.Reads.site_uart {w : BitVec 12} (h : sel.Reads (.uart12 u w) i) :
    i.site = .inr u := by
  cases h <;> rfl

/-- The word read is the encoded word again, but for the byte a read returns. -/
theorem Selectors.Reads.encode_eq (h : sel.Reads w i) :
    encode i = if i.isRead then w.withData 0x00#8 else w := by
  cases h
  case rdSel c b => rw [withData_pic]; cases c <;> rfl
  case rdImr c b => rw [withData_pic]; cases c <;> rfl
  case rbrRd u b hdlab => rw [withData_uart]; rfl
  case lsrRd u b => rw [withData_uart]; rfl
  case icw1 c | selIrr c | selIsr c | eoi c | icw2 c _ _ _ | icw3 c _ | icw4 c _ | ocw1 c _ _ =>
    cases c <;> rfl
  all_goals rfl

end

theorem encode_in_row (i : Instr) : Laws.EncodedInRow.Statement i := by
  cases i with
  | pic1Icw1 => exact Laws.EncodedInRow.pic1Icw1
  | pic1Icw2 b => exact Laws.EncodedInRow.pic1Icw2 b
  | pic1Icw3 => exact Laws.EncodedInRow.pic1Icw3
  | pic1Icw4 => exact Laws.EncodedInRow.pic1Icw4
  | pic1Ocw1 b => exact Laws.EncodedInRow.pic1Ocw1 b
  | pic1RdImr => exact Laws.EncodedInRow.pic1RdImr
  | pic1Eoi => exact Laws.EncodedInRow.pic1Eoi
  | pic1SelIrr => exact Laws.EncodedInRow.pic1SelIrr
  | pic1SelIsr => exact Laws.EncodedInRow.pic1SelIsr
  | pic1RdSel => exact Laws.EncodedInRow.pic1RdSel
  | pic2Icw1 => exact Laws.EncodedInRow.pic2Icw1
  | pic2Icw2 b => exact Laws.EncodedInRow.pic2Icw2 b
  | pic2Icw3 => exact Laws.EncodedInRow.pic2Icw3
  | pic2Icw4 => exact Laws.EncodedInRow.pic2Icw4
  | pic2Ocw1 b => exact Laws.EncodedInRow.pic2Ocw1 b
  | pic2RdImr => exact Laws.EncodedInRow.pic2RdImr
  | pic2Eoi => exact Laws.EncodedInRow.pic2Eoi
  | pic2SelIrr => exact Laws.EncodedInRow.pic2SelIrr
  | pic2SelIsr => exact Laws.EncodedInRow.pic2SelIsr
  | pic2RdSel => exact Laws.EncodedInRow.pic2RdSel
  | uartThrWr u b => exact Laws.EncodedInRow.uartThrWr u b
  | uartRbrRd u => exact Laws.EncodedInRow.uartRbrRd u
  | uartDllWr u b => exact Laws.EncodedInRow.uartDllWr u b
  | uartDlmWr u b => exact Laws.EncodedInRow.uartDlmWr u b
  | uartIerWr u b => exact Laws.EncodedInRow.uartIerWr u b
  | uartFcrWr u => exact Laws.EncodedInRow.uartFcrWr u
  | uartLcrWr u b => exact Laws.EncodedInRow.uartLcrWr u b
  | uartMcrWr u => exact Laws.EncodedInRow.uartMcrWr u
  | uartLsrRd u => exact Laws.EncodedInRow.uartLsrRd u

/-- A word that is read lies in its row: a write's is the encoded word, and the row of a read leaves
the byte returned free (rule R61). -/
theorem Selectors.Reads.in_row {sel : Selectors} {w : TxnWord} {i : Instr} (h : sel.Reads w i) :
    i.rowBits.holds w = true := by
  have hrow : i.rowBits.holds (encode i) = true := encode_in_row i h.wellFormed
  cases h
  case rdSel c b | rdImr c b =>
    clear hrow
    revert b
    cases c <;> decide
  case rbrRd u b _ | lsrRd u b =>
    clear hrow
    revert b
    cases u <;> decide
  case icw1 c | selIrr c | selIsr c | eoi c | icw2 c _ _ _ | icw3 c _ | icw4 c _ | ocw1 c _ _ =>
    cases c <;> exact hrow
  all_goals exact hrow

/-- The encoded word of an instruction is read as the instruction. -/
theorem reads_encode {i : Instr} {sel : Selectors} (hwf : i.wellFormed = true)
    (hsel : sel.selects i = true) : sel.Reads (encode i) i := by
  cases i with
  | pic1Icw1 => exact .icw1 .P
  | pic1Icw2 b => exact .icw2 .P b (eq_of_beq hsel) hwf
  | pic1Icw3 => exact .icw3 .P (eq_of_beq hsel)
  | pic1Icw4 => exact .icw4 .P (eq_of_beq hsel)
  | pic1Ocw1 b => exact .ocw1 .P b (eq_of_beq hsel)
  | pic1RdImr => exact .rdImr .P 0x00#8
  | pic1Eoi => exact .eoi .P
  | pic1SelIrr => exact .selIrr .P
  | pic1SelIsr => exact .selIsr .P
  | pic1RdSel => exact .rdSel .P 0x00#8
  | pic2Icw1 => exact .icw1 .S
  | pic2Icw2 b => exact .icw2 .S b (eq_of_beq hsel) hwf
  | pic2Icw3 => exact .icw3 .S (eq_of_beq hsel)
  | pic2Icw4 => exact .icw4 .S (eq_of_beq hsel)
  | pic2Ocw1 b => exact .ocw1 .S b (eq_of_beq hsel)
  | pic2RdImr => exact .rdImr .S 0x00#8
  | pic2Eoi => exact .eoi .S
  | pic2SelIrr => exact .selIrr .S
  | pic2SelIsr => exact .selIsr .S
  | pic2RdSel => exact .rdSel .S 0x00#8
  | uartThrWr u b => exact .thrWr u b (by simpa [Selectors.selects] using hsel)
  | uartRbrRd u => exact .rbrRd u 0x00#8 (by simpa [Selectors.selects] using hsel)
  | uartDllWr u b => exact .dllWr u b hsel
  | uartDlmWr u b => exact .dlmWr u b hsel
  | uartIerWr u b => exact .ierWr u b (by simpa [Selectors.selects] using hsel) hwf
  | uartFcrWr u => exact .fcrWr u
  | uartLcrWr u b => exact .lcrWr u b hwf
  | uartMcrWr u => exact .mcrWr u
  | uartLsrRd u => exact .lsrRd u 0x00#8

end Sys2Proof

namespace Sys2Proof.Claims

/-- Settles O2: the encoded word is a word of the instruction's row, as the decoder reads it. -/
theorem decodeOfEncodeGivesTheInstruction : Obligations.DecodeOfEncodeGivesTheInstruction := by
  unfold Obligations.DecodeOfEncodeGivesTheInstruction
  exact fun _ _ hwf hsel => decode_ok_iff_reads.2 (reads_encode hwf hsel)

/-- Settles O3: a word decodes only as its row reads it. -/
theorem decodedWordLiesInItsRow : Obligations.DecodedWordLiesInItsRow := by
  unfold Obligations.DecodedWordLiesInItsRow
  intro sel w i hdecode
  have hreads : sel.Reads w i := decode_ok_iff_reads.1 hdecode
  exact ⟨hreads.wellFormed, hreads.selects, hreads.in_row, hreads.encode_eq⟩

/-- Settles O1: each word is the packed word of its port or offset, where the decoder looks it up. -/
theorem wordsOfTheTableDecodeToTheirRows : Obligations.WordsOfTheTableDecodeToTheirRows := by
  unfold Obligations.WordsOfTheTableDecodeToTheirRows
  exact ⟨fun sel => decode_cmd sel .P true 0x11#8,
    fun dlab q => decode_data ⟨.waitIcw2, q, dlab⟩ .P true 0x20#8,
    fun dlab p => decode_data ⟨p, .waitIcw3, dlab⟩ .S true 0x02#8,
    fun dlab q => decode_data ⟨.ready, q, dlab⟩ .P true 0xFB#8,
    fun sel => decode_cmd sel .S true 0x20#8,
    fun sel => decode_cmd sel .P false 0xA5#8,
    fun sel u => decode_uart_write sel u 2#3 0xC7#8,
    fun p q u => decode_uart_write ⟨p, q, false⟩ u 0#3 0x41#8,
    fun p q u => decode_uart_write ⟨p, q, true⟩ u 0#3 0x41#8⟩

end Sys2Proof.Claims
end

section
/-! What refuses a transaction (30_encoding.md rule R73): the words the decoder rejects, a controller
in another phase, an absent UART, the divisor-latch bit and the UART's queues. -/

namespace Sys2Proof

/-! ## Operand bytes that are not admitted -/

theorem ierAdmitted_eq_false_iff {data : Byte} :
    ierAdmitted data = false ↔ ¬ data = 0x00#8 ∧ ¬ data = 0x01#8 := by
  simp [ierAdmitted]

theorem lcrAdmitted_eq_false_iff {data : Byte} :
    lcrAdmitted data = false ↔ ¬ data = 0x80#8 ∧ ¬ data = 0x03#8 := by
  simp [lcrAdmitted]

end Sys2Proof

namespace Sys2Proof.Claims

open Sys2Proof.Machine

/-! ## The ports of a controller, by the numbers of the refusal table -/

theorem cmdPort_eq_cmd_iff (c e : Ctl) : c.cmdPort = atCtl e 0x20#16 0xA0#16 ↔ e = c := by
  cases c <;> cases e <;> decide

theorem cmdPort_ne_data (c e : Ctl) : c.cmdPort ≠ atCtl e 0x21#16 0xA1#16 := by
  cases c <;> cases e <;> decide

theorem dataPort_eq_data_iff (c e : Ctl) : c.dataPort = atCtl e 0x21#16 0xA1#16 ↔ e = c := by
  cases c <;> cases e <;> decide

theorem dataPort_ne_cmd (c e : Ctl) : c.dataPort ≠ atCtl e 0x20#16 0xA0#16 := by
  cases c <;> cases e <;> decide

/-! ## The words the decoder rejects -/

theorem picWordRefused_cmd (phase : Ctl → Phase) (c : Ctl) (write : Bool) (data : Byte) :
    picWordRefused phase write c.cmdPort data ↔
      write = true ∧
        ((data.getLsbD 4 = true ∧ data ≠ 0x11#8) ∨
         (data.getLsbD 4 = false ∧ data.getLsbD 3 = false ∧ data ≠ 0x20#8) ∨
         (data.getLsbD 4 = false ∧ data.getLsbD 3 = true ∧ data ≠ 0x0A#8 ∧ data ≠ 0x0B#8)) := by
  simp only [picWordRefused, cmdPort_ne_data, false_and, exists_false, and_false, or_false]
  cases c <;> simp [Ctl.cmdPort]

theorem picWordRefused_data (phase : Ctl → Phase) (c : Ctl) (write : Bool) (data : Byte) :
    picWordRefused phase write c.dataPort data ↔
      write = true ∧
        (phase c = .uninit ∨
         (phase c = .waitIcw2 ∧ data &&& 0x07#8 ≠ 0x00#8) ∨
         (phase c = .waitIcw3 ∧ data ≠ c.icw3Byte) ∨
         (phase c = .waitIcw4 ∧ data ≠ 0x01#8)) := by
  simp only [picWordRefused, dataPort_eq_data_iff, exists_eq_left]
  cases c <;> simp [Ctl.dataPort, Ctl.icw3Byte, atCtl]

theorem decodeCmd_error_iff (phase : Ctl → Phase) (c : Ctl) (write : Bool) (data : Byte) :
    (∃ r, decodeCmd c write data = .error r) ↔ picWordRefused phase write c.cmdPort data := by
  rw [picWordRefused_cmd]
  cases write with
  | false => simp [decodeCmd]
  | true =>
    simp only [decodeCmd, if_true, cmdInit, cmdReadIrr, cmdReadIsr, cmdEoi]
    cases data.getLsbD 4 with
    | true => by_cases h : data = 0x11#8 <;> simp [h]
    | false =>
      cases data.getLsbD 3 with
      | true =>
        by_cases hirr : data = 0x0A#8
        · simp [hirr]
        · by_cases hisr : data = 0x0B#8 <;> simp [hirr, hisr]
      | false => by_cases h : data = 0x20#8 <;> simp [h]

theorem decodeData_error_iff (phase : Ctl → Phase) (c : Ctl) (write : Bool) (data : Byte) :
    (∃ r, decodeData c (phase c) write data = .error r) ↔
      picWordRefused phase write c.dataPort data := by
  rw [picWordRefused_data]
  cases write with
  | false => simp [decodeData]
  | true =>
    cases phase c with
    | uninit => simp [decodeData]
    | waitIcw2 =>
      by_cases h : data &&& 0x07#8 = 0x00#8 <;> simp [decodeData, icw2Admitted, h]
    | waitIcw3 => by_cases h : data = c.icw3Byte <;> simp [decodeData, h]
    | waitIcw4 => by_cases h : data = 0x01#8 <;> simp [decodeData, icw4Byte, h]
    | ready => simp [decodeData]

/-- The decoder rejects exactly the words of the refusal table at a controller. -/
theorem decode_pic_error_iff (sel : Selectors) (w : BitVec 25) :
    (∃ r, decode sel (.pic25 w) = .error r) ↔
      picWordRefused sel.phase (w.getLsbD 24) (w.extractLsb' 8 16) (w.extractLsb' 0 8) := by
  induction w using pic_word_cases with
  | cmd c write data =>
    rw [decode_cmd, packPic_getLsbD_write, packPic_port, packPic_data]
    exact decodeCmd_error_iff sel.phase c write data
  | data c write data =>
    rw [decode_data, packPic_getLsbD_write, packPic_port, packPic_data]
    exact decodeData_error_iff sel.phase c write data
  | other write port data hport =>
    rw [decode_other_port sel write data hport, packPic_port]
    exact iff_of_true ⟨_, rfl⟩ (.inl hport)

theorem decodeUartWrite_error_iff (dlab : Bool) (u : Com) (off : BitVec 3) (data : Byte) :
    (∃ r, decodeUartWrite dlab u off data = .error r) ↔
      uartWordRefused dlab true off.toNat data := by
  have hoff : off = 0#3 ∨ off = 1#3 ∨ off = 2#3 ∨ off = 3#3 ∨ off = 4#3 ∨ 5 ≤ off.toNat := by
    bv_omega
  rcases hoff with rfl | rfl | rfl | rfl | rfl | hhigh
  · cases dlab <;> simp [decodeUartWrite, uartWordRefused]
  · cases dlab with
    | true => simp [decodeUartWrite, uartWordRefused]
    | false =>
      cases h : ierAdmitted data <;>
        simp [decodeUartWrite, uartWordRefused, h, ← ierAdmitted_eq_false_iff]
  · by_cases h : data = 0xC7#8 <;> simp [decodeUartWrite, uartWordRefused, fcrByte, h]
  · cases h : lcrAdmitted data <;>
      simp [decodeUartWrite, uartWordRefused, h, ← lcrAdmitted_eq_false_iff]
  · by_cases h : data = 0x0B#8 <;> simp [decodeUartWrite, uartWordRefused, mcrByte, h]
  · have hlow : off ≠ 0#3 ∧ off ≠ 1#3 ∧ off ≠ 2#3 ∧ off ≠ 3#3 ∧ off ≠ 4#3 := by bv_omega
    simp [decodeUartWrite, uartWordRefused, hlow, hhigh]

theorem decodeUartRead_error_iff (dlab : Bool) (u : Com) (off : BitVec 3) (data : Byte) :
    (∃ r, decodeUartRead dlab u off = .error r) ↔ uartWordRefused dlab false off.toNat data := by
  by_cases h0 : off = 0#3
  · subst h0
    cases dlab <;> simp [decodeUartRead, uartWordRefused]
  by_cases h5 : off = 5#3
  · subst h5
    simp [decodeUartRead, uartWordRefused]
  have hoff : off.toNat ≠ 0 ∧ off.toNat ≠ 5 := by bv_omega
  simp [decodeUartRead, uartWordRefused, h0, h5, hoff]

/-- The decoder rejects exactly the words of the refusal table at a UART. -/
theorem decode_uart_error_iff (sel : Selectors) (u : Com) (w : BitVec 12) :
    (∃ r, decode sel (.uart12 u w) = .error r) ↔
      uartWordRefused sel.dlab (w.getLsbD 11) (w.extractLsb' 8 3).toNat (w.extractLsb' 0 8) := by
  induction w using uart_word_cases with
  | read off data =>
    rw [decode_uart_read, packUart_getLsbD_write, packUart_off, packUart_data,
      decodeUartRead_error_iff]
  | write off data =>
    rw [decode_uart_write, packUart_getLsbD_write, packUart_off, packUart_data,
      decodeUartWrite_error_iff]

/-! ## A controller's transaction in the wrong phase -/

/-- A controller's transaction other than ICW1 is carried out in the phase it needs and refused in
any other: each is a write or a read guarded by the phase, ICW2's once its operand is admitted. -/
theorem exec_by_phase {i : Instr} {c : Ctl} {needed : Phase} (hwf : i.wellFormed = true)
    (hneeded : phaseNeeded i = some (c, needed)) (s : State) :
    ∃ t, exec i s =
      if (s.pic c).phase = needed then .next t else .refused (.wrongPhase c needed) := by
  cases i <;> cases hneeded
  case pic1Icw2 b | pic2Icw2 b => exact ⟨_, if_pos hwf⟩
  all_goals exact ⟨_, rfl⟩

theorem exec_refused_iff_phase {i : Instr} {c : Ctl} {needed : Phase} (hwf : i.wellFormed = true)
    (hneeded : phaseNeeded i = some (c, needed)) (s : State) :
    (∃ r, exec i s = .refused r) ↔ (s.pic c).phase ≠ needed := by
  obtain ⟨t, hexec⟩ := exec_by_phase hwf hneeded s
  rw [hexec]
  by_cases hphase : (s.pic c).phase = needed <;> simp [hphase]

/-! ## A UART's transaction -/

section
variable {i : Instr} {u : Com} {d : Uart} {s : State}

theorem uartWrite_absent {device : Uart → Uart} (hu : s.uart u = none) :
    uartWrite i u device s = .refused (.uartAbsent u) := by
  simp only [uartWrite, hu]

theorem uartLatchedWrite_absent {dlab : Bool} {device : Uart → Uart} (hu : s.uart u = none) :
    uartLatchedWrite i u dlab device s = .refused (.uartAbsent u) := by
  simp only [uartLatchedWrite, hu]

theorem uartLatchedWrite_wrong_latch {dlab : Bool} {device : Uart → Uart}
    (hu : s.uart u = some d) (hdlab : d.dlab ≠ dlab) :
    uartLatchedWrite i u dlab device s = .refused (.divisorLatch u dlab) := by
  simp only [uartLatchedWrite, hu, if_neg hdlab]

theorem exec_uart_absent (hwf : i.wellFormed = true) (hsite : i.site = .inr u)
    (hu : s.uart u = none) : exec i s = .refused (.uartAbsent u) := by
  cases i <;> cases hsite
  case uartThrWr b => simp only [exec, execUartThrWr, hu]
  case uartRbrRd => simp only [exec, execUartRbrRd, hu]
  case uartLsrRd => simp only [exec, execUartLsrRd, hu]
  case uartDllWr b | uartDlmWr b => exact uartLatchedWrite_absent hu
  case uartIerWr b => exact (if_pos hwf).trans (uartLatchedWrite_absent hu)
  case uartLcrWr b => exact (if_pos hwf).trans (uartWrite_absent hu)
  case uartFcrWr | uartMcrWr => exact uartWrite_absent hu

theorem exec_wrong_latch {needed : Bool} (hwf : i.wellFormed = true) (hsite : i.site = .inr u)
    (hu : s.uart u = some d) (hneeded : dlabNeeded i = some needed) (hdlab : d.dlab ≠ needed) :
    exec i s = .refused (.divisorLatch u needed) := by
  cases i <;> cases hneeded <;> cases hsite
  case uartThrWr b => simp only [exec, execUartThrWr, hu, if_neg hdlab]
  case uartRbrRd => simp only [exec, execUartRbrRd, hu, if_neg hdlab]
  case uartDllWr b | uartDlmWr b => exact uartLatchedWrite_wrong_latch hu hdlab
  case uartIerWr b => exact (if_pos hwf).trans (uartLatchedWrite_wrong_latch hu hdlab)

end

/-- Settles O22: each arm is guarded by the phase, by the UART being there, and by the latch bit. -/
theorem transactionOutOfPlaceIsRefused : Obligations.TransactionOutOfPlaceIsRefused := by
  unfold Obligations.TransactionOutOfPlaceIsRefused
  refine ⟨fun i c needed s hwf hneeded hphase => ?_,
    fun i u s hwf hsite hu => exec_uart_absent hwf hsite hu,
    fun i u s d needed hwf hsite hu hneeded hdlab => exec_wrong_latch hwf hsite hu hneeded hdlab⟩
  obtain ⟨t, hexec⟩ := exec_by_phase hwf hneeded s
  rw [hexec, if_neg hphase]

/-! ## What is refused when issued -/

theorem picNotReadyRefused_cmd (phase : Ctl → Phase) (c : Ctl) (write : Bool) (data : Byte) :
    picNotReadyRefused phase write c.cmdPort data ↔
      phase c ≠ .ready ∧ (write = true → data ≠ 0x11#8) := by
  simp only [picNotReadyRefused, cmdPort_eq_cmd_iff, cmdPort_ne_data]
  cases write <;> simp

theorem picNotReadyRefused_data (phase : Ctl → Phase) (c : Ctl) (write : Bool) (data : Byte) :
    picNotReadyRefused phase write c.dataPort data ↔ phase c ≠ .ready ∧ write = false := by
  simp only [picNotReadyRefused, dataPort_ne_cmd, dataPort_eq_data_iff]
  cases write <;> simp

section
variable {sel : Selectors} {s : State} {i : Instr}

/-- A command-port transaction other than ICW1 is refused where the controller is not ready. -/
theorem exec_refused_iff_cmd {c : Ctl} {write : Bool} {data : Byte} (hwf : i.wellFormed = true)
    (hneeded : phaseNeeded i = some (c, .ready)) (hdata : write = true → data ≠ 0x11#8) :
    (∃ r, exec i s = .refused r) ↔
      picNotReadyRefused (fun c => (s.pic c).phase) write c.cmdPort data := by
  rw [exec_refused_iff_phase hwf hneeded, picNotReadyRefused_cmd]
  exact (and_iff_left hdata).symm

/-- A data-port write that decodes is in the phase its row needs, so it is carried out. -/
theorem exec_refused_iff_dataWrite {c : Ctl} {needed : Phase} {data : Byte}
    (hwf : i.wellFormed = true) (hneeded : phaseNeeded i = some (c, needed))
    (hphase : (s.pic c).phase = needed) :
    (∃ r, exec i s = .refused r) ↔
      picNotReadyRefused (fun c => (s.pic c).phase) true c.dataPort data := by
  rw [exec_refused_iff_phase hwf hneeded, picNotReadyRefused_data]
  exact iff_of_false (not_not_intro hphase) nofun

/-- Of the words the decoder reads at a controller, the transactions refused are those of the table
about a controller that is not ready. -/
theorem exec_refused_iff_not_ready {w : BitVec 25} (h : sel.Reads (.pic25 w) i)
    (hsel : ∀ c, sel.phase c = (s.pic c).phase) :
    (∃ r, exec i s = .refused r) ↔
      picNotReadyRefused (fun c => (s.pic c).phase) (w.getLsbD 24) (w.extractLsb' 8 16)
        (w.extractLsb' 0 8) := by
  have hwf := h.wellFormed
  cases h <;> rw [packPic_getLsbD_write, packPic_port, packPic_data]
  case icw1 c =>
    rw [exec_icw1, picNotReadyRefused_cmd]
    exact iff_of_false nofun fun h => h.2 rfl rfl
  case selIrr c => exact exec_refused_iff_cmd hwf (by cases c <;> rfl) (by decide)
  case selIsr c => exact exec_refused_iff_cmd hwf (by cases c <;> rfl) (by decide)
  case eoi c => exact exec_refused_iff_cmd hwf (by cases c <;> rfl) (by decide)
  case rdSel c b => exact exec_refused_iff_cmd hwf (by cases c <;> rfl) nofun
  case icw2 c b hphase _ =>
    exact exec_refused_iff_dataWrite hwf (by cases c <;> rfl) (hsel c ▸ hphase)
  case icw3 c hphase =>
    exact exec_refused_iff_dataWrite hwf (by cases c <;> rfl) (hsel c ▸ hphase)
  case icw4 c hphase =>
    exact exec_refused_iff_dataWrite hwf (by cases c <;> rfl) (hsel c ▸ hphase)
  case ocw1 c b hphase =>
    exact exec_refused_iff_dataWrite hwf (by cases c <;> rfl) (hsel c ▸ hphase)
  case rdImr c b =>
    rw [exec_refused_iff_phase hwf (c := c) (by cases c <;> rfl), picNotReadyRefused_data]
    exact (and_iff_left rfl).symm

section
variable {u : Com} {d : Uart} (hu : s.uart u = some d)
include hu

theorem uartWrite_not_refused {device : Uart → Uart} :
    ¬ ∃ r, uartWrite i u device s = .refused r := by
  simp [uartWrite, hu, finish]

theorem uartLatchedWrite_not_refused {dlab : Bool} {device : Uart → Uart} (hdlab : d.dlab = dlab) :
    ¬ ∃ r, uartLatchedWrite i u dlab device s = .refused r := by
  simp [uartLatchedWrite, hu, hdlab, finish]

theorem exec_lsrRd_not_refused : ¬ ∃ r, exec (.uartLsrRd u) s = .refused r := by
  simp [exec, execUartLsrRd, hu, finish]

theorem exec_thrWr_refused_iff (b : Byte) (hdlab : d.dlab = false) :
    (∃ r, exec (.uartThrWr u b) s = .refused r) ↔ d.txPending ≠ [] := by
  by_cases htx : d.txPending = [] <;> simp [exec, execUartThrWr, hu, hdlab, htx, finish]

theorem exec_rbrRd_refused_iff (hdlab : d.dlab = false) :
    (∃ r, exec (.uartRbrRd u) s = .refused r) ↔ d.rxFifo = [] := by
  cases hrx : d.rxFifo <;> simp [exec, execUartRbrRd, hu, hdlab, hrx, finish]

end

theorem uartQueueRefused_iff (d : Uart) (write : Bool) (off : Nat) :
    uartQueueRefused d write off ↔
      off = 0 ∧ d.dlab = false ∧
        ((write = true ∧ d.txPending ≠ []) ∨ (write = false ∧ d.rxFifo = [])) := Iff.rfl

/-- Of the words the decoder reads at a UART that is present, the transactions refused are those of
the table about its queues. -/
theorem exec_refused_iff_queue {u : Com} {d : Uart} {w : BitVec 12}
    (h : sel.Reads (.uart12 u w) i) (hu : s.uart u = some d) (hsel : sel.dlab = d.dlab) :
    (∃ r, exec i s = .refused r) ↔
      uartQueueRefused d (w.getLsbD 11) (w.extractLsb' 8 3).toNat := by
  cases h <;> rw [packUart_getLsbD_write, packUart_off]
  case thrWr b hdlab =>
    have hd : d.dlab = false := hsel ▸ hdlab
    simp [exec_thrWr_refused_iff hu b hd, uartQueueRefused_iff, hd]
  case rbrRd b hdlab =>
    have hd : d.dlab = false := hsel ▸ hdlab
    simp [exec_rbrRd_refused_iff hu hd, uartQueueRefused_iff, hd]
  case dllWr b hdlab =>
    have hd : d.dlab = true := hsel ▸ hdlab
    refine iff_of_false (uartLatchedWrite_not_refused hu hd) ?_
    rintro ⟨-, hclear, -⟩
    exact Bool.false_ne_true (hclear.symm.trans hd)
  case dlmWr b hdlab =>
    exact iff_of_false (uartLatchedWrite_not_refused hu (hsel ▸ hdlab)) (mt And.left (by decide))
  case ierWr b hdlab hb =>
    simp only [exec, execUartIerWr, if_pos hb]
    exact iff_of_false (uartLatchedWrite_not_refused hu (hsel ▸ hdlab)) (mt And.left (by decide))
  case lcrWr b hb =>
    simp only [exec, execUartLcrWr, if_pos hb]
    exact iff_of_false (uartWrite_not_refused hu) (mt And.left (by decide))
  case fcrWr | mcrWr =>
    exact iff_of_false (uartWrite_not_refused hu) (mt And.left (by decide))
  case lsrRd b => exact iff_of_false (exec_lsrRd_not_refused hu) (mt And.left (by decide))

end

/-- A word at an absent UART is refused, by the decoder or by the transaction. -/
theorem issue_absent_uart {s : State} {u : Com} (w : BitVec 12) (hu : s.uart u = none) :
    ∃ r, issue (.uart12 u w) s = .refused r := by
  cases hdecode : decode (s.selectors (.uart12 u w)) (.uart12 u w) with
  | error r => exact ⟨_, issue_of_reject hdecode⟩
  | ok i =>
    have hreads := reads_of_decode hdecode
    rw [issue_of_decode hdecode]
    exact ⟨_, exec_uart_absent hreads.wellFormed hreads.site_uart hu⟩

/-- A word is refused when issued if the decoder rejects it, or if it decodes to a transaction that
is refused; the first excludes the second. -/
theorem issue_refused_iff {s : State} {w : TxnWord} {rejected refused : Prop}
    (hreject : (∃ r, decode (s.selectors w) w = .error r) ↔ rejected)
    (hexec : ∀ i, (s.selectors w).Reads w i → ((∃ r, exec i s = .refused r) ↔ refused)) :
    (∃ r, issue w s = .refused r) ↔ rejected ∨ refused := by
  cases hdecode : decode (s.selectors w) w with
  | error r => exact iff_of_true ⟨_, issue_of_reject hdecode⟩ (.inl (hreject.1 ⟨r, hdecode⟩))
  | ok i =>
    rw [issue_of_decode hdecode, hexec i (reads_of_decode hdecode)]
    exact (or_iff_right (mt hreject.2 (by simp [hdecode]))).symm

theorem issue_pic_refused_iff (s : State) (w : BitVec 25) :
    (∃ r, issue (.pic25 w) s = .refused r) ↔ transactionRefused s (.pic25 w) := by
  have hphase : ∀ c, (s.selectors (.pic25 w)).phase c = (s.pic c).phase := selectors_phase s _
  refine issue_refused_iff ?_ fun i hreads => exec_refused_iff_not_ready hreads hphase
  rw [decode_pic_error_iff, funext hphase]

theorem issue_uart_refused_iff (s : State) (u : Com) (w : BitVec 12) :
    (∃ r, issue (.uart12 u w) s = .refused r) ↔ transactionRefused s (.uart12 u w) := by
  cases hu : s.uart u with
  | none => exact iff_of_true (issue_absent_uart w hu) (.inl hu)
  | some d =>
    have htable : transactionRefused s (.uart12 u w) ↔
        uartWordRefused d.dlab (w.getLsbD 11) (w.extractLsb' 8 3).toNat (w.extractLsb' 0 8) ∨
          uartQueueRefused d (w.getLsbD 11) (w.extractLsb' 8 3).toNat := by
      simp [transactionRefused, hu, Uart.dlab]
    have hdlab := selectors_dlab w hu
    rw [htable]
    refine issue_refused_iff ?_ fun i hreads => exec_refused_iff_queue hreads hu hdlab
    rw [decode_uart_error_iff, hdlab]

/-- Settles O4: the decoder's part at a controller and at a UART, and the whole of it for words of
either format. -/
theorem decoderRejectsExactlyTheRefusedWords :
    Obligations.DecoderRejectsExactlyTheRefusedWords := by
  unfold Obligations.DecoderRejectsExactlyTheRefusedWords
  refine ⟨decode_pic_error_iff, decode_uart_error_iff, fun s w => ?_⟩
  cases w with
  | pic25 w => exact issue_pic_refused_iff s w
  | uart12 u w => exact issue_uart_refused_iff s u w

end Sys2Proof.Claims
end

section
/-! A transaction and the driver's calls (00_scope.md rule R8): what a transaction does is the same
whatever calls are waiting or in progress, and it leaves them as they are. -/

namespace Sys2Proof.Machine

/-- The state with other calls waiting and in progress. -/
def State.withCalls (s : State) (program : List Call) (stack : List Frame) : State :=
  { s with program := program, stack := stack }

section
variable (s : State) (program : List Call) (stack : List Frame)

@[simp] theorem withCalls_pic (c : Ctl) : (s.withCalls program stack).pic c = s.pic c := by
  cases c <;> rfl
@[simp] theorem withCalls_uart (u : Com) : (s.withCalls program stack).uart u = s.uart u := rfl
@[simp] theorem withCalls_selectors (w : TxnWord) :
    (s.withCalls program stack).selectors w = s.selectors w := rfl
@[simp] theorem withCalls_selected (c : Ctl) :
    (s.withCalls program stack).selected c = s.selected c := by
  cases c <;> rfl
@[simp] theorem withCalls_setPic (c : Ctl) (p : Pic) :
    (s.withCalls program stack).setPic c p = (s.setPic c p).withCalls program stack := by
  cases c <;> rfl

/-! ## The shared operations -/

theorem finish_withCalls (at? : Option Ctl) (w : TxnWord) (t : State) :
    finish at? w (s.withCalls program stack) (t.withCalls program stack) =
      Answer.andThen (finish at? w s t) (·.withCalls program stack) := rfl

theorem picWrite_withCalls (i : Instr) (c : Ctl) (needed : Phase) (device : Pic → Pic) :
    picWrite i c needed device (s.withCalls program stack) =
      Answer.andThen (picWrite i c needed device s) (·.withCalls program stack) := by
  simp only [picWrite, withCalls_pic, withCalls_setPic, finish_withCalls]
  split <;> rfl

theorem icw2At_withCalls (i : Instr) (c : Ctl) (data : Byte) :
    icw2At i c data (s.withCalls program stack) =
      Answer.andThen (icw2At i c data s) (·.withCalls program stack) := by
  unfold icw2At
  split
  · exact picWrite_withCalls s program stack i c _ _
  · rfl

theorem picRead_withCalls (i : Instr) (c : Ctl) (value : Byte) :
    picRead i c value (s.withCalls program stack) =
      Answer.andThen (picRead i c value s) (·.withCalls program stack) := by
  simp only [picRead, withCalls_pic]
  split <;> rfl

theorem uartWrite_withCalls (i : Instr) (u : Com) (device : Uart → Uart) :
    uartWrite i u device (s.withCalls program stack) =
      Answer.andThen (uartWrite i u device s) (·.withCalls program stack) := by
  simp only [uartWrite, withCalls_uart]
  split <;> rfl

theorem uartLatchedWrite_withCalls (i : Instr) (u : Com) (dlab : Bool) (device : Uart → Uart) :
    uartLatchedWrite i u dlab device (s.withCalls program stack) =
      Answer.andThen (uartLatchedWrite i u dlab device s) (·.withCalls program stack) := by
  simp only [uartLatchedWrite, withCalls_uart]
  split
  · split <;> rfl
  · rfl

/-! ## A transaction -/

theorem exec_uart_withCalls {i : Instr} {u : Com} (hsite : i.site = .inr u) :
    exec i (s.withCalls program stack) =
      Answer.andThen (exec i s) (·.withCalls program stack) := by
  cases i <;> cases hsite
  case uartThrWr b =>
    simp only [exec, execUartThrWr, withCalls_uart]
    split
    · split_ifs <;> rfl
    · rfl
  case uartRbrRd =>
    simp only [exec, execUartRbrRd, withCalls_uart]
    split
    · split
      · split <;> rfl
      · rfl
    · rfl
  case uartLsrRd =>
    simp only [exec, execUartLsrRd, withCalls_uart]
    split <;> rfl
  case uartFcrWr => simp only [exec, execUartFcrWr, uartWrite_withCalls]
  case uartMcrWr => simp only [exec, execUartMcrWr, uartWrite_withCalls]
  case uartLcrWr b =>
    simp only [exec, execUartLcrWr, uartWrite_withCalls]
    split <;> rfl
  case uartIerWr b =>
    simp only [exec, execUartIerWr, uartLatchedWrite_withCalls]
    split <;> rfl
  case uartDllWr b => simp only [exec, execUartDllWr, uartLatchedWrite_withCalls]
  case uartDlmWr b => simp only [exec, execUartDlmWr, uartLatchedWrite_withCalls]

theorem exec_withCalls (i : Instr) :
    exec i (s.withCalls program stack) =
      Answer.andThen (exec i s) (·.withCalls program stack) := by
  induction i using instr_cases with
  | icw1 c => simp only [exec_icw1, icw1At, withCalls_pic, withCalls_setPic, finish_withCalls]
  | icw2 c b => simp only [exec_icw2, icw2At_withCalls]
  | icw3 c => simp only [exec_icw3, picWrite_withCalls]
  | icw4 c => simp only [exec_icw4, picWrite_withCalls]
  | ocw1 c b => simp only [exec_ocw1, picWrite_withCalls]
  | rdImr c => simp only [exec_rdImr, withCalls_pic, picRead_withCalls]
  | eoi c => simp only [exec_eoi, picWrite_withCalls]
  | selIrr c => simp only [exec_selIrr, picWrite_withCalls]
  | selIsr c => simp only [exec_selIsr, picWrite_withCalls]
  | rdSel c => simp only [exec_rdSel, withCalls_selected, picRead_withCalls]
  | uart i u hsite => exact exec_uart_withCalls s program stack hsite

end

/-- A transaction leaves the schedule, the failure and the results as they are. -/
theorem exec_keeps_driver {i : Instr} {s r : State} (h : exec i s = .next r) :
    r.schedule = s.schedule ∧ r.failure = s.failure ∧ r.results = s.results := by
  rcases exec_next_cases h with ⟨_, _, -, -, hf⟩ | ⟨_, _, -, -, hf⟩ | ⟨_, _, _, -, -, -, -, hf⟩ |
    ⟨_, _, _, _, -, -, -, -, hf⟩ | ⟨_, _, -, -, hf⟩
  all_goals
    obtain rfl := finish_next_iff.1 hf
    simp

theorem exec_trace_write {i : Instr} {s r : State} (h : exec i s = .next r)
    (hwrite : i.isRead = false) : r.trace = s.trace ++ [encode i] := by
  obtain ⟨w, htrace, hw⟩ := exec_trace h
  rw [htrace, hw hwrite]

/-- The word of a read joins the trace with the byte the device returned. -/
theorem exec_trace_read {i : Instr} {s r : State} (h : exec i s = .next r)
    (hread : i.isRead = true) : r.trace = s.trace ++ [(encode i).withData r.returned] := by
  rcases exec_next_cases h with ⟨_, _, -, hwrite, -⟩ | ⟨_, _, -, -, hf⟩ |
    ⟨_, _, _, -, hwrite, -, -, -⟩ | ⟨_, _, _, _, -, -, -, -, hf⟩ | ⟨_, _, -, -, hf⟩
  case inl | inr.inr.inl => exact absurd (hread.symm.trans hwrite) nofun
  all_goals
    obtain rfl := finish_next_iff.1 hf
    rfl

end Sys2Proof.Machine
end

section
/-! The direction of an access is the direction of the instruction its word is read as
(30_encoding.md rules R60 and R61). -/

namespace Sys2Proof

variable {sel : Selectors} {i : Instr}

theorem Selectors.Reads.isRead_pic {w : BitVec 25} (h : sel.Reads (.pic25 w) i) :
    i.isRead = !w.getLsbD 24 := by
  cases h <;> rw [packPic_getLsbD_write]
  all_goals rename Ctl => c; cases c <;> rfl

theorem Selectors.Reads.isRead_uart {u : Com} {w : BitVec 12} (h : sel.Reads (.uart12 u w) i) :
    i.isRead = !w.getLsbD 11 := by
  cases h <;> rw [packUart_getLsbD_write] <;> rfl

theorem Selectors.Reads.isRead_of_wordAt {w : TxnWord} {present : Com → Bool} {write : Bool}
    {port : Port} {data : Byte} (h : sel.Reads w i)
    (hw : wordAt present write port data = some w) : i.isRead = !write := by
  unfold wordAt at hw
  split at hw
  · cases hw
    rw [h.isRead_pic, packPic_getLsbD_write]
  · split at hw
    · cases hw
      rw [h.isRead_uart, packUart_getLsbD_write]
    · cases hw

end Sys2Proof
end

section
/-! A call of one access (40_port_access.md rules R80 and R81): it begins, carries out its transaction
and ends. -/

namespace Sys2Proof.Machine

/-- The state in which the call whose actions are `actions` has just begun and `rest` waits. -/
def State.begun (s : State) (rest : List Call) (actions : List Action) : State :=
  s.withCalls rest [{ todo := actions, x := 0x00#8, y := 0x00#8 }]

section
variable {s r : State} {rest : List Call} {i : Instr}

theorem step_eq_begun {call : Call} {actions : List Action} (hq : s.Quiet)
    (hp : s.program = call :: rest)
    (hc : call.start { s with program := rest } = .run actions) :
    step s = .next (s.begun rest actions) := by
  rw [step_begins_call hq hp, enterCall, hc]
  simp only [hq.stack]
  rfl

/-- The first action of a call is carried out in the state in which the call has just begun. -/
theorem step_begun (hq : s.Quiet) (a : Action) (todo : List Action) :
    step (s.begun rest (a :: todo)) =
      act issue a { todo := a :: todo, x := 0x00#8, y := 0x00#8 } todo []
        (s.begun rest (a :: todo)) :=
  step_eq_act hq.schedule hq.failure rfl rfl

/-- The first access of a call answers what it answers between two calls, but for the calls. -/
theorem issueAt_begun {w : TxnWord} {write : Bool} {port : Port} {data : Byte}
    (hw : wordAt (fun u => (s.uart u).isSome) write port data = some w)
    (hdecode : decode (s.selectors w) w = .ok i) (hexec : exec i s = .next r)
    (actions : List Action) :
    issueAt issue write port data (s.begun rest actions) = .next (r.begun rest actions) := by
  rw [issueAt_of_wordAt (s := s.begun rest actions) hw hdecode, State.begun, exec_withCalls, hexec]
  rfl

/-- After its first transaction a call has issued that transaction's word. -/
theorem InCall.of_exec {words : List TxnWord} (hq : s.Quiet) (hexec : exec i s = .next r)
    (htrace : r.trace = s.trace ++ words) (actions todo : List Action) (f : Frame) :
    InCall s rest r.pic1 r.pic2 r.uarts words todo f.x f.y
      ((r.begun rest actions).goOn f todo []) := by
  obtain ⟨hparams, hvectors, -⟩ := exec_frame hexec
  obtain ⟨hschedule, hfailure, hresults⟩ := exec_keeps_driver hexec
  exact ⟨rfl, rfl, rfl, hparams, htrace, hresults, rfl, hvectors, hschedule.trans hq.schedule,
    hfailure.trans hq.failure, rfl⟩

end

end Sys2Proof.Machine

namespace Sys2Proof.Claims

open Sys2Proof.Machine

/-- A call that begins, makes one access and has nothing left but to end completes in three steps. -/
theorem completes_of_one_access {s b t : State} {rest : List Call} {p1 p2 : Pic} {us : Uarts}
    {words : List TxnWord} {ret : Ret} {x y : Byte} (hbegin : step s = .next b)
    (haccess : step b = .next t) (h : InCall s rest p1 p2 us words [.ret ret] x y t) :
    Completes 3 s rest p1 p2 us words (ret.result { todo := [.ret ret], x := x, y := y }) := by
  obtain ⟨t', hend, hends⟩ := h.ends rfl
  exact ⟨t', by rw [run_succ hbegin, run_succ haccess, run_succ hend, run_zero], hends⟩

/-- Settles O43: the call begins, `exec` of the decoded instruction answers its one access, and the
call ends with the byte read or with none. -/
theorem handleAccessIsOneTransaction : Obligations.HandleAccessIsOneTransaction := by
  unfold Obligations.HandleAccessIsOneTransaction
  intro s r rest port v w i hq hdecode hexec
  have hreads := reads_of_decode hdecode
  refine ⟨fun hp hw => ?read, fun hp hw => ?write⟩
  case read =>
    have htrace := exec_trace_read hexec (hreads.isRead_of_wordAt hw)
    exact completes_of_one_access (step_eq_begun hq hp rfl)
      ((step_begun hq _ _).trans (act_input (issueAt_begun hw hdecode hexec _)))
      (InCall.of_exec hq hexec htrace _ _ _)
  case write =>
    have hwrite : i.isRead = false := hreads.isRead_of_wordAt hw
    have hword : encode i = w := by rw [hreads.encode_eq, hwrite]; rfl
    have htrace : r.trace = s.trace ++ [w] := hword ▸ exec_trace_write hexec hwrite
    exact completes_of_one_access (step_eq_begun hq hp rfl)
      ((step_begun hq _ _).trans (act_output (issueAt_begun hw hdecode hexec _)))
      (InCall.of_exec hq hexec htrace _ _ _)

end Sys2Proof.Claims
end

section
/-! A range access within its bound begins as the handle access at `base + offset`
(40_port_access.md rules R82 and R83). -/

namespace Sys2Proof.Machine

section
variable {r : Range} {offset : Nat} {port : Port} (hoffset : offset < r.count)
  (hport : port.toNat = r.base.toNat + offset)
include hoffset hport

theorem withRange_within (access : Port → List Action) :
    withRange r offset access = .run (access port) := by
  rw [withRange, if_pos hoffset, ← hport, if_pos port.isLt, BitVec.ofNat_toNat,
    BitVec.setWidth_eq]

theorem start_rangeRead (s : State) :
    (Call.rangeRead r offset).start s = (Call.handleRead ⟨port, .w8⟩).start s := by
  simp only [Call.start, beginRangeRead, beginHandleRead, withRange_within hoffset hport]

theorem start_rangeWrite (v : Byte) (s : State) :
    (Call.rangeWrite r offset v).start s = (Call.handleWrite port (.v8 v)).start s := by
  simp only [Call.start, beginRangeWrite, beginHandleWrite, withRange_within hoffset hport]

end

/-- Two calls that begin alike make the same step between two calls. -/
theorem step_eq_of_same_start {s : State} {call call' : Call} {rest : List Call} (hq : s.Quiet)
    (hp : s.program = call :: rest)
    (hstart : call.start { s with program := rest } = call'.start { s with program := rest }) :
    step s = step { s with program := call' :: rest } := by
  have hq' : State.Quiet { s with program := call' :: rest } := ⟨hq.schedule, hq.failure, hq.stack⟩
  rw [step_begins_call hq hp, step_begins_call hq' rfl, enterCall, enterCall, hstart]

end Sys2Proof.Machine

namespace Sys2Proof.Claims

open Sys2Proof.Machine

/-- Settles O45: within the bound both calls begin with the same actions. -/
theorem rangeAccessIsTheHandleAccessAtItsOffset :
    Obligations.RangeAccessIsTheHandleAccessAtItsOffset := by
  unfold Obligations.RangeAccessIsTheHandleAccessAtItsOffset
  intro s rest r offset v port hq hoffset hport
  exact ⟨fun hp => step_eq_of_same_start hq hp (start_rangeRead hoffset hport _),
    fun hp => step_eq_of_same_start hq hp (start_rangeWrite hoffset hport v _)⟩

end Sys2Proof.Claims
end

section
/-! A write at a controller as its command (41_pic_commands.md rules R90 to R98), and the frame of a
transaction (rule R100): what it is not addressed to, it leaves alone. -/

namespace Sys2Proof.Machine

/-! ## Commands and their sites -/

theorem PicCommand.site {c : Ctl} {p q : Pic} {i : Instr} (h : PicCommand c p i q) :
    i.site = .inl c := by
  cases h <;> cases c <;> rfl

theorem UartCommand.site {u : Com} {d e : Uart} {i : Instr} (h : UartCommand u d i e) :
    i.site = .inr u := by
  cases h <;> rfl

section
variable {i : Instr} {c : Ctl} {s r : State}

/-- An admitted command answers: the controller moves to the command's state, and the transaction
ends. -/
theorem PicCommand.exec_eq {q : Pic} (h : PicCommand c (s.pic c) i q) :
    exec i s = finish (some c) (encode i) s (s.setPic c q) := by
  cases h with
  | icw1 => rw [exec_icw1, icw1At]
  | icw2 b admitted awaited => rw [exec_icw2, icw2At, if_pos admitted, picWrite_ready awaited]
  | icw3 awaited => rw [exec_icw3, picWrite_ready awaited]
  | icw4 awaited => rw [exec_icw4, picWrite_ready awaited]
  | ocw1 b ready => rw [exec_ocw1, picWrite_ready ready]
  | eoi ready => rw [exec_eoi, picWrite_ready ready]
  | selIrr ready => rw [exec_selIrr, picWrite_ready ready]
  | selIsr ready => rw [exec_selIsr, picWrite_ready ready]

/-- A write that answers a next state is an admitted command of a controller, or goes to a UART. -/
theorem exec_write_command (hwrite : i.isRead = false) (h : exec i s = .next r) :
    (∃ c q, PicCommand c (s.pic c) i q) ∨ ∃ u, i.site = .inr u := by
  induction i using instr_cases with
  | icw1 c => exact .inl ⟨c, _, .icw1⟩
  | icw2 c b =>
    rw [exec_icw2] at h
    obtain ⟨admitted, h⟩ := icw2At_next_iff.1 h
    exact .inl ⟨c, _, .icw2 b admitted (picWrite_next_iff.1 h).1⟩
  | icw3 c =>
    rw [exec_icw3] at h
    exact .inl ⟨c, _, .icw3 (picWrite_next_iff.1 h).1⟩
  | icw4 c =>
    rw [exec_icw4] at h
    exact .inl ⟨c, _, .icw4 (picWrite_next_iff.1 h).1⟩
  | ocw1 c b =>
    rw [exec_ocw1] at h
    exact .inl ⟨c, _, .ocw1 b (picWrite_next_iff.1 h).1⟩
  | eoi c =>
    rw [exec_eoi] at h
    exact .inl ⟨c, _, .eoi (picWrite_next_iff.1 h).1⟩
  | selIrr c =>
    rw [exec_selIrr] at h
    exact .inl ⟨c, _, .selIrr (picWrite_next_iff.1 h).1⟩
  | selIsr c =>
    rw [exec_selIsr] at h
    exact .inl ⟨c, _, .selIsr (picWrite_next_iff.1 h).1⟩
  | rdImr c | rdSel c => cases c <;> cases hwrite
  | uart i u hsite => exact .inr ⟨u, hsite⟩

/-- A write at a controller that answers a next state is an admitted command of that controller. -/
theorem exec_write_command_at (hsite : i.site = .inl c) (hwrite : i.isRead = false)
    (h : exec i s = .next r) : ∃ q, PicCommand c (s.pic c) i q := by
  rcases exec_write_command hwrite h with ⟨d, q, hcmd⟩ | ⟨u, hu⟩
  · obtain rfl : d = c := Sum.inl.inj (hcmd.site.symm.trans hsite)
    exact ⟨q, hcmd⟩
  · cases hsite.symm.trans hu

/-! ## The frame -/

/-- A transaction leaves alone the controllers it is not addressed to. -/
theorem exec_pic_of_site_ne (h : exec i s = .next r) (hsite : i.site ≠ .inl c) :
    r.pic c = s.pic c :=
  (exec_pic_cases h c).resolve_right fun hcmd => hsite hcmd.site

/-- A transaction leaves alone the UARTs it is not addressed to. -/
theorem exec_uart_of_site_ne {u : Com} (h : exec i s = .next r) (hsite : i.site ≠ .inr u) :
    r.uart u = s.uart u :=
  (exec_uart_cases h u).resolve_right fun ⟨_, _, _, _, hcmd⟩ => hsite hcmd.site

/-- A read leaves both controllers alone. -/
theorem exec_read_pic (h : exec i s = .next r) (hread : i.isRead = true) (c : Ctl) :
    r.pic c = s.pic c :=
  (exec_pic_cases h c).resolve_right fun hcmd => nomatch hread.symm.trans hcmd.not_isRead

/-- A write returns no byte and draws none. -/
theorem exec_write_keeps_returned (h : exec i s = .next r) (hwrite : i.isRead = false) :
    r.returned = s.returned ∧ r.draws = s.draws := by
  rcases exec_next_cases h with ⟨_, _, -, -, hf⟩ | ⟨_, _, -, hread, -⟩ | ⟨_, _, _, -, -, -, -, hf⟩ |
    ⟨_, _, _, _, -, hread, -, -, -⟩ | ⟨_, _, -, hread, -⟩
  case inl | inr.inr.inl =>
    obtain rfl := finish_next_iff.1 hf
    simp
  all_goals exact nomatch hwrite.symm.trans hread

/-- A transaction leaves the calls, waiting and in progress, as they are. -/
theorem exec_keeps_calls (h : exec i s = .next r) :
    r.program = s.program ∧ r.stack = s.stack := by
  have hsame : exec i s = Answer.andThen (exec i s) (·.withCalls s.program s.stack) :=
    exec_withCalls s s.program s.stack i
  rw [h, andThen_next, Host.Outcome.next.injEq] at hsame
  rw [hsame]
  exact ⟨rfl, rfl⟩

end

/-! ## The output and the end of interrupt -/

theorem intOut_of_not_ready {s : State} {c : Ctl} (h : (s.pic c).phase ≠ .ready) :
    s.intOut c = false :=
  Bool.eq_false_iff.2 fun hout => h ((intOut_iff s c).1 hout).1

theorem endOfInterrupt_of_none {p : Pic} (h : p.isr = 0x00#8) : p.endOfInterrupt = p := if_pos h

theorem endOfInterrupt_of_some {p : Pic} (h : p.isr ≠ 0x00#8) :
    p.endOfInterrupt = { p with isr := p.isr &&& ~~~bit (lsb p.isr) } := if_neg h

@[simp] theorem setPic_pic_self (s : State) (c : Ctl) : s.setPic c (s.pic c) = s := by
  cases c <;> rfl

theorem icw2Admitted_iff {b : Byte} : icw2Admitted b = true ↔ b &&& 0x07#8 = 0x00#8 := beq_iff_eq

end Sys2Proof.Machine
end

section
/-! The transactions of a controller in the form the statements give them: the word, and the state
`after` it. -/

namespace Sys2Proof.Claims

open Sys2Proof.Machine

/-! ## Words -/

theorem encode_eoi (c : Ctl) : encode (.eoi c) = cmdWrite c 0x20#8 := by
  rw [← cmdPort_word]
  cases c <;> rfl

theorem encode_rdImr_withData (c : Ctl) (b : Byte) :
    (encode (.rdImr c)).withData b = dataRead c b := by
  have hword : TxnWord.pic25 (packPic false c.dataPort b) = dataRead c b := by
    rw [packPic_eq_or]
    cases c <;> rfl
  rw [← hword]
  cases c <;> exact withData_pic ..

theorem encode_rdSel_withData (c : Ctl) (b : Byte) :
    (encode (.rdSel c)).withData b = cmdRead c b := by
  have hword : TxnWord.pic25 (packPic false c.cmdPort b) = cmdRead c b := by
    rw [packPic_eq_or]
    cases c <;> rfl
  rw [← hword]
  cases c <;> exact withData_pic ..

/-! ## The state a transaction leaves -/

theorem finish_eq_after (at? : Option Ctl) (w : TxnWord) (s t : State) :
    finish at? w s t = .next (after at? w s t) := by
  simp [finish, after, intDroppedAfter, and_assoc]

/-- A transaction at a controller leaves `int_dropped` clear or naming that controller. -/
theorem after_intDropped (c : Ctl) (w : TxnWord) (s t : State) :
    (after (some c) w s t).intDropped = none ∨ (after (some c) w s t).intDropped = some c := by
  unfold after
  split
  · exact .inr rfl
  · exact .inl rfl

/-- An admitted command answers the state after it. -/
theorem command_after {c : Ctl} {s : State} {i : Instr} {q : Pic}
    (h : PicCommand c (s.pic c) i q) :
    exec i s = .next (after (some c) (encode i) s (s.setPic c q)) := by
  rw [h.exec_eq, finish_eq_after]

theorem picRead_after {c : Ctl} {s : State} (h : (s.pic c).phase = .ready) (i : Instr)
    (value : Byte) :
    picRead i c value s = .next (after (some c) ((encode i).withData value) s
      { s with returned := value }) := by
  rw [picRead, if_pos h, finish_eq_after]
  rfl

/-! ## The claims -/

/-- Settles O26: a device changes only by its own commands, and each of the other fields is kept by
every transaction, or by every write. -/
theorem transactionTouchesOnlyItsDevice : Obligations.TransactionTouchesOnlyItsDevice := by
  unfold Obligations.TransactionTouchesOnlyItsDevice
  intro i s t h
  obtain ⟨hparams, hvectors, -⟩ := exec_frame h
  obtain ⟨hschedule, hfailure, hresults⟩ := exec_keeps_driver h
  obtain ⟨hprogram, hstack⟩ := exec_keeps_calls h
  refine ⟨fun _ => exec_pic_of_site_ne h, fun _ => exec_uart_of_site_ne h, hparams, hvectors,
    hfailure, hschedule, hprogram, hstack, hresults, fun hwrite => ?_, fun hread => ?_⟩
  · obtain ⟨hreturned, hdraws⟩ := exec_write_keeps_returned h hwrite
    exact ⟨hreturned, hdraws, exec_trace_write h hwrite⟩
  · exact ⟨exec_read_pic h hread .P, exec_read_pic h hread .S, exec_trace_read h hread⟩

/-- Settles O27: each write is a command of its own controller, which the other write leaves alone,
so it is admitted in either order and writes the same. -/
theorem writesAtTheTwoControllersCommute : Obligations.WritesAtTheTwoControllersCommute := by
  unfold Obligations.WritesAtTheTwoControllersCommute
  intro i j s a b hi hj hwi hwj ha hb
  obtain ⟨p, hp⟩ := exec_write_command_at hi hwi ha
  obtain ⟨q, hq⟩ := exec_write_command_at hj hwj hb
  obtain rfl := Host.Outcome.next.inj (ha.symm.trans (command_after hp))
  obtain rfl := Host.Outcome.next.inj (hb.symm.trans (command_after hq))
  have hj' : exec j s = .next (after (some .S) (encode j) s (s.setPic .S q)) := command_after hq
  have hi' := command_after (s := after (some .S) (encode j) s (s.setPic .S q)) hp
  refine ⟨_, _, hj', hi', ?_, after_intDropped .., after_intDropped ..⟩
  simp [after, State.setPic]

/-- Settles O8: ICW1 is admitted in every phase, and only a ready controller raises its output. -/
theorem icw1OpensTheSequence : Obligations.Icw1OpensTheSequence := by
  unfold Obligations.Icw1OpensTheSequence
  intro c s
  rw [← encode_icw1]
  exact ⟨command_after .icw1, intOut_of_not_ready⟩

/-- Settles O9: the operand is checked first, then the phase. -/
theorem icw2SetsTheVectorBase : Obligations.Icw2SetsTheVectorBase := by
  unfold Obligations.Icw2SetsTheVectorBase
  intro c b s
  rw [← encode_icw2]
  refine ⟨fun hb awaited => command_after (.icw2 b (icw2Admitted_iff.2 hb) awaited), fun hb => ?_⟩
  rw [exec_icw2, icw2At, if_neg fun admitted => hb (icw2Admitted_iff.1 admitted)]

/-- Settles O10: both words are admitted in the phase that awaits them. -/
theorem icw3AndIcw4CompleteTheSequence : Obligations.Icw3AndIcw4CompleteTheSequence := by
  unfold Obligations.Icw3AndIcw4CompleteTheSequence
  refine ⟨fun c s awaited => ?_, fun c s awaited => ?_⟩
  · have hbyte : atCtl c 0x04#8 0x02#8 = c.icw3Byte := by cases c <;> rfl
    rw [← encode_icw3, hbyte]
    exact command_after (.icw3 awaited)
  · rw [← encode_icw4]
    exact command_after (.icw4 awaited)

/-- Settles O11: the mask write takes the whole byte, and the mask read is a read of it. -/
theorem maskIsWrittenAndReadExactly : Obligations.MaskIsWrittenAndReadExactly := by
  unfold Obligations.MaskIsWrittenAndReadExactly
  refine ⟨fun c b s ready => ?_, fun c s ready => ?_⟩
  · rw [← encode_ocw1]
    exact command_after (.ocw1 b ready)
  · rw [exec_rdImr, picRead_after ready, encode_rdImr_withData]

/-- Settles O12: by whether a bit is in service. -/
theorem eoiClearsTheLowestInServiceBit : Obligations.EoiClearsTheLowestInServiceBit := by
  unfold Obligations.EoiClearsTheLowestInServiceBit
  intro c s ready
  rw [← encode_eoi, command_after (.eoi ready)]
  refine ⟨fun hsome => ?_, fun hnone => ?_⟩
  · rw [endOfInterrupt_of_some hsome, bit]
  · rw [endOfInterrupt_of_none hnone, setPic_pic_self]

/-- Settles O13: each is a command that writes the latch alone. -/
theorem readSelectCommandsSetTheLatch : Obligations.ReadSelectCommandsSetTheLatch := by
  unfold Obligations.ReadSelectCommandsSetTheLatch
  intro c s ready
  rw [← encode_selIrr, ← encode_selIsr]
  exact ⟨command_after (.selIrr ready), command_after (.selIsr ready)⟩

/-- Settles O14: the read returns the register the latch selects. -/
theorem selectedReadReturnsTheSelectedRegister :
    Obligations.SelectedReadReturnsTheSelectedRegister := by
  unfold Obligations.SelectedReadReturnsTheSelectedRegister
  intro c s ready
  rw [exec_rdSel, picRead_after ready, encode_rdSel_withData, State.selected]
  exact ⟨fun hsel => by rw [hsel], fun hsel => by rw [hsel]⟩

end Sys2Proof.Claims
end

section
/-! Calls at the controllers with no other agent moving (42_pic_driver_ops.md): what each access of a
call answers in any state with the same controllers, and the calls that fail when they begin. -/

namespace Sys2Proof.Machine

/-! ## Runs -/

/-- A run goes on from where a shorter one stood. -/
theorem run_add {n : Nat} {s t : State} (h : run n s = .next t) (m : Nat) :
    run (n + m) s = run m t := by
  induction n generalizing s with
  | zero =>
    cases h
    rw [Nat.zero_add]
  | succ n ih =>
    cases hstep : step s with
    | next u =>
      rw [run_succ hstep] at h
      rw [Nat.add_right_comm, run_succ hstep, ih h]
    | fault f => simp [run, Host.Core.run, Sys2Proof.core, hstep] at h
    | refused r => simp [run, Host.Core.run, Sys2Proof.core, hstep] at h

theorem run_then_step {n : Nat} {s t u : State} (h : run n s = .next t) (hstep : step t = .next u) :
    run (n + 1) s = .next u :=
  (run_add h 1).trans (run_succ hstep)

/-- A call whose assertion fails is begun and gone, and the failure is recorded (log entry 10). -/
theorem step_fails_call {s : State} {call : Call} {rest : List Call} {f : Fault} (hq : s.Quiet)
    (hp : s.program = call :: rest) (hc : call.start { s with program := rest } = .fail f) :
    step s = .next { s with program := rest, failure := some f } := by
  rw [step_begins_call hq hp, enterCall, hc]
  rfl

/-! ## One access -/

/-- The controllers of two states are alike. -/
def State.SamePics (s t : State) : Prop := s.pic1 = t.pic1 ∧ s.pic2 = t.pic2

section
variable {s t : State} {c : Ctl}

theorem State.SamePics.pic (h : t.SamePics s) (c : Ctl) : t.pic c = s.pic c := by
  cases c with
  | P => exact h.1
  | S => exact h.2

theorem State.SamePics.setPic (h : t.SamePics s) (c : Ctl) (p : Pic) :
    (t.setPic c p).SamePics (s.setPic c p) := by
  cases c with
  | P => exact ⟨rfl, h.2⟩
  | S => exact ⟨h.1, rfl⟩

theorem State.SamePics.irr (h : t.SamePics s) (c : Ctl) : t.irr c = s.irr c := by
  obtain ⟨p1, p2, _⟩ := t
  obtain ⟨rfl, rfl⟩ := h
  cases c <;> rfl

/-- The selected register is read off the controllers alone. -/
theorem State.SamePics.selected (h : t.SamePics s) (c : Ctl) : t.selected c = s.selected c := by
  unfold State.selected
  rw [h.pic c, h.irr c]

theorem issueAt_rdImr (ready : (s.pic c).phase = .ready) (ht : t.SamePics s) :
    issueAt issue false c.dataPort 0x00#8 t =
      finish (some c) ((encode (.rdImr c)).withData (s.pic c).imr) t
        (t.setReturned (s.pic c).imr) := by
  rw [issueAt_data c false 0x00#8 t rfl, exec_rdImr, picRead, ht.pic c, if_pos ready]

theorem issueAt_rdSel (ready : (s.pic c).phase = .ready) (ht : t.SamePics s) :
    issueAt issue false c.cmdPort 0x00#8 t =
      finish (some c) ((encode (.rdSel c)).withData (s.selected c)) t
        (t.setReturned (s.selected c)) := by
  rw [issueAt_cmd c false 0x00#8 t rfl, exec_rdSel, picRead, ht.pic c, if_pos ready,
    ht.selected c]

end

@[simp] theorem store_todo (f : Frame) (dst : Slot) (b : Byte) : (f.store dst b).todo = f.todo := by
  cases dst <;> rfl

/-! ## Bytes -/

/-- Bit `i` of `1 << k`. -/
theorem bit_getLsbD (k : Nat) {i : Nat} (hi : i < 8) : (bit k).getLsbD i = decide (k = i) := by
  rw [bit, ← BitVec.twoPow_eq, BitVec.getLsbD_twoPow]
  by_cases hk : k = i <;> simp [hk, hi]

/-- Setting a mask bit undoes clearing it, where it was set. -/
theorem setMask_clearMask_bit {m : Byte} {k : Nat} (h : m.getLsbD k = true) :
    setMask (clearMask m (bit k)) (bit k) = m := by
  apply BitVec.eq_of_getLsbD_eq
  intro i hi
  rw [setMask, clearMask, BitVec.getLsbD_or, BitVec.getLsbD_and, BitVec.getLsbD_not,
    bit_getLsbD k hi]
  by_cases hk : k = i
  · simp [← hk, h]
  · simp [hk, hi]

end Sys2Proof.Machine
end

section
/-! What a call at the controllers does, as a relation over its actions: one rule per transaction, in
the words and effects of the statements. A call that stands in the relation completes in one step
for its beginning and one for each of its actions. -/

namespace Sys2Proof.Claims

open Sys2Proof.Machine

/-- `PicCall dev f dev' words r`: the call at the controllers that stands at `f` takes the devices of
`dev` to those of `dev'`, issues `words` and returns `r`. -/
inductive PicCall : State → Frame → State → List TxnWord → Result → Prop
  | ret (dev : State) (r : Ret) (x y : Byte) :
    PicCall dev { todo := [.ret r], x := x, y := y } dev []
      (r.result { todo := [.ret r], x := x, y := y })
  | write {dev dev' : State} {c : Ctl} {q : Pic} {port : Port} {e : ByteExpr} {todo : List Action}
      {x y : Byte} {w : TxnWord} {words : List TxnWord} {r : Result}
      (access : ∀ t : State, t.SamePics dev →
        issueAt issue true port (e.eval { todo := .output port e :: todo, x := x, y := y }) t =
          finish (some c) w t (t.setPic c q))
      (more : PicCall (dev.setPic c q) { todo := todo, x := x, y := y } dev' words r) :
    PicCall dev { todo := .output port e :: todo, x := x, y := y } dev' (w :: words) r
  | read {dev dev' : State} {c : Ctl} {v : Byte} {port : Port} {dst : Slot} {todo : List Action}
      {x y : Byte} {w : TxnWord} {words : List TxnWord} {r : Result}
      (access : ∀ t : State, t.SamePics dev →
        issueAt issue false port 0x00#8 t = finish (some c) w t (t.setReturned v))
      (more : PicCall dev (Frame.store { todo := todo, x := x, y := y } dst v) dev' words r) :
    PicCall dev { todo := .input port dst :: todo, x := x, y := y } dev' (w :: words) r

/-! ## The relation describes the machine -/

section
variable {s t dev dev' : State} {rest : List Call} {f : Frame} {words issued : List TxnWord}
  {r : Result} {n : Nat}

/-- The call begun in `s` stands at `f` in the state `t`, with the devices of `dev`. -/
def StandsAt (s : State) (rest : List Call) (dev : State) (words : List TxnWord) (f : Frame)
    (t : State) : Prop :=
  InCall s rest dev.pic1 dev.pic2 dev.uarts words f.todo f.x f.y t

theorem StandsAt.samePics (h : StandsAt s rest dev words f t) : t.SamePics dev := ⟨h.pic1, h.pic2⟩

theorem StandsAt.writes {c : Ctl} {q : Pic} {port : Port} {e : ByteExpr} {todo : List Action}
    {x y : Byte} {w : TxnWord}
    (h : StandsAt s rest dev words { todo := .output port e :: todo, x := x, y := y } t)
    (haccess :
      issueAt issue true port (e.eval { todo := .output port e :: todo, x := x, y := y }) t =
        finish (some c) w t (t.setPic c q)) :
    ∃ t', step t = .next t' ∧
      StandsAt s rest (dev.setPic c q) (words ++ [w]) { todo := todo, x := x, y := y } t' := by
  obtain ⟨t', hstep, hcall⟩ := InCall.writes_pic h haccess
  obtain ⟨hpic1, hpic2⟩ := h.samePics.setPic c q
  rw [hpic1, hpic2, ← setPic_uarts dev c q] at hcall
  exact ⟨t', hstep, hcall⟩

theorem StandsAt.reads {c : Ctl} {v : Byte} {port : Port} {dst : Slot} {todo : List Action}
    {x y : Byte} {w : TxnWord}
    (h : StandsAt s rest dev words { todo := .input port dst :: todo, x := x, y := y } t)
    (haccess : issueAt issue false port 0x00#8 t = finish (some c) w t (t.setReturned v)) :
    ∃ t', step t = .next t' ∧
      StandsAt s rest dev (words ++ [w])
        (Frame.store { todo := todo, x := x, y := y } dst v) t' := by
  cases dst with
  | x => exact InCall.reads_pic h haccess
  | y => exact InCall.reads_pic_second h haccess

theorem StandsAt.completes (h : PicCall dev f dev' issued r) (hrun : run n s = .next t)
    (hat : StandsAt s rest dev words f t) :
    Completes (n + f.todo.length) s rest dev'.pic1 dev'.pic2 dev'.uarts (words ++ issued) r := by
  induction h generalizing n t words with
  | ret dev r x y =>
    obtain ⟨t', hstep, hend⟩ := InCall.ends hat rfl
    rw [List.append_nil]
    exact ⟨t', run_then_step hrun hstep, hend⟩
  | write access more ih =>
    obtain ⟨t', hstep, hat'⟩ := hat.writes (access t hat.samePics)
    have hdone := ih (run_then_step hrun hstep) hat'
    rw [List.append_assoc, Nat.add_right_comm] at hdone
    exact hdone
  | read access more ih =>
    obtain ⟨t', hstep, hat'⟩ := hat.reads (access t hat.samePics)
    have hdone := ih (run_then_step hrun hstep) hat'
    rw [store_todo, List.append_assoc, Nat.add_right_comm] at hdone
    exact hdone

/-- A call whose actions the relation accounts for completes from every quiet state. -/
theorem completes_of_picCall {call : Call} {actions : List Action} (hq : s.Quiet)
    (hp : s.program = call :: rest)
    (hstart : call.start { s with program := rest } = .run actions)
    (h : PicCall s { todo := actions, x := 0x00#8, y := 0x00#8 } dev' issued r) :
    Completes (1 + actions.length) s rest dev'.pic1 dev'.pic2 dev'.uarts issued r := by
  obtain ⟨t, hbegin, hcall⟩ := InCall.begin_call hq hp hstart
  exact StandsAt.completes (n := 1) h (run_succ hbegin) hcall

end

/-! ## The rules, one per transaction of the driver -/

section
variable {dev dev' : State} {todo : List Action} {x y : Byte} {words : List TxnWord} {r : Result}

theorem PicCall.writeCmd {c : Ctl} {v : Byte} {i : Instr} {q : Pic} {w : TxnWord}
    (hdecode : decodeCmd c true v = .ok i) (hcmd : PicCommand c (dev.pic c) i q)
    (hword : encode i = w)
    (more : PicCall (dev.setPic c q) { todo := todo, x := x, y := y } dev' words r) :
    PicCall dev { todo := out8 c.cmdPort v :: todo, x := x, y := y } dev' (w :: words) r := by
  refine .write (fun t ht => ?_) more
  rw [ByteExpr.eval, issueAt_cmd c true v t hdecode, ← hword]
  exact PicCommand.exec_eq (ht.pic c ▸ hcmd)

theorem PicCall.writeData {c : Ctl} {e : ByteExpr} {v : Byte} {i : Instr} {q : Pic} {w : TxnWord}
    (he : e.eval { todo := .output c.dataPort e :: todo, x := x, y := y } = v)
    (hdecode : decodeData c (dev.pic c).phase true v = .ok i)
    (hcmd : PicCommand c (dev.pic c) i q) (hword : encode i = w)
    (more : PicCall (dev.setPic c q) { todo := todo, x := x, y := y } dev' words r) :
    PicCall dev { todo := .output c.dataPort e :: todo, x := x, y := y } dev' (w :: words) r := by
  refine .write (fun t ht => ?_) more
  rw [he, issueAt_data c true v t (ht.pic c ▸ hdecode), ← hword]
  exact PicCommand.exec_eq (ht.pic c ▸ hcmd)

theorem PicCall.icw1 (c : Ctl)
    (more : PicCall (dev.setPic c (dev.pic c).icw1Effect) { todo := todo, x := x, y := y } dev'
      words r) :
    PicCall dev { todo := out8 c.cmdPort cmdInit :: todo, x := x, y := y } dev'
      (cmdWrite c 0x11#8 :: words) r :=
  .writeCmd rfl .icw1 (encode_icw1 c) more

theorem PicCall.icw2 (c : Ctl) {b : Byte} (hb : b &&& 0x07#8 = 0x00#8)
    (awaited : (dev.pic c).phase = .waitIcw2)
    (more : PicCall (dev.setPic c ((dev.pic c).icw2Effect b)) { todo := todo, x := x, y := y } dev'
      words r) :
    PicCall dev { todo := out8 c.dataPort b :: todo, x := x, y := y } dev'
      (dataWrite c b :: words) r := by
  have admitted := icw2Admitted_iff.2 hb
  refine .writeData rfl ?_ (.icw2 b admitted awaited) (encode_icw2 c b) more
  rw [awaited]
  exact if_pos admitted

theorem PicCall.icw3 (c : Ctl) (awaited : (dev.pic c).phase = .waitIcw3)
    (more : PicCall (dev.setPic c ((dev.pic c).icw3Effect c.icw3Byte))
      { todo := todo, x := x, y := y } dev' words r) :
    PicCall dev { todo := out8 c.dataPort c.icw3Byte :: todo, x := x, y := y } dev'
      (dataWrite c (atCtl c 0x04#8 0x02#8) :: words) r := by
  refine .writeData rfl ?_ (.icw3 awaited) (encode_icw3 c) more
  simp [decodeData, awaited, ByteExpr.eval]

theorem PicCall.icw4 (c : Ctl) (awaited : (dev.pic c).phase = .waitIcw4)
    (more : PicCall (dev.setPic c ((dev.pic c).icw4Effect icw4Byte))
      { todo := todo, x := x, y := y } dev' words r) :
    PicCall dev { todo := out8 c.dataPort icw4Byte :: todo, x := x, y := y } dev'
      (dataWrite c 0x01#8 :: words) r := by
  refine .writeData rfl ?_ (.icw4 awaited) (encode_icw4 c) more
  rw [awaited]
  rfl

theorem PicCall.ocw1 (c : Ctl) {e : ByteExpr} {b : Byte} (ready : (dev.pic c).phase = .ready)
    (he : e.eval { todo := .output c.dataPort e :: todo, x := x, y := y } = b)
    (more : PicCall (dev.setPic c { dev.pic c with imr := b }) { todo := todo, x := x, y := y } dev'
      words r) :
    PicCall dev { todo := .output c.dataPort e :: todo, x := x, y := y } dev'
      (dataWrite c b :: words) r := by
  refine .writeData he ?_ (.ocw1 b ready) (encode_ocw1 c b) more
  rw [ready]
  rfl

theorem PicCall.eoi (c : Ctl) (ready : (dev.pic c).phase = .ready)
    (more : PicCall (dev.setPic c (afterEoi (dev.pic c))) { todo := todo, x := x, y := y } dev'
      words r) :
    PicCall dev { todo := out8 c.cmdPort cmdEoi :: todo, x := x, y := y } dev'
      (cmdWrite c 0x20#8 :: words) r :=
  .writeCmd rfl (.eoi ready) (encode_eoi c) more

/-- The read-select command of a register (rules R97 and R98). -/
def selectByte : ReadSel → Byte
  | .selIrr => cmdReadIrr
  | .selIsr => cmdReadIsr

theorem PicCall.select (c : Ctl) (sel : ReadSel) (ready : (dev.pic c).phase = .ready)
    (more : PicCall (dev.setPic c { dev.pic c with readSel := sel }) { todo := todo, x := x, y := y }
      dev' words r) :
    PicCall dev { todo := out8 c.cmdPort (selectByte sel) :: todo, x := x, y := y } dev'
      (cmdWrite c (selectByte sel) :: words) r := by
  cases sel with
  | selIrr => exact .writeCmd rfl (.selIrr ready) (encode_selIrr c) more
  | selIsr => exact .writeCmd rfl (.selIsr ready) (encode_selIsr c) more

theorem PicCall.rdImr (c : Ctl) {dst : Slot} (ready : (dev.pic c).phase = .ready)
    (more : PicCall dev (Frame.store { todo := todo, x := x, y := y } dst (dev.pic c).imr) dev'
      words r) :
    PicCall dev { todo := .input c.dataPort dst :: todo, x := x, y := y } dev'
      (dataRead c (dev.pic c).imr :: words) r :=
  .read (fun _ ht => encode_rdImr_withData c _ ▸ issueAt_rdImr ready ht) more

theorem PicCall.rdSel (c : Ctl) {dst : Slot} (ready : (dev.pic c).phase = .ready)
    (more : PicCall dev (Frame.store { todo := todo, x := x, y := y } dst (dev.selected c)) dev'
      words r) :
    PicCall dev { todo := .input c.cmdPort dst :: todo, x := x, y := y } dev'
      (cmdRead c (dev.selected c) :: words) r :=
  .read (fun _ ht => encode_rdSel_withData c _ ▸ issueAt_rdSel ready ht) more

end

end Sys2Proof.Claims
end

section
/-! What the operations of the interrupt controller driver begin with (42_pic_driver_ops.md rules R110,
R112, R115 and R116). -/

namespace Sys2Proof.Machine

section
variable {offset : Byte} {irq : Nat} {actions : List Action} {s : State}

theorem start_picInit_low (h : offset.toNat < 32) :
    (Call.picInit offset).start s = .fail (.badVectorOffset offset) := if_pos h

theorem start_picInit_admitted (hlow : 32 ≤ offset.toNat) (hbits : offset &&& 0x07#8 = 0x00#8)
    (hhigh : offset.toNat ≤ 240) :
    (Call.picInit offset).start s = .run (picInitActions offset) := by
  have hadmitted : offsetAdmitted offset = true := by simp [offsetAdmitted, hbits, hhigh]
  exact (if_neg (Nat.not_lt.2 hlow)).trans (if_pos hadmitted)

theorem start_picInit_not_admitted (hlow : 32 ≤ offset.toNat)
    (h : offset &&& 0x07#8 ≠ 0x00#8 ∨ 240 < offset.toNat) :
    (Call.picInit offset).start s = .refuse (.vectorOffsetNotAdmitted offset) := by
  have hadmitted : ¬ offsetAdmitted offset = true := by
    simpa [offsetAdmitted, imp_iff_not_or] using h
  exact (if_neg (Nat.not_lt.2 hlow)).trans (if_neg hadmitted)

theorem withIrq_below (h : irq < 16) : withIrq irq actions = .run actions := if_pos h

theorem withIrq_beyond (h : 16 ≤ irq) : withIrq irq actions = .fail (.badIrqIndex irq) :=
  if_neg (Nat.not_lt.2 h)

end

/-- The devices with one register selected at both controllers. -/
def State.selecting (s : State) (sel : ReadSel) : State :=
  (s.setPic .P { s.pic1 with readSel := sel }).setPic .S { s.pic2 with readSel := sel }

/-- The secondary's vector base is a multiple of 8 too. -/
theorem secondaryOffset_low_bits {offset : Byte} (h : offset &&& 0x07#8 = 0x00#8) :
    secondaryOffset offset &&& 0x07#8 = 0x00#8 := by
  have low : ∀ b : Byte, b &&& 0x07#8 = 0x00#8 ↔ b.toNat % 8 = 0 := by
    intro b
    rw [← BitVec.toNat_inj, BitVec.toNat_and]
    exact iff_of_eq (congrArg (· = 0) (Nat.and_two_pow_sub_one_eq_mod b.toNat 3))
  rw [low] at h ⊢
  rw [secondaryOffset, BitVec.toNat_add, BitVec.toNat_ofNat]
  omega

end Sys2Proof.Machine
end

section
/-! The operations of the interrupt controller driver (42_pic_driver_ops.md rules R110 to R118): each
completes as the rules of its transactions say, one after the other. -/

namespace Sys2Proof.Claims

open Sys2Proof.Machine

section
variable {s : State} {rest : List Call} (hq : s.Quiet)
include hq

theorem picInit_completes {offset : Byte} (hp : s.program = .picInit offset :: rest)
    (hlow : 32 ≤ offset.toNat) (hbits : offset &&& 0x07#8 = 0x00#8) (hhigh : offset.toNat ≤ 240) :
    Completes 12 s rest
      { imr := 0xFF#8, irr := 0x00#8, isr := 0x00#8, vbase := offset, phase := .ready,
        icw1 := 0x11#8, icw3 := 0x04#8, icw4 := 0x01#8, readSel := .selIrr }
      { imr := 0xFF#8, irr := 0x00#8, isr := 0x00#8, vbase := offset + 8#8, phase := .ready,
        icw1 := 0x11#8, icw3 := 0x02#8, icw4 := 0x01#8, readSel := .selIrr }
      s.uarts
      [cmdWrite .P 0x11#8, cmdWrite .S 0x11#8, dataWrite .P offset,
        dataWrite .S (offset + 8#8), dataWrite .P 0x04#8, dataWrite .S 0x02#8,
        dataWrite .P 0x01#8, dataWrite .S 0x01#8, dataWrite .P 0xFF#8, dataWrite .S 0xFF#8]
      .unit :=
  completes_of_picCall hq hp (start_picInit_admitted hlow hbits hhigh) <|
    .icw1 .P <| .icw1 .S <|
    .icw2 .P hbits rfl <| .icw2 .S (secondaryOffset_low_bits hbits) rfl <|
    .icw3 .P rfl <| .icw3 .S rfl <| .icw4 .P rfl <| .icw4 .S rfl <|
    .ocw1 .P rfl rfl <| .ocw1 .S rfl rfl <| .ret ..

variable (hready : s.BothReady)
include hready

/-- `set_mask`, and `disable` with it. -/
theorem setMask_completes {call : Call} {p q : Byte} (hp : s.program = call :: rest)
    (hstart : call.start { s with program := rest } = .run (setMaskActions p q)) :
    Completes 4 s rest { s.pic1 with imr := p } { s.pic2 with imr := q } s.uarts
      [dataWrite .P p, dataWrite .S q] .unit :=
  completes_of_picCall hq hp hstart <|
    .ocw1 .P hready.1 rfl <| .ocw1 .S hready.2 rfl <| .ret ..

theorem getMask_completes (hp : s.program = .getMask :: rest) :
    Completes 4 s rest s.pic1 s.pic2 s.uarts
      [dataRead .P s.pic1.imr, dataRead .S s.pic2.imr] (.pair s.pic1.imr s.pic2.imr) :=
  completes_of_picCall hq hp rfl <|
    .rdImr .P (dst := .x) hready.1 <| .rdImr .S (dst := .y) hready.2 <| .ret _ .pair _ _

/-- `get_irr` and `get_isr`: the registers as they read with the select commands given. -/
theorem getSelected_completes {call : Call} (sel : ReadSel) (hp : s.program = call :: rest)
    (hstart : call.start { s with program := rest } = .run (getSelectedActions (selectByte sel))) :
    Completes 6 s rest (s.selecting sel).pic1 (s.selecting sel).pic2 (s.selecting sel).uarts
      [cmdWrite .P (selectByte sel), cmdWrite .S (selectByte sel),
        cmdRead .P ((s.selecting sel).selected .P), cmdRead .S ((s.selecting sel).selected .S)]
      (.pair ((s.selecting sel).selected .P) ((s.selecting sel).selected .S)) :=
  completes_of_picCall hq hp hstart <|
    .select .P sel hready.1 <| .select .S sel hready.2 <|
    .rdSel .P (dst := .x) hready.1 <| .rdSel .S (dst := .y) hready.2 <| .ret _ .pair _ _

section
variable {irq : Nat}

theorem eoi_primary_completes (hp : s.program = .eoi irq :: rest) (h : irq < 8) :
    Completes 3 s rest (afterEoi s.pic1) s.pic2 s.uarts [cmdWrite .P 0x20#8] .unit := by
  have hstart : (Call.eoi irq).start { s with program := rest } =
      .run [out8 (Ctl.cmdPort .P) cmdEoi, .ret .unit] := by
    rw [Call.start, withIrq_below (by omega), eoiActions, if_pos h]
  exact completes_of_picCall hq hp hstart <| .eoi .P hready.1 <| .ret ..

theorem eoi_secondary_completes (hp : s.program = .eoi irq :: rest) (h8 : 8 ≤ irq)
    (h16 : irq < 16) :
    Completes 4 s rest (afterEoi s.pic1) (afterEoi s.pic2) s.uarts
      [cmdWrite .S 0x20#8, cmdWrite .P 0x20#8] .unit := by
  have hstart : (Call.eoi irq).start { s with program := rest } =
      .run [out8 (Ctl.cmdPort .S) cmdEoi, out8 (Ctl.cmdPort .P) cmdEoi, .ret .unit] := by
    rw [Call.start, withIrq_below h16, eoiActions, if_neg (by omega)]
  exact completes_of_picCall hq hp hstart <|
    .eoi .S hready.2 <| .eoi .P hready.1 <| .ret ..

theorem enableIrq_primary_completes (hp : s.program = .enableIrq irq :: rest) (h : irq < 8) :
    Completes 4 s rest { s.pic1 with imr := s.pic1.imr &&& ~~~(0x01#8 <<< irq) } s.pic2 s.uarts
      [dataRead .P s.pic1.imr, dataWrite .P (s.pic1.imr &&& ~~~(0x01#8 <<< irq))] .unit := by
  have hstart : (Call.enableIrq irq).start { s with program := rest } =
      .run [.input (Ctl.dataPort .P) .x, .output (Ctl.dataPort .P) (.clearBits .x (bit irq)),
        .ret .unit] := by
    rw [Call.start, withIrq_below (by omega), enableIrqActions, if_pos h, lineInput, if_pos h]
  exact completes_of_picCall hq hp hstart <|
    .rdImr .P (dst := .x) hready.1 <| .ocw1 .P hready.1 rfl <| .ret ..

theorem enableIrq_secondary_completes (hp : s.program = .enableIrq irq :: rest) (h8 : 8 ≤ irq)
    (h16 : irq < 16) :
    Completes 6 s rest { s.pic1 with imr := s.pic1.imr &&& ~~~0x04#8 }
      { s.pic2 with imr := s.pic2.imr &&& ~~~(0x01#8 <<< (irq - 8)) } s.uarts
      [dataRead .S s.pic2.imr, dataWrite .S (s.pic2.imr &&& ~~~(0x01#8 <<< (irq - 8))),
        dataRead .P s.pic1.imr, dataWrite .P (s.pic1.imr &&& ~~~0x04#8)] .unit := by
  have hstart : (Call.enableIrq irq).start { s with program := rest } =
      .run [.input (Ctl.dataPort .S) .x,
        .output (Ctl.dataPort .S) (.clearBits .x (bit (irq - 8))),
        .input (Ctl.dataPort .P) .y, .output (Ctl.dataPort .P) (.clearBits .y cascadeBit),
        .ret .unit] := by
    rw [Call.start, withIrq_below h16, enableIrqActions, if_neg (by omega), lineInput,
      if_neg (by omega)]
  exact completes_of_picCall hq hp hstart <|
    .rdImr .S (dst := .x) hready.2 <| .ocw1 .S hready.2 rfl <|
    .rdImr .P (dst := .y) hready.1 <| .ocw1 .P hready.1 rfl <| .ret ..

theorem disableIrq_primary_completes (hp : s.program = .disableIrq irq :: rest) (h : irq < 8) :
    Completes 4 s rest { s.pic1 with imr := s.pic1.imr ||| (0x01#8 <<< irq) } s.pic2 s.uarts
      [dataRead .P s.pic1.imr, dataWrite .P (s.pic1.imr ||| (0x01#8 <<< irq))] .unit := by
  have hstart : (Call.disableIrq irq).start { s with program := rest } =
      .run [.input (Ctl.dataPort .P) .x, .output (Ctl.dataPort .P) (.setBits .x (bit irq)),
        .ret .unit] := by
    rw [Call.start, withIrq_below (by omega), disableIrqActions, lineCtl, if_pos h, lineInput,
      if_pos h]
  exact completes_of_picCall hq hp hstart <|
    .rdImr .P (dst := .x) hready.1 <| .ocw1 .P hready.1 rfl <| .ret ..

theorem disableIrq_secondary_completes (hp : s.program = .disableIrq irq :: rest) (h8 : 8 ≤ irq)
    (h16 : irq < 16) :
    Completes 4 s rest s.pic1 { s.pic2 with imr := s.pic2.imr ||| (0x01#8 <<< (irq - 8)) } s.uarts
      [dataRead .S s.pic2.imr, dataWrite .S (s.pic2.imr ||| (0x01#8 <<< (irq - 8)))] .unit := by
  have hstart : (Call.disableIrq irq).start { s with program := rest } =
      .run [.input (Ctl.dataPort .S) .x, .output (Ctl.dataPort .S) (.setBits .x (bit (irq - 8))),
        .ret .unit] := by
    rw [Call.start, withIrq_below h16, disableIrqActions, lineCtl, if_neg (by omega), lineInput,
      if_neg (by omega)]
  exact completes_of_picCall hq hp hstart <|
    .rdImr .S (dst := .x) hready.2 <| .ocw1 .S hready.2 rfl <| .ret ..

end

end

/-! ## One call after another -/

theorem Completes.andThen {n m : Nat} {s : State} {rest : List Call} {p1 p2 : Pic} {us : Uarts}
    {words : List TxnWord} {r : Result} {P : State → Prop}
    (h : Completes n s rest p1 p2 us words r)
    (hmore : ∀ t : State, t.Quiet → t.program = rest → t.pic1 = p1 → t.pic2 = p2 →
      t.results = s.results ++ [r] → ∃ u, run m t = .next u ∧ P u) :
    ∃ u, run (n + m) s = .next u ∧ P u := by
  obtain ⟨t, hrun, hpic1, hpic2, -, -, -, hresults, hprogram, -, hquiet⟩ := h
  rw [run_add hrun]
  exact hmore t hquiet hprogram hpic1 hpic2 hresults

/-! ## The claims -/

/-- Settles O46: the offset is checked first; the ten writes of an admitted one follow the
sequencers from ICW1 to ready. -/
theorem initRemapsAndMasksEverything : Obligations.InitRemapsAndMasksEverything := by
  unfold Obligations.InitRemapsAndMasksEverything
  intro s offset rest hq hp
  exact ⟨fun hlow => step_fails_call hq hp (start_picInit_low hlow),
    fun hlow h => step_refuses_call hq hp (start_picInit_not_admitted hlow h),
    fun hlow hbits hhigh => picInit_completes hq hp hlow hbits hhigh⟩

/-- Settles O47: `disable` is `set_mask` with every line masked, and a `get_mask` after `set_mask`
reads the masks it left. -/
theorem maskOperationsWriteAndReadBothMasks : Obligations.MaskOperationsWriteAndReadBothMasks := by
  unfold Obligations.MaskOperationsWriteAndReadBothMasks
  intro s p q rest hq hready
  refine ⟨fun hp => setMask_completes hq hready hp rfl, fun hp => setMask_completes hq hready hp rfl,
    fun hp => getMask_completes hq hready hp, fun hp => ?_⟩
  refine (setMask_completes hq hready hp rfl).andThen (m := 4)
    fun t hq' hp' hpic1 hpic2 hresults => ?_
  have hready' : t.BothReady := ⟨hpic1 ▸ hready.1, hpic2 ▸ hready.2⟩
  obtain ⟨u, hrun, -, -, -, -, -, hresults', hprogram, -⟩ := getMask_completes hq' hready' hp'
  rw [hresults, hpic1, hpic2, List.append_assoc] at hresults'
  exact ⟨u, hrun, hprogram, hresults'⟩

/-- Settles O48, by the controller the line enters. -/
theorem eoiTellsTheSecondaryFirst : Obligations.EoiTellsTheSecondaryFirst := by
  unfold Obligations.EoiTellsTheSecondaryFirst
  intro s irq rest hq hready hp
  exact ⟨eoi_primary_completes hq hready hp, eoi_secondary_completes hq hready hp,
    fun h => step_fails_call hq hp (withIrq_beyond h)⟩

/-- Settles O49, by the controller the line enters. -/
theorem enableClearsTheLineAndTheCascade : Obligations.EnableClearsTheLineAndTheCascade := by
  unfold Obligations.EnableClearsTheLineAndTheCascade
  intro s irq rest hq hready hp
  exact ⟨enableIrq_primary_completes hq hready hp, enableIrq_secondary_completes hq hready hp,
    fun h => step_fails_call hq hp (withIrq_beyond h)⟩

/-- Settles O50: by the controller the line enters; and setting a bit undoes clearing it. -/
theorem disableSetsTheLineAlone : Obligations.DisableSetsTheLineAlone := by
  unfold Obligations.DisableSetsTheLineAlone
  intro s irq rest hq hready
  refine ⟨fun hp => ⟨disableIrq_primary_completes hq hready hp,
    disableIrq_secondary_completes hq hready hp,
    fun h => step_fails_call hq hp (withIrq_beyond h)⟩,
    fun hp => ⟨fun h hmasked => ?primary, fun h8 h16 hmasked => ?secondary⟩⟩
  case primary =>
    refine (enableIrq_primary_completes hq hready hp h).andThen (m := 4)
      fun t hq' hp' hpic1 hpic2 _ => ?_
    have hready' : t.BothReady := ⟨hpic1 ▸ hready.1, hpic2 ▸ hready.2⟩
    obtain ⟨u, hrun, hpic1', hpic2', -, -, -, -, hprogram, -⟩ :=
      disableIrq_primary_completes hq' hready' hp' h
    have hmask : s.pic1.imr &&& ~~~(0x01#8 <<< irq) ||| (0x01#8 <<< irq) = s.pic1.imr :=
      setMask_clearMask_bit hmasked
    rw [hpic1, hmask] at hpic1'
    exact ⟨u, hrun, hpic1', hpic2'.trans hpic2, hprogram⟩
  case secondary =>
    refine (enableIrq_secondary_completes hq hready hp h8 h16).andThen (m := 4)
      fun t hq' hp' hpic1 hpic2 _ => ?_
    have hready' : t.BothReady := ⟨hpic1 ▸ hready.1, hpic2 ▸ hready.2⟩
    obtain ⟨u, hrun, hpic1', hpic2', -, -, -, -, hprogram, -⟩ :=
      disableIrq_secondary_completes hq' hready' hp' h8 h16
    have hmask : s.pic2.imr &&& ~~~(0x01#8 <<< (irq - 8)) ||| (0x01#8 <<< (irq - 8)) =
        s.pic2.imr := setMask_clearMask_bit hmasked
    rw [hpic2, hmask] at hpic2'
    exact ⟨u, hrun, hpic1'.trans hpic1, hpic2', hprogram⟩

/-- Settles O51: the reads follow both selects, so each returns the register selected. -/
theorem diagnosticReadsReturnBothRegisters : Obligations.DiagnosticReadsReturnBothRegisters := by
  unfold Obligations.DiagnosticReadsReturnBothRegisters
  intro s rest hq hready
  exact ⟨fun hp => getSelected_completes hq hready .selIrr hp rfl,
    fun hp => getSelected_completes hq hready .selIsr hp rfl⟩

end Sys2Proof.Claims
end

section
/-! Which operations keep the cascade unmasked (42_pic_driver_ops.md rule R119): what each leaves in
the two masks. -/

namespace Sys2Proof.Claims

open Sys2Proof.Machine

section
variable {n : Nat} {s : State} {rest : List Call} {p1 p2 : Pic} {us : Uarts}
  {words : List TxnWord} {r : Result}

theorem Completes.cascadeOpen (h : Completes n s rest p1 p2 us words r)
    (hopen : p2.imr ≠ 0xFF#8 → p1.imr.getLsbD 2 = false) :
    ∃ n t, run n s = .next t ∧ t.program = rest ∧ t.Quiet ∧ t.CascadeOpen := by
  obtain ⟨t, hrun, rfl, rfl, -, -, -, -, hprogram, -, hquiet⟩ := h
  exact ⟨n, t, hrun, hprogram, hquiet, hopen⟩

theorem Completes.cascadeClosed (h : Completes n s rest p1 p2 us words r)
    (hline : p2.imr ≠ 0xFF#8) (hmasked : p1.imr.getLsbD 2 = true) :
    ∃ t, run n s = .next t ∧ t.program = rest ∧ ¬ t.CascadeOpen := by
  obtain ⟨t, hrun, rfl, rfl, -, -, -, -, hprogram, -⟩ := h
  exact ⟨t, hrun, hprogram, fun hopen => nomatch (hopen hline).symm.trans hmasked⟩

end

@[simp] theorem afterEoi_imr (p : Pic) : (afterEoi p).imr = p.imr := by
  unfold afterEoi
  split <;> rfl

theorem or_ne_full {m b : Byte} (h : m ||| b ≠ 0xFF#8) : m ≠ 0xFF#8 := by
  rintro rfl
  exact h BitVec.allOnes_or

section
variable {s : State} {rest : List Call} {irq : Nat} (hq : s.Quiet) (hready : s.BothReady)
  (hopen : s.CascadeOpen)
include hq hready hopen

theorem enableIrq_keeps_cascadeOpen (hp : s.program = .enableIrq irq :: rest) (h16 : irq < 16) :
    ∃ n t, run n s = .next t ∧ t.program = rest ∧ t.Quiet ∧ t.CascadeOpen := by
  by_cases h8 : irq < 8
  · exact (enableIrq_primary_completes hq hready hp h8).cascadeOpen fun hline => by
      rw [BitVec.getLsbD_and, hopen hline, Bool.false_and]
  · exact (enableIrq_secondary_completes hq hready hp (Nat.not_lt.1 h8) h16).cascadeOpen fun _ => by
      simp

theorem eoi_keeps_cascadeOpen (hp : s.program = .eoi irq :: rest) (h16 : irq < 16) :
    ∃ n t, run n s = .next t ∧ t.program = rest ∧ t.Quiet ∧ t.CascadeOpen := by
  by_cases h8 : irq < 8
  · exact (eoi_primary_completes hq hready hp h8).cascadeOpen (by rwa [afterEoi_imr])
  · exact (eoi_secondary_completes hq hready hp (Nat.not_lt.1 h8) h16).cascadeOpen
      (by rwa [afterEoi_imr, afterEoi_imr])

theorem disableIrq_keeps_cascadeOpen (hp : s.program = .disableIrq irq :: rest) (h16 : irq < 16)
    (h2 : irq ≠ 2) :
    ∃ n t, run n s = .next t ∧ t.program = rest ∧ t.Quiet ∧ t.CascadeOpen := by
  by_cases h8 : irq < 8
  · refine (disableIrq_primary_completes hq hready hp h8).cascadeOpen fun hline => ?_
    have hbit : (0x01#8 <<< irq).getLsbD 2 = false :=
      (bit_getLsbD irq (by decide)).trans (decide_eq_false h2)
    rw [BitVec.getLsbD_or, hopen hline, hbit, Bool.false_or]
  · exact (disableIrq_secondary_completes hq hready hp (Nat.not_lt.1 h8) h16).cascadeOpen
      fun hline => hopen (or_ne_full hline)

end

/-- Settles O52: each operation's end masks are known, and they meet the condition or break it. -/
theorem operationsThatKeepTheCascadeOpen : Obligations.OperationsThatKeepTheCascadeOpen := by
  unfold Obligations.OperationsThatKeepTheCascadeOpen
  intro s call rest hq hready hp
  refine ⟨?keep, fun p q hcall hbit hline => ?setMask, fun hcall hline => ?disableTwo⟩
  case keep =>
    rintro (rfl | ⟨offset, rfl, hlow, hbits, hhigh⟩ | ⟨hopen, ⟨irq, h16, rfl | rfl | ⟨rfl, h2⟩⟩ |
      rfl | rfl | rfl⟩)
    · exact (setMask_completes hq hready hp rfl).cascadeOpen (absurd rfl)
    · exact (picInit_completes hq hp hlow hbits hhigh).cascadeOpen (absurd rfl)
    · exact enableIrq_keeps_cascadeOpen hq hready hopen hp h16
    · exact eoi_keeps_cascadeOpen hq hready hopen hp h16
    · exact disableIrq_keeps_cascadeOpen hq hready hopen hp h16 h2
    · exact (getMask_completes hq hready hp).cascadeOpen hopen
    · exact (getSelected_completes hq hready .selIrr hp rfl).cascadeOpen hopen
    · exact (getSelected_completes hq hready .selIsr hp rfl).cascadeOpen hopen
  case setMask =>
    subst hcall
    exact (setMask_completes hq hready hp rfl).cascadeClosed hline hbit
  case disableTwo =>
    subst hcall
    refine (disableIrq_primary_completes hq hready hp (by decide)).cascadeClosed hline ?_
    rw [BitVec.getLsbD_or]
    exact Bool.or_true _

end Sys2Proof.Claims
end

section
/-! A UART's transactions in the form the statements give them: the word, and the state `after`
it. -/

namespace Sys2Proof.Claims

open Sys2Proof.Machine

/-! ## Words -/

theorem packUart_eq_or (write : Bool) (off : BitVec 3) (data : Byte) :
    packUart write off data = packUart write off 0x00#8 ||| data.setWidth 12 := by
  apply BitVec.eq_of_getLsbD_eq
  intro i hi
  rw [BitVec.getLsbD_or, packUart_bit, packUart_bit, BitVec.getLsbD_setWidth]
  split
  · simp [hi]
  · simp [BitVec.getLsbD_of_ge data i (by omega)]

/-- The first digit of a UART's word is the offset of its register, and 8 more for a write. -/
theorem packUart_word (u : Com) (write : Bool) (off : BitVec 3) (data : Byte) :
    TxnWord.uart12 u (packUart write off data) = uartWord u (write.toNat * 8 + off.toNat) data := by
  have hdigit : ∀ write off,
      packUart write off 0x00#8 = BitVec.ofNat 12 ((write.toNat * 8 + off.toNat) * 256) := by decide
  rw [packUart_eq_or, hdigit, uartWord]

theorem encode_thrWr (u : Com) (b : Byte) : encode (.uartThrWr u b) = uartWord u 8 b :=
  packUart_word u true 0#3 b

theorem encode_dllWr (u : Com) (b : Byte) : encode (.uartDllWr u b) = uartWord u 8 b :=
  packUart_word u true 0#3 b

theorem encode_dlmWr (u : Com) (b : Byte) : encode (.uartDlmWr u b) = uartWord u 9 b :=
  packUart_word u true 1#3 b

theorem encode_ierWr (u : Com) (b : Byte) : encode (.uartIerWr u b) = uartWord u 9 b :=
  packUart_word u true 1#3 b

theorem encode_fcrWr (u : Com) : encode (.uartFcrWr u) = uartWord u 10 0xC7#8 :=
  packUart_word u true 2#3 0xC7#8

theorem encode_lcrWr (u : Com) (b : Byte) : encode (.uartLcrWr u b) = uartWord u 11 b :=
  packUart_word u true 3#3 b

theorem encode_mcrWr (u : Com) : encode (.uartMcrWr u) = uartWord u 12 0x0B#8 :=
  packUart_word u true 4#3 0x0B#8

theorem encode_rbrRd_withData (u : Com) (b : Byte) :
    (encode (.uartRbrRd u)).withData b = uartWord u 0 b :=
  (withData_uart ..).trans (packUart_word u false 0#3 b)

theorem encode_lsrRd_withData (u : Com) (b : Byte) :
    (encode (.uartLsrRd u)).withData b = uartWord u 5 b :=
  (withData_uart ..).trans (packUart_word u false 5#3 b)

/-! ## Operand bytes -/

theorem ierAdmitted_iff {b : Byte} : ierAdmitted b = true ↔ b = 0x00#8 ∨ b = 0x01#8 := by
  simp [ierAdmitted]

theorem lcrAdmitted_iff {b : Byte} : lcrAdmitted b = true ↔ b = 0x80#8 ∨ b = 0x03#8 := by
  simp [lcrAdmitted]

/-! ## The line status -/

theorem lsr_inputFull (d : Uart) (draw : Byte) :
    (d.lsr draw).getLsbD 0 = true ↔ d.rxFifo ≠ [] := by
  cases hrx : d.rxFifo <;> simp [Uart.lsr, hrx, apply_ite (fun v : Byte => v[0])]

theorem lsr_outputEmpty (d : Uart) (draw : Byte) :
    (d.lsr draw).getLsbD 5 = true ↔ d.txPending = [] := by
  cases htx : d.txPending <;> simp [Uart.lsr, htx, apply_ite (fun v : Byte => v[5])]

/-! ## The state a transaction leaves -/

section
variable {s : State} {u : Com} {d : Uart} (hu : s.uart u = some d)
include hu

theorem uartWrite_after {i : Instr} {device : Uart → Uart} :
    uartWrite i u device s = .next (after none (encode i) s (s.setUart u (device d))) := by
  simp only [uartWrite, hu, finish_eq_after]

theorem uartLatchedWrite_after {i : Instr} {dlab : Bool} {device : Uart → Uart}
    (hdlab : d.dlab = dlab) :
    uartLatchedWrite i u dlab device s =
      .next (after none (encode i) s (s.setUart u (device d))) := by
  simp only [uartLatchedWrite, hu, if_pos hdlab, finish_eq_after]

/-- An admitted write answers the state after it. -/
theorem uartCommand_after {i : Instr} {e : Uart} (h : UartCommand u d i e)
    (hwrite : i.isRead = false) :
    exec i s = .next (after none (encode i) s (s.setUart u e)) := by
  cases h with
  | thrWr b dlab idle =>
    simp only [exec, execUartThrWr, hu, if_pos dlab, if_pos idle, finish_eq_after]
  | rbrRd => cases hwrite
  | dllWr b dlab | dlmWr b dlab => exact uartLatchedWrite_after hu dlab
  | ierWr b admitted dlab => exact (if_pos admitted).trans (uartLatchedWrite_after hu dlab)
  | lcrWr b admitted => exact (if_pos admitted).trans (uartWrite_after hu)
  | fcrWr | mcrWr => exact uartWrite_after hu

/-- A read of a received byte takes it off the queue. -/
theorem rbrRd_after {b : Byte} {rest : List Byte} (hdlab : d.dlab = false)
    (hrx : d.rxFifo = b :: rest) :
    exec (.uartRbrRd u) s = .next (after none (uartWord u 0 b) s
      { s.setUart u { d with rxFifo := rest } with returned := b }) := by
  simp only [exec, execUartRbrRd, hu, if_pos hdlab, hrx]
  rw [finish_eq_after, encode_rbrRd_withData, State.setReturned]

/-- The read of the line status returns it and changes no device. -/
theorem lsrRd_after :
    exec (.uartLsrRd u) s =
      .next (after none (uartWord u 5 (d.lsr (Config.lsrDraw s.draws))) s
        { s with returned := d.lsr (Config.lsrDraw s.draws), draws := s.draws + 1 }) := by
  simp only [exec, execUartLsrRd, hu]
  rw [finish_eq_after, encode_lsrRd_withData, State.setReturned]

end

/-! ## The claims about transactions -/

/-- Settles O15: with nothing pending the write is a command of the UART. -/
theorem transmitWriteQueuesTheByte : Obligations.TransmitWriteQueuesTheByte := by
  unfold Obligations.TransmitWriteQueuesTheByte
  intro u data s d hu hdlab
  refine ⟨fun idle => ?_, fun busy => ?_⟩
  · rw [← encode_thrWr]
    exact uartCommand_after hu (.thrWr data hdlab idle) rfl
  · simp only [exec, execUartThrWr, hu, Uart.dlab, if_pos hdlab, if_neg busy]

/-- Settles O16: by whether a byte is queued. -/
theorem receiveReadReturnsTheOldestByte : Obligations.ReceiveReadReturnsTheOldestByte := by
  unfold Obligations.ReceiveReadReturnsTheOldestByte
  intro u s d hu hdlab
  refine ⟨fun b rest => rbrRd_after hu hdlab, fun hrx => ?_⟩
  simp only [exec, execUartRbrRd, hu, Uart.dlab, if_pos hdlab, hrx]

/-- Settles O17: both are commands of the UART while the divisor-latch bit is set. -/
theorem divisorWritesSetTheLatch : Obligations.DivisorWritesSetTheLatch := by
  unfold Obligations.DivisorWritesSetTheLatch
  intro u data s d hu hdlab
  rw [← encode_dllWr, ← encode_dlmWr]
  exact ⟨uartCommand_after hu (.dllWr data hdlab) rfl, uartCommand_after hu (.dlmWr data hdlab) rfl⟩

/-- Settles O18: by whether the operand is admitted. -/
theorem interruptEnableWriteSetsTheRegister : Obligations.InterruptEnableWriteSetsTheRegister := by
  unfold Obligations.InterruptEnableWriteSetsTheRegister
  intro u data s d hu hdlab
  rw [← encode_ierWr]
  refine ⟨fun hdata => uartCommand_after hu (.ierWr data (ierAdmitted_iff.2 hdata) hdlab) rfl,
    fun h0 h1 => if_neg fun admitted => (ierAdmitted_iff.1 admitted).elim h0 h1⟩

/-- Settles O19: the write is admitted in every state of the UART. -/
theorem fifoControlWriteEmptiesTheQueues : Obligations.FifoControlWriteEmptiesTheQueues := by
  unfold Obligations.FifoControlWriteEmptiesTheQueues
  intro u s d hu
  rw [← encode_fcrWr]
  exact uartCommand_after hu .fcrWr rfl

/-- Settles O20: line-control by whether the operand is admitted; modem-control always. -/
theorem lineAndModemControlWritesSetTheRegisters :
    Obligations.LineAndModemControlWritesSetTheRegisters := by
  unfold Obligations.LineAndModemControlWritesSetTheRegisters
  refine ⟨fun u data s d hu => ⟨fun hdata => ?_,
      fun h80 h03 => if_neg fun admitted => (lcrAdmitted_iff.1 admitted).elim h80 h03⟩,
    fun u s d hu => ?_⟩
  · rw [← encode_lcrWr]
    exact uartCommand_after hu (.lcrWr data (lcrAdmitted_iff.2 hdata)) rfl
  · rw [← encode_mcrWr]
    exact uartCommand_after hu .mcrWr rfl

/-- Settles O21: the byte returned is the line status with its six undefined bits drawn. -/
theorem statusReadShowsTheQueues : Obligations.StatusReadShowsTheQueues := by
  unfold Obligations.StatusReadShowsTheQueues
  intro u s d hu
  exact ⟨_, lsrRd_after hu, lsr_inputFull d _, lsr_outputEmpty d _⟩

end Sys2Proof.Claims
end

section
/-! The two events of a UART's line (43_uart_registers.md rules R140 and R141): the transmitter
takes a pending byte, and a byte arrives. -/

namespace Sys2Proof.Machine

/-! ## A turn of another agent -/

section
variable {e : Event} {s t : State} {later : List Turn}

/-- An event that is enabled occurs and clears `int_dropped`. -/
theorem step_event_enabled (hschedule : s.schedule = .event e :: later)
    (heffect : e.effect { s with schedule := later } = some t) :
    step s = .next { t with intDropped := none } := by
  simp only [step, turn, hschedule, occur, heffect]

/-- An event that is not enabled only passes its turn. -/
theorem step_event_not_enabled (hschedule : s.schedule = .event e :: later)
    (heffect : e.effect { s with schedule := later } = none) :
    step s = .next { s with schedule := later } := by
  simp only [step, turn, hschedule, occur, heffect]

end

/-! ## The effects -/

section
variable {s : State} {u : Com} {d : Uart} (hu : s.uart u = some d)
include hu

theorem txShift_effect_of_pending {b : Byte} {rest : List Byte} (htx : d.txPending = b :: rest) :
    (Event.txShift u).effect s =
      some (s.setUart u { d with txPending := rest, txLine := d.txLine ++ [b] }) := by
  simp only [Event.effect, occurTxShift, hu, htx]

theorem txShift_effect_of_idle (htx : d.txPending = []) : (Event.txShift u).effect s = none := by
  simp only [Event.effect, occurTxShift, hu, htx]

theorem rxArrive_effect_of_room (b : Byte) (hroom : d.rxFifo.length < 16) :
    (Event.rxArrive u b).effect s = some (s.setUart u { d with rxFifo := d.rxFifo ++ [b] }) := by
  simp only [Event.effect, occurRxArrive, hu]
  exact if_pos hroom

theorem rxArrive_effect_of_full (b : Byte) (hfull : 16 ≤ d.rxFifo.length) :
    (Event.rxArrive u b).effect s = some s := by
  simp only [Event.effect, occurRxArrive, hu]
  exact if_neg (Nat.not_lt.2 hfull)

end

end Sys2Proof.Machine

namespace Sys2Proof.Claims

open Sys2Proof.Machine

/-- Settles O40: the shift is enabled exactly while a byte is pending. -/
theorem shiftMovesTheOldestPendingByte : Obligations.ShiftMovesTheOldestPendingByte := by
  unfold Obligations.ShiftMovesTheOldestPendingByte
  intro s u d later hu hschedule
  have hu' : State.uart { s with schedule := later } u = some d := hu
  exact ⟨fun b rest htx => step_event_enabled hschedule (txShift_effect_of_pending hu' htx),
    fun htx => step_event_not_enabled hschedule (txShift_effect_of_idle hu' htx)⟩

/-- Settles O41: the arrival is always enabled, and a full queue stays as it is. -/
theorem arrivalAppendsUpToCapacity : Obligations.ArrivalAppendsUpToCapacity := by
  unfold Obligations.ArrivalAppendsUpToCapacity
  intro s u b d later hu hschedule
  have hu' : State.uart { s with schedule := later } u = some d := hu
  exact ⟨fun hroom => step_event_enabled hschedule (rxArrive_effect_of_room hu' b hroom),
    fun hfull => step_event_enabled hschedule (rxArrive_effect_of_full hu' b hfull)⟩

end Sys2Proof.Claims
end

section
/-! `SerialPort::new` (44_uart_driver_ops.md rule R150): which numbers are a place's base. -/

namespace Sys2Proof.Machine

theorem comOfBase_base (u : Com) : comOfBase u.base = some u := by
  cases u <;> rfl

theorem comOfBase_of_not_canonical {base : Port} (h : ¬ ∃ u : Com, u.base = base) :
    comOfBase base = none :=
  List.find?_eq_none.2 fun u _ hbase => h ⟨u, beq_iff_eq.1 hbase⟩

theorem start_serialNew_canonical (u : Com) (s : State) :
    (Call.serialNew u.base).start s = .run [.ret (.port u)] := by
  rw [Call.start, beginSerialNew, comOfBase_base]

theorem start_serialNew_other {base : Port} (h : ¬ ∃ u : Com, u.base = base) (s : State) :
    (Call.serialNew base).start s = .fail (.badSerialBase base) := by
  rw [Call.start, beginSerialNew, comOfBase_of_not_canonical h]

theorem exists_base_eq_iff (base : Port) :
    (∃ u : Com, u.base = base) ↔
      base = 0x3F8#16 ∨ base = 0x2F8#16 ∨ base = 0x3E8#16 ∨ base = 0x2E8#16 ∨
      base = 0x5F8#16 ∨ base = 0x4F8#16 ∨ base = 0x5E8#16 ∨ base = 0x4E8#16 := by
  constructor
  · rintro ⟨u, rfl⟩
    cases u <;> decide
  · rintro (rfl | rfl | rfl | rfl | rfl | rfl | rfl | rfl)
    exacts [⟨.com1, rfl⟩, ⟨.com2, rfl⟩, ⟨.com3, rfl⟩, ⟨.com4, rfl⟩, ⟨.com5, rfl⟩, ⟨.com6, rfl⟩,
      ⟨.com7, rfl⟩, ⟨.com8, rfl⟩]

end Sys2Proof.Machine

namespace Sys2Proof.Claims

open Sys2Proof.Machine

/-- Settles O54: a base is looked up among the eight, and the call has nothing to do but return. -/
theorem newAcceptsTheCanonicalBases : Obligations.NewAcceptsTheCanonicalBases := by
  unfold Obligations.NewAcceptsTheCanonicalBases
  intro s base rest hq hp
  refine ⟨fun u hu => ?_, fun h => step_fails_call hq hp (start_serialNew_other h _),
    exists_base_eq_iff base⟩
  subst hu
  exact completes_of_picCall hq hp (start_serialNew_canonical u _) (.ret _ (.port u) _ _)

end Sys2Proof.Claims
end

section
/-! Runs of one call at a UART (44_uart_driver_ops.md rules R151 to R156), on the driver's turns of
any schedule: where the call stands after each turn, and what each of its actions does. Nothing but
that UART changes. -/

namespace Sys2Proof.Machine

/-! ## The driver's turns -/

/-- The next `k` turns are the driver's: the schedule names it, or is empty. -/
def DriverMoves (k : Nat) (now later : List Turn) : Prop :=
  now = List.replicate k .driver ++ later ∨ now = [] ∧ later = []

theorem DriverMoves.first {k : Nat} {now later : List Turn} (h : DriverMoves (k + 1) now later) :
    ∃ mid, DriverMoves 1 now mid ∧ DriverMoves k mid later := by
  rcases h with rfl | ⟨rfl, rfl⟩
  · exact ⟨_, .inl rfl, .inl rfl⟩
  · exact ⟨[], .inr ⟨rfl, rfl⟩, .inr ⟨rfl, rfl⟩⟩

theorem DriverMoves.none {now later : List Turn} (h : DriverMoves 0 now later) : now = later := by
  rcases h with h | ⟨rfl, rfl⟩
  · exact h
  · rfl

theorem step_of_driverMoves {t : State} {later : List Turn} (h : DriverMoves 1 t.schedule later) :
    step t = driverTurn issue { t with schedule := later } := by
  refine step_eq_driverTurn ?_
  rcases h with h | ⟨h, rfl⟩
  · exact .inr (congrArg (fun turns => { t with schedule := turns }) h)
  · exact .inl ⟨by rw [← h], h⟩

/-! ## The UARTs -/

theorem set_get_self {us : Uarts} {u : Com} {d : Uart} (h : us.get u = some d) :
    us.set u d = us := by
  cases u <;> (obtain ⟨⟩ := us; cases h; rfl)

end Sys2Proof.Machine

namespace Sys2Proof.Claims

open Sys2Proof.Machine

/-- Marking the UART after a transaction at it is marking what the transaction left. -/
theorem after_markInited (at? : Option Ctl) (w : TxnWord) (s : State) (u : Com) (d : Uart) :
    (after at? w s (s.setUart u d)).markInited u =
      after at? w s (s.setUart u { d with inited := true }) := by
  have hu : (after at? w s (s.setUart u d)).uart u = some d := setUart_uart_same s u d
  rw [markInited_of_present hu]
  simp only [after, State.setUart, set_set_same]
  rfl

/-! ## Where the call stands -/

/-- In the state `t` the call begun in `s` at the UART `u` has brought that UART to `d`, has issued
`words`, has `todo` left to do and holds the byte `x`; the turns to come are `now`. -/
def SerialAt (s : State) (rest : List Call) (u : Com) (d : Uart) (words : List TxnWord)
    (todo : List Action) (x : Byte) (now : List Turn) (t : State) : Prop :=
  t.schedule = now ∧
    InCall s rest s.pic1 s.pic2 (s.uarts.set u d) words todo x 0x00#8 { t with schedule := [] }

/-- After `n` steps the call begun in `s` stands so. -/
def SerialRun (s : State) (rest : List Call) (u : Com) (n : Nat) (d : Uart) (words : List TxnWord)
    (todo : List Action) (x : Byte) (now : List Turn) : Prop :=
  ∃ t, run n s = .next t ∧ SerialAt s rest u d words todo x now t

section
variable {s t : State} {rest : List Call} {u : Com} {n : Nat} {d e : Uart} {words : List TxnWord}
  {a : Action} {todo : List Action} {x v mask : Byte} {now later : List Turn} {i : Instr}
  {off : Nat}

theorem SerialAt.uarts (h : SerialAt s rest u d words todo x now t) :
    t.uarts = s.uarts.set u d := h.2.uarts

theorem SerialAt.uart (h : SerialAt s rest u d words todo x now t) : t.uart u = some d := by
  rw [State.uart, h.uarts, get_set_same]

theorem SerialAt.set_uarts (h : SerialAt s rest u d words todo x now t) (e : Uart) :
    t.uarts.set u e = s.uarts.set u e := by
  rw [h.uarts, set_set_same]

/-- The call's next action, on the driver's turn. -/
theorem SerialAt.step_eq (h : SerialAt s rest u d words (a :: todo) x now t)
    (hturn : DriverMoves 1 now later) :
    step t = act issue a { todo := a :: todo, x := x, y := 0x00#8 } todo []
      { t with schedule := later } := by
  obtain ⟨rfl, hcall⟩ := h
  rw [step_of_driverMoves hturn]
  exact driverTurn_act hcall.failure hcall.stack rfl

/-- After a transaction the call has issued one word more. -/
theorem SerialAt.transacts {us : Uarts} {stack : List Frame} {w : TxnWord} {todo' : List Action}
    {x' returned : Byte} {dropped : Option Ctl} {draws : Nat}
    (h : SerialAt s rest u d words todo x now t) (huarts : us = s.uarts.set u e)
    (hstack : stack = [{ todo := todo', x := x', y := 0x00#8 }]) :
    SerialAt s rest u e (words ++ [w]) todo' x' later { t with
      uarts := us, trace := t.trace ++ [w], intDropped := dropped, returned := returned
      draws := draws, schedule := later, stack := stack } := by
  obtain ⟨-, hcall⟩ := h
  have htrace : t.trace = s.trace ++ words := hcall.trace
  refine ⟨rfl, hcall.pic1, hcall.pic2, huarts, hcall.params, ?_, hcall.results, hcall.program,
    hcall.vectors, rfl, hcall.failure, hstack⟩
  simp only [htrace, List.append_assoc]

/-- A call that begins at a present UART. -/
theorem SerialRun.begins {call : Call} {actions : List Action} (hfailure : s.failure = none)
    (hstack : s.stack = []) (hp : s.program = call :: rest) (hu : s.uart u = some d)
    (hturn : DriverMoves 1 s.schedule later)
    (hstart : call.start { s with schedule := later, program := rest } = .run actions) :
    SerialRun s rest u 1 d [] actions 0x00#8 later := by
  have hstep : step s = enterCall call { s with schedule := later, program := rest } :=
    (step_of_driverMoves hturn).trans (driverTurn_call hfailure hstack hp)
  rw [enterCall, hstart] at hstep
  refine ⟨_, run_succ hstep, rfl, rfl, rfl, (set_get_self hu).symm, rfl, ?_, rfl, rfl, rfl, rfl,
    hfailure, ?_⟩
  · exact (List.append_nil _).symm
  · simp only [hstack]

/-- The end of the call. -/
theorem SerialRun.ends {r : Ret}
    (h : SerialRun s rest u n d words [.ret r] x now) (hturn : DriverMoves 1 now later) :
    ∃ t, run (n + 1) s = .next t ∧ t.uarts = s.uarts.set u d ∧ t.trace = s.trace ++ words ∧
      t.program = rest ∧ t.stack = [] := by
  obtain ⟨t, hrun, hat⟩ := h
  have hcall := hat.2
  exact ⟨_, run_then_step hrun (hat.step_eq hturn), hcall.uarts, hcall.trace, hcall.program, rfl⟩

/-- The end of the call, when only the driver moves. -/
theorem SerialRun.completes {r : Ret} (h : SerialRun s rest u n d words [.ret r] x []) :
    Completes (n + 1) s rest s.pic1 s.pic2 (s.uarts.set u d) words
      (r.result { todo := [.ret r], x := x, y := 0x00#8 }) := by
  obtain ⟨t, hrun, hschedule, hcall⟩ := h
  rw [← hschedule] at hcall
  obtain ⟨t', hstep, hends⟩ := hcall.ends rfl
  exact ⟨t', run_then_step hrun hstep, hends⟩

/-- The transmitter takes the pending byte. -/
theorem SerialRun.shifts {b : Byte} {pending : List Byte}
    (h : SerialRun s rest u n d words todo x (.event (.txShift u) :: later))
    (htx : d.txPending = b :: pending) :
    SerialRun s rest u (n + 1) { d with txPending := pending, txLine := d.txLine ++ [b] } words
      todo x later := by
  obtain ⟨t, hrun, hat⟩ := h
  have ⟨hschedule, hcall⟩ := hat
  have hu : State.uart { t with schedule := later } u = some d := hat.uart
  have hstep := step_event_enabled hschedule (txShift_effect_of_pending hu htx)
  exact ⟨_, run_then_step hrun hstep, rfl, hcall.pic1, hcall.pic2, hat.set_uarts _, hcall.params,
    hcall.trace, hcall.results, hcall.program, hcall.vectors, rfl, hcall.failure, hcall.stack⟩

section
variable (hturn : DriverMoves 1 now later)
include hturn

/-- A pass of a polling loop reads the line status, and goes on when a bit of the mask is set. -/
theorem SerialRun.polls (h : SerialRun s rest u n d words (.poll (u.port 5) mask :: todo) x now) :
    ∃ draw, SerialRun s rest u (n + 1) d (words ++ [uartWord u 5 (d.lsr draw)])
      (if d.lsr draw &&& mask = 0x00#8 then .poll (u.port 5) mask :: todo else todo) x later := by
  obtain ⟨t, hrun, hat⟩ := h
  have hu : State.uart { t with schedule := later } u = some d := hat.uart
  have hissue := (issueAt_uart_read (v := 0x00#8) hu (le_refl 5) rfl).trans (lsrRd_after hu)
  exact ⟨_, _, run_then_step hrun ((hat.step_eq hturn).trans (act_poll rfl hissue)),
    hat.transacts hat.uarts
      (congrArg (· :: []) (apply_ite (Frame.mk · x 0x00#8) _ _ _).symm)⟩

/-- The read of a byte received. -/
theorem SerialRun.receives {b : Byte} {more : List Byte}
    (h : SerialRun s rest u n d words (.input (u.port 0) .x :: todo) x now)
    (hdlab : d.dlab = false) (hrx : d.rxFifo = b :: more) :
    SerialRun s rest u (n + 1) { d with rxFifo := more } (words ++ [uartWord u 0 b]) todo b
      later := by
  obtain ⟨t, hrun, hat⟩ := h
  have hu : State.uart { t with schedule := later } u = some d := hat.uart
  have hdecode : decodeUartRead d.dlab u (BitVec.ofNat 3 0) = .ok (.uartRbrRd u) := by
    rw [hdlab]
    rfl
  have hissue := (issueAt_uart_read (v := 0x00#8) hu (Nat.zero_le 5) hdecode).trans
    (rbrRd_after hu hdlab hrx)
  exact ⟨_, run_then_step hrun ((hat.step_eq hturn).trans (act_input hissue)),
    hat.transacts (hat.set_uarts _) rfl⟩

section
variable {d' : Uart} (hoff : off ≤ 5)
  (hdecode : decodeUartWrite d.dlab u (BitVec.ofNat 3 off) v = .ok i) (hcmd : UartCommand u d i d')
  (hwrite : i.isRead = false)
include hoff hdecode hcmd hwrite

/-- A write of the call is a command of its UART. -/
theorem SerialRun.writes
    (h : SerialRun s rest u n d words (out8 (u.port off) v :: todo) x now) :
    SerialRun s rest u (n + 1) d' (words ++ [encode i]) todo x later := by
  obtain ⟨t, hrun, hat⟩ := h
  have hu : State.uart { t with schedule := later } u = some d := hat.uart
  have hissue := (issueAt_uart_write hu hoff hdecode).trans (uartCommand_after hu hcmd hwrite)
  exact ⟨_, run_then_step hrun ((hat.step_eq hturn).trans (act_output hissue)),
    hat.transacts (hat.set_uarts _) rfl⟩

/-- The last write of `uart.init()` also makes the UART initialised. -/
theorem SerialRun.writesLast
    (h : SerialRun s rest u n d words (.outputLast u (u.port off) (.lit v) :: todo) x now) :
    SerialRun s rest u (n + 1) { d' with inited := true } (words ++ [encode i]) todo x later := by
  obtain ⟨t, hrun, hat⟩ := h
  have hu : State.uart { t with schedule := later } u = some d := hat.uart
  have hissue := (issueAt_uart_write hu hoff hdecode).trans (uartCommand_after hu hcmd hwrite)
  have hstep := (hat.step_eq hturn).trans (act_outputLast hissue)
  rw [after_markInited] at hstep
  exact ⟨_, run_then_step hrun hstep, hat.transacts (hat.set_uarts _) rfl⟩

end

end

end

end Sys2Proof.Claims
end

section
/-! Polling, sending and receiving as parts of a call at a UART (44_uart_driver_ops.md rules R153 to
R155). -/

namespace Sys2Proof.Machine

/-! ## What a polling loop waits for -/

theorem and_bit_ne_zero_iff (v : Byte) {k : Nat} (hk : k < 8) :
    v &&& bit k ≠ 0x00#8 ↔ v.getLsbD k = true := by
  have hbit : BitVec.twoPow 8 k ≠ 0x00#8 := by
    rw [← BitVec.toNat_inj.ne, BitVec.toNat_twoPow_of_lt hk]
    exact (Nat.two_pow_pos k).ne'
  rw [bit, ← BitVec.twoPow_eq, BitVec.and_twoPow]
  cases v.getLsbD k <;> simp [hbit]

/-! ## What the calls begin with -/

theorem withInited_of_inited {s : State} {u : Com} {d : Uart} (hu : s.uart u = some d)
    (hinited : d.inited = true) (actions : List Action) :
    withInited u actions s = .run actions := by
  simp only [withInited, hu, if_pos hinited]

theorem start_writeStr_of_inited {s : State} {u : Com} {d : Uart} (hu : s.uart u = some d)
    (hinited : d.inited = true) (bytes : List Byte) :
    (Call.writeStr u bytes).start s =
      .run ((bytes.flatMap sendBytes).flatMap (sendRawActions u) ++ [.ret .unit]) := by
  rw [List.flatMap_assoc]
  cases bytes with
  | nil => rfl
  | cons b more => exact withInited_of_inited hu hinited _

end Sys2Proof.Machine

namespace Sys2Proof.Claims

open Sys2Proof.Machine

theorem lsr_and_outputEmpty (d : Uart) (draw : Byte) :
    d.lsr draw &&& lsrOutputEmpty ≠ 0x00#8 ↔ d.txPending = [] :=
  (and_bit_ne_zero_iff _ (k := 5) (by omega)).trans (lsr_outputEmpty d draw)

theorem lsr_and_inputFull (d : Uart) (draw : Byte) :
    d.lsr draw &&& lsrInputFull ≠ 0x00#8 ↔ d.rxFifo ≠ [] :=
  (and_bit_ne_zero_iff _ (k := 0) (by omega)).trans (lsr_inputFull d draw)

/-! ## Loops, and bytes sent -/

section
variable {s : State} {rest : List Call} {u : Com} {n k : Nat} {d : Uart} {words : List TxnWord}
  {todo : List Action} {x mask : Byte} {now later : List Turn}

/-- A polling loop passes at its first read when a bit of its mask is set. -/
theorem SerialRun.passes (h : SerialRun s rest u n d words (.poll (u.port 5) mask :: todo) x now)
    (hturn : DriverMoves 1 now later) (hready : ∀ draw, d.lsr draw &&& mask ≠ 0x00#8) :
    ∃ draw, SerialRun s rest u (n + 1) d (words ++ [uartWord u 5 (d.lsr draw)]) todo x later := by
  obtain ⟨draw, h⟩ := h.polls hturn
  rw [if_neg (hready draw)] at h
  exact ⟨draw, h⟩

/-- While no bit of its mask is set, a polling loop only reads the line status. -/
theorem SerialRun.spins (h : SerialRun s rest u n d words (.poll (u.port 5) mask :: todo) x now)
    (hturn : DriverMoves k now later) (hbusy : ∀ draw, d.lsr draw &&& mask = 0x00#8) :
    ∃ reads : List Byte, reads.length = k ∧ (∀ v ∈ reads, ∃ draw, v = d.lsr draw) ∧
      SerialRun s rest u (n + k) d (words ++ reads.map (uartWord u 5))
        (.poll (u.port 5) mask :: todo) x later := by
  induction k generalizing n words now with
  | zero =>
    obtain rfl := hturn.none
    refine ⟨[], rfl, List.forall_mem_nil _, ?_⟩
    rw [List.map_nil, List.append_nil]
    exact h
  | succ k ih =>
    obtain ⟨mid, hfirst, hmore⟩ := hturn.first
    obtain ⟨draw, h⟩ := h.polls hfirst
    rw [if_pos (hbusy draw)] at h
    obtain ⟨reads, hlength, hreads, h⟩ := ih h hmore
    refine ⟨d.lsr draw :: reads, congrArg (· + 1) hlength, ?_, ?_⟩
    · exact List.forall_mem_cons.2 ⟨⟨draw, rfl⟩, hreads⟩
    · rw [List.append_assoc, Nat.add_right_comm] at h
      exact h

/-- The write of a byte to an idle transmitter. -/
theorem SerialRun.transmits {v : Byte}
    (h : SerialRun s rest u n d words (out8 (u.port 0) v :: todo) x now)
    (hturn : DriverMoves 1 now later) (hdlab : d.dlab = false) (hidle : d.txPending = []) :
    SerialRun s rest u (n + 1) { d with txPending := [v] } (words ++ [uartWord u 8 v]) todo x
      later := by
  rw [← encode_thrWr]
  refine h.writes hturn (Nat.zero_le 5) ?_ (.thrWr v hdlab hidle) rfl
  rw [hdlab]
  rfl

/-- With a transmitter that keeps up, the bytes come out in order. -/
theorem SerialRun.sends {bytes : List Byte}
    (h : SerialRun s rest u n d words (bytes.flatMap (sendRawActions u) ++ todo) x
      (bytes.flatMap (fun _ => keepingUp u) ++ later))
    (hdlab : d.dlab = false) (hidle : d.txPending = []) :
    ∃ words', SerialRun s rest u (n + 3 * bytes.length)
      { d with txPending := [], txLine := d.txLine ++ bytes } words' todo x later := by
  induction bytes generalizing n d words with
  | nil =>
    have hd : { d with txPending := [], txLine := d.txLine ++ [] } = d := by
      rw [List.append_nil, ← hidle]
    rw [hd]
    exact ⟨words, h⟩
  | cons b bytes ih =>
    obtain ⟨draw, hpolled⟩ := SerialRun.passes (todo := out8 (u.port 0) b :: _) h (.inl rfl)
      fun draw => (lsr_and_outputEmpty d draw).2 hidle
    have hshifted := (hpolled.transmits (.inl rfl) hdlab hidle).shifts rfl
    obtain ⟨words', hsent⟩ := ih hshifted hdlab rfl
    have hsteps : n + 1 + 1 + 1 + 3 * bytes.length = n + 3 * (b :: bytes).length := by
      rw [List.length_cons]
      omega
    rw [hsteps, List.append_assoc] at hsent
    exact ⟨words', hsent⟩

/-- A call that only sends: begun, it puts its bytes on the line and ends. -/
theorem SerialRun.sendsAndEnds {bytes : List Byte}
    (h : SerialRun s rest u 1 d [] (bytes.flatMap (sendRawActions u) ++ [.ret .unit]) 0x00#8
      (bytes.flatMap fun _ => keepingUp u))
    (hdlab : d.dlab = false) (hidle : d.txPending = []) :
    ∃ t, run (3 * bytes.length + 2) s = .next t ∧
      t.uart u = some { d with txLine := d.txLine ++ bytes } ∧ t.program = rest ∧ t.stack = [] := by
  rw [← List.append_nil (bytes.flatMap fun _ => keepingUp u)] at h
  obtain ⟨words', hsent⟩ := h.sends hdlab hidle
  obtain ⟨t, hrun, huarts, -, hprogram, hstack⟩ := hsent.ends (.inr ⟨rfl, rfl⟩)
  rw [Nat.add_comm 1] at hrun
  exact ⟨t, hrun, by rw [State.uart, huarts, get_set_same, ← hidle], hprogram, hstack⟩

end

/-! ## The claims -/

/-- Settles O56: the loop spins for as long as the old byte is pending, and passes once it is on the
line. -/
theorem sendRawReadsStatusUntilReady : Obligations.SendRawReadsStatusUntilReady := by
  unfold Obligations.SendRawReadsStatusUntilReady
  intro n s u d old b rest hfailure hstack hp hu hinited hdlab htx hschedule
  have driver : DriverMoves 1 [] [] := .inr ⟨rfl, rfl⟩
  have pending : d.txPending ≠ [] := by simp [htx]
  have begun := SerialRun.begins hfailure hstack hp hu (.inl hschedule)
    (withInited_of_inited hu hinited _)
  obtain ⟨reads, hlength, hreads, spun⟩ := begun.spins (k := n) (.inl rfl)
    fun draw => not_not.1 (mt (lsr_and_outputEmpty d draw).1 pending)
  obtain ⟨draw, passed⟩ := (spun.shifts htx).passes driver
    fun draw => (lsr_and_outputEmpty _ draw).2 rfl
  obtain ⟨t, hrun, huarts, htrace, hprogram, hempty⟩ :=
    (passed.transmits driver hdlab rfl).ends driver
  refine ⟨t, reads ++ [Uart.lsr { d with txPending := [], txLine := d.txLine ++ [old] } draw],
    (by omega : 1 + n + 1 + 1 + 1 + 1 = n + 5) ▸ hrun, by simp [hlength], by simpa using htrace,
    fun k hk => ?busy, ?ready, ?line, hprogram, hempty⟩
  case busy =>
    have hk' : k < reads.length := hlength ▸ hk
    obtain ⟨draw, hv⟩ := hreads _ (List.getElem_mem hk')
    rw [List.getD_append _ _ _ _ hk', List.getD_eq_getElem _ _ hk', hv]
    exact Bool.eq_false_iff.2 (mt (lsr_outputEmpty d draw).1 pending)
  case ready =>
    rw [← hlength, List.getD_append_right _ _ _ _ (le_refl _), Nat.sub_self]
    exact (lsr_outputEmpty _ draw).2 rfl
  case line => rw [State.uart, huarts, get_set_same]

/-- Settles O58: with a byte queued the loop passes at its first read, with none it spins. -/
theorem receiveReturnsTheOldestByte : Obligations.ReceiveReturnsTheOldestByte := by
  unfold Obligations.ReceiveReturnsTheOldestByte
  intro s u d rest hq hp hu hinited
  have driver : DriverMoves 1 [] [] := .inr ⟨rfl, rfl⟩
  have begun := SerialRun.begins hq.failure hq.stack hp hu (.inr ⟨hq.schedule, rfl⟩)
    (withInited_of_inited hu hinited _)
  refine ⟨fun b more hrx hdlab => ?queued, fun hrx n => ?silent⟩
  case queued =>
    have received : d.rxFifo ≠ [] := by simp [hrx]
    obtain ⟨draw, passed⟩ := begun.passes driver fun draw => (lsr_and_inputFull d draw).2 received
    exact ⟨d.lsr draw, (lsr_inputFull d draw).2 received,
      (passed.receives driver hdlab hrx).completes⟩
  case silent =>
    obtain ⟨reads, hlength, -, t, hrun, hat⟩ := begun.spins (k := n) (.inr ⟨rfl, rfl⟩)
      fun draw => not_not.1 fun full => (lsr_and_inputFull d draw).1 full hrx
    have hcall := hat.2
    exact ⟨t, reads, Nat.add_comm 1 n ▸ hrun, hlength, hcall.trace, hat.uart,
      fun hempty => List.cons_ne_nil _ _ (hcall.stack.symm.trans hempty), hcall.results⟩

/-- Settles O59: both calls are the same sequence of polls and writes, one pair for each byte put
out. -/
theorem sendAndWriteStrExtendTheLineInOrder : Obligations.SendAndWriteStrExtendTheLineInOrder := by
  unfold Obligations.SendAndWriteStrExtendTheLineInOrder
  refine ⟨?_, ?_, fun s u rest hq hp => completes_of_picCall hq hp rfl (.ret _ .unit _ _)⟩
  · intro s u d b rest hfailure hstack hp hu hinited hdlab htx hschedule
    exact (SerialRun.begins hfailure hstack hp hu (.inl hschedule)
      (withInited_of_inited hu hinited _)).sendsAndEnds hdlab htx
  · intro s u d bytes rest hfailure hstack hp hu hinited hdlab htx hschedule
    exact (SerialRun.begins hfailure hstack hp hu (.inl hschedule)
      (start_writeStr_of_inited hu hinited bytes)).sendsAndEnds hdlab htx

end Sys2Proof.Claims
end

section
/-! `uart.init()` (44_uart_driver_ops.md rules R151 and R152): its eight writes from any state of
the UART. -/

namespace Sys2Proof.Claims

open Sys2Proof.Machine

section
variable {s : State} {rest : List Call} {u : Com} {n : Nat} {d : Uart} {words : List TxnWord}
  {todo : List Action} {x v : Byte} {now later : List Turn}

/-- A zero written at offset 1 goes to the divisor latch or to interrupt-enable, and is admitted in
both: the first write of `uart.init()` needs to know nothing of the divisor-latch bit. -/
theorem SerialRun.zeroAtOffsetOne
    (h : SerialRun s rest u n d words (out8 (u.port 1) 0x00#8 :: todo) x now)
    (hturn : DriverMoves 1 now later) :
    ∃ e, (e = { d with dlm := 0x00#8 } ∨ e = { d with ier := 0x00#8 }) ∧
      SerialRun s rest u (n + 1) e (words ++ [uartWord u 9 0x00#8]) todo x later := by
  cases hdlab : d.dlab with
  | true =>
    rw [← encode_dlmWr]
    exact ⟨_, .inl rfl, h.writes hturn (by omega) (hdlab ▸ rfl) (.dlmWr 0x00#8 hdlab) rfl⟩
  | false =>
    rw [← encode_ierWr]
    exact ⟨_, .inr rfl, h.writes hturn (by omega) (hdlab ▸ rfl) (.ierWr 0x00#8 rfl hdlab) rfl⟩

section
variable (hturn : DriverMoves 1 now later)
include hturn

theorem SerialRun.lcrWr (h : SerialRun s rest u n d words (out8 (u.port 3) v :: todo) x now)
    (hadmitted : lcrAdmitted v = true) :
    SerialRun s rest u (n + 1) { d with lcr := v } (words ++ [uartWord u 11 v]) todo x later := by
  have hdecode : decodeUartWrite d.dlab u 3#3 v = .ok (.uartLcrWr u v) := if_pos hadmitted
  rw [← encode_lcrWr]
  exact h.writes hturn (by omega) hdecode (.lcrWr v hadmitted) rfl

theorem SerialRun.dllWr (h : SerialRun s rest u n d words (out8 (u.port 0) v :: todo) x now)
    (hdlab : d.dlab = true) :
    SerialRun s rest u (n + 1) { d with dll := v } (words ++ [uartWord u 8 v]) todo x later := by
  rw [← encode_dllWr]
  exact h.writes hturn (by omega) (hdlab ▸ rfl) (.dllWr v hdlab) rfl

theorem SerialRun.dlmWr (h : SerialRun s rest u n d words (out8 (u.port 1) v :: todo) x now)
    (hdlab : d.dlab = true) :
    SerialRun s rest u (n + 1) { d with dlm := v } (words ++ [uartWord u 9 v]) todo x later := by
  rw [← encode_dlmWr]
  exact h.writes hturn (by omega) (hdlab ▸ rfl) (.dlmWr v hdlab) rfl

theorem SerialRun.fcrWr (h : SerialRun s rest u n d words (out8 (u.port 2) fcrByte :: todo) x now) :
    SerialRun s rest u (n + 1) d.fcrEffect (words ++ [uartWord u 10 0xC7#8]) todo x later := by
  rw [← encode_fcrWr]
  exact h.writes hturn (by omega) rfl .fcrWr rfl

theorem SerialRun.mcrWr (h : SerialRun s rest u n d words (out8 (u.port 4) mcrByte :: todo) x now) :
    SerialRun s rest u (n + 1) { d with mcr := mcrByte } (words ++ [uartWord u 12 0x0B#8]) todo x
      later := by
  rw [← encode_mcrWr]
  exact h.writes hturn (by omega) rfl .mcrWr rfl

theorem SerialRun.ierWrLast
    (h : SerialRun s rest u n d words (.outputLast u (u.port 1) (.lit v) :: todo) x now)
    (hadmitted : ierAdmitted v = true) (hdlab : d.dlab = false) :
    SerialRun s rest u (n + 1) { d with ier := v, inited := true } (words ++ [uartWord u 9 v]) todo
      x later := by
  have hdecode : decodeUartWrite d.dlab u 1#3 v = .ok (.uartIerWr u v) := by
    rw [hdlab]
    exact if_pos hadmitted
  rw [← encode_ierWr]
  exact h.writesLast hturn (by omega) hdecode (.ierWr v hadmitted hdlab) rfl

end

end

/-- Settles O55: only the first write depends on the divisor-latch bit, and what it changes is
written again. -/
theorem uartInitReachesItsEndState : Obligations.UartInitReachesItsEndState := by
  unfold Obligations.UartInitReachesItsEndState
  intro s u d rest hq hu hp
  have driver : DriverMoves 1 [] [] := .inr ⟨rfl, rfl⟩
  have latched : (0x80#8 : Byte).getLsbD 7 = true := by decide
  have unlatched : (0x03#8 : Byte).getLsbD 7 = false := by decide
  have begun := SerialRun.begins hq.failure hq.stack hp hu (.inr ⟨hq.schedule, rfl⟩) rfl
  obtain ⟨e, he, disabled⟩ := begun.zeroAtOffsetOne driver
  have opened := disabled.lcrWr (v := lcrDlab) driver rfl
  have divided := (opened.dllWr driver latched).dlmWr driver latched
  have closed := divided.lcrWr driver rfl
  have controlled := (closed.fcrWr driver).mcrWr driver
  have enabled := controlled.ierWrLast driver rfl unlatched
  rcases he with rfl | rfl
  · exact enabled.completes
  · exact enabled.completes

end Sys2Proof.Claims
end

section
/-! The turns that stop the driver (60_exceptions.md rules R170 and R171), and the events that raise
a line or deliver a spurious vector (rules R173, R181 and R182). -/

namespace Sys2Proof.Machine

/-! ## After a fatal failure -/

theorem handlerTurn_of_failure {s : State} {f : Fault} (h : s.failure = some f) (c : Call) :
    handlerTurn c s = .fault f := by
  simp [handlerTurn, h]

theorem step_event {s : State} {e : Event} {later : List Turn}
    (hschedule : s.schedule = .event e :: later) :
    step s = .next (occur e { s with schedule := later }) := by
  simp only [step, turn, hschedule]

/-- An event is no step of the driver: the failure, the words issued and the calls stay. -/
theorem occur_keeps_driver (e : Event) (s : State) :
    (occur e s).failure = s.failure ∧ (occur e s).trace = s.trace ∧ (occur e s).stack = s.stack ∧
      (occur e s).program = s.program ∧ (occur e s).results = s.results := by
  rcases occur_cases e s with h | h | ⟨_, _, -, h⟩ | ⟨_, _, _, _, _, -, h⟩ |
    ⟨_, _, _, _, _, -, -, -, -, h⟩ <;> rw [h] <;> simp

/-! ## The assertions -/

theorem withRange_beyond {r : Range} {offset : Nat} (h : r.count ≤ offset)
    (access : Port → List Action) :
    withRange r offset access = .fail (.portRangeOutOfBounds r.base r.count offset) :=
  if_neg (Nat.not_lt.2 h)

theorem start_rangeRead_beyond {r : Range} {offset : Nat} (h : r.count ≤ offset) (s : State) :
    (Call.rangeRead r offset).start s = .fail (.portRangeOutOfBounds r.base r.count offset) := by
  rw [Call.start, beginRangeRead, withRange_beyond h]

theorem start_rangeWrite_beyond {r : Range} {offset : Nat} (h : r.count ≤ offset) (v : Byte)
    (s : State) :
    (Call.rangeWrite r offset v).start s = .fail (.portRangeOutOfBounds r.base r.count offset) := by
  rw [Call.start, beginRangeWrite, withRange_beyond h]

/-! ## Effects of the events -/

section
variable {s : State}

theorem lineCtl_atCtl (c : Ctl) {i : Nat} (hi : i < 8) :
    lineCtl (Claims.atCtl c i (8 + i)) = c := by
  cases c with
  | P => exact if_pos hi
  | S => exact if_neg (by simp [Claims.atCtl])

theorem lineInput_atCtl (c : Ctl) {i : Nat} (hi : i < 8) :
    lineInput (Claims.atCtl c i (8 + i)) = i := by
  cases c with
  | P => exact if_pos hi
  | S => simp [Claims.atCtl, lineInput]

/-- The line of input `i` of controller `c` enters there. -/
theorem irqEdge_effect {n : Source} {c : Ctl} {i : Nat}
    (hline : sourceLine n = Claims.atCtl c i (8 + i)) (hi : i < 8) :
    (Event.irqEdge n).effect s = some (requestLine c i s) := by
  rw [Event.effect, occurIrqEdge, hline, lineCtl_atCtl c hi, lineInput_atCtl c hi]

theorem requestLine_of_uninit {c : Ctl} {i : Nat} (h : (s.pic c).phase = .uninit) :
    requestLine c i s = s := if_pos h

theorem requestLine_of_init {c : Ctl} {i : Nat} (h : (s.pic c).phase ≠ .uninit) :
    requestLine c i s = s.setPic c { s.pic c with irr := (s.pic c).irr ||| bit i } := if_neg h

theorem spurious_P_effect (h : s.params.spuriousModelled = true ∧ s.intDropped ≠ none) :
    (Event.spurious .P).effect s = some (deliver (s.pic1.vbase.toNat + 7) s) :=
  if_pos (by simpa [Option.isSome_iff_ne_none] using h)

theorem spurious_P_not_enabled (h : ¬ (s.params.spuriousModelled = true ∧ s.intDropped ≠ none)) :
    (Event.spurious .P).effect s = none :=
  if_neg (by simpa [Option.isSome_iff_ne_none] using h)

theorem spurious_S_effect (h : s.params.spuriousModelled = true ∧ s.intDropped = some .S ∧
    s.pic1.imr.getLsbD 2 = false) :
    (Event.spurious .S).effect s = some (deliver (s.pic2.vbase.toNat + 7)
      (s.setPic .P { s.pic1 with isr := s.pic1.isr ||| cascadeBit })) :=
  if_pos (by simpa [and_assoc] using h)

theorem spurious_S_not_enabled (h : ¬ (s.params.spuriousModelled = true ∧
    s.intDropped = some .S ∧ s.pic1.imr.getLsbD 2 = false)) :
    (Event.spurious .S).effect s = none :=
  if_neg (by simpa [and_assoc] using h)

/-- A UART requests while its source is enabled, its output is on and a byte is there. -/
theorem uart_req_iff (d : Uart) :
    d.req = true ↔ d.ier.getLsbD 0 = true ∧ d.mcr.getLsbD 3 = true ∧ d.rxFifo ≠ [] := by
  simp [Uart.req, and_assoc]

/-- The UART's event is the edge of its line. -/
theorem uartIrq_effect {u : Com} {d : Uart} {n : Source} (hu : s.uart u = some d)
    (hline : s.params.uartIrqLine = some n) (hreq : d.req = true) :
    (Event.uartIrq u).effect s = (Event.irqEdge n).effect s := by
  simp only [Event.effect, occurUartIrq, hu, hline]
  exact if_pos hreq

theorem uartIrq_not_enabled {u : Com} {d : Uart} (hu : s.uart u = some d)
    (h : s.params.uartIrqLine = none ∨ ¬ d.req = true) : (Event.uartIrq u).effect s = none := by
  cases hline : s.params.uartIrqLine with
  | none => simp only [Event.effect, occurUartIrq, hu, hline]
  | some n =>
    simp only [Event.effect, occurUartIrq, hu, hline]
    exact if_neg (h.resolve_left (by simp [hline]))

end

end Sys2Proof.Machine

namespace Sys2Proof.Claims

open Sys2Proof.Machine

/-- Settles O31: the driver's and a handler's turn look at the failure first, and no event touches
it. -/
theorem failureHaltsTheDriver : Obligations.FailureHaltsTheDriver := by
  unfold Obligations.FailureHaltsTheDriver
  intro s f hfailure
  refine ⟨fun h => ?empty, fun later h => ?driver, fun c later h => ?handler,
    fun e later h => ?event⟩
  case empty => rw [step, turn_of_empty_schedule h, driverTurn_of_failure hfailure]
  case driver =>
    simp only [step, turn, h]
    exact driverTurn_of_failure hfailure
  case handler =>
    simp only [step, turn, h]
    exact handlerTurn_of_failure (s := { s with schedule := later }) hfailure c
  case event =>
    obtain ⟨hfail, htrace, hstack, hprogram, hresults⟩ :=
      occur_keeps_driver e { s with schedule := later }
    exact ⟨_, step_event h, hfail.trans hfailure, htrace, hstack, hprogram, hresults⟩

/-- Settles O32: each of these calls fails when it begins. -/
theorem assertionsRaiseTheFourFailures : Obligations.AssertionsRaiseTheFourFailures := by
  unfold Obligations.AssertionsRaiseTheFourFailures
  intro s call rest f hq hp hcall
  refine step_fails_call hq hp ?_
  rcases hcall with ⟨offset, rfl, hlow, rfl⟩ | ⟨irq, rfl | rfl | rfl, h16, rfl⟩ |
    ⟨r, offset, rfl | ⟨v, rfl⟩, hcount, rfl⟩ | ⟨base, rfl, hother, rfl⟩
  · exact start_picInit_low hlow
  · exact withIrq_beyond h16
  · exact withIrq_beyond h16
  · exact withIrq_beyond h16
  · exact start_rangeRead_beyond hcount _
  · exact start_rangeWrite_beyond hcount v _
  · exact start_serialNew_other (not_exists.2 hother) _

/-- Settles O34: the edge always occurs, and sets the bit of its line once the controller has left
`Uninit`. -/
theorem edgeSetsTheRequestBit : Obligations.EdgeSetsTheRequestBit := by
  unfold Obligations.EdgeSetsTheRequestBit
  intro s n later c i hschedule hline hi
  have hpic : State.pic { s with schedule := later } c = s.pic c := by cases c <;> rfl
  rw [step_event_enabled hschedule (irqEdge_effect hline hi)]
  refine ⟨fun hinit => ?_, fun huninit => ?_⟩
  · rw [requestLine_of_init (by rwa [hpic]), hpic]
    cases c <;> rfl
  · rw [requestLine_of_uninit (by rwa [hpic])]

/-- Settles O39: each event is enabled exactly under its condition. -/
theorem spuriousDeliversInputSeven : Obligations.SpuriousDeliversInputSeven := by
  unfold Obligations.SpuriousDeliversInputSeven
  intro s later
  exact ⟨fun hschedule => ⟨fun h => step_event_enabled hschedule (spurious_P_effect h),
      fun h => step_event_not_enabled hschedule (spurious_P_not_enabled h)⟩,
    fun hschedule => ⟨fun h => step_event_enabled hschedule (spurious_S_effect h),
      fun h => step_event_not_enabled hschedule (spurious_S_not_enabled h)⟩⟩

/-- Settles O42: the event has the effect of its line's edge while the UART requests, and none
otherwise. -/
theorem uartRaisesItsLineWhileItRequests : Obligations.UartRaisesItsLineWhileItRequests := by
  unfold Obligations.UartRaisesItsLineWhileItRequests
  intro s u d later hu hschedule
  have hu' : State.uart { s with schedule := later } u = some d := hu
  refine ⟨fun n hline hier hmcr hrx => ?_, fun h => ?_⟩
  · have heffect := uartIrq_effect hu' hline ((uart_req_iff d).2 ⟨hier, hmcr, hrx⟩)
    exact (step_event_enabled hschedule heffect).trans (step_event_enabled rfl rfl).symm
  · refine step_event_not_enabled hschedule
      (uartIrq_not_enabled hu' (h.imp_right fun hmissing => ?_))
    simpa only [uart_req_iff, not_and_or, Bool.not_eq_true, ne_eq, not_not] using hmissing

end Sys2Proof.Claims
end

section
/-! The acknowledge (60_exceptions.md rules R174 to R179): what it does to the registers, which line
it delivers, and which lines wait. -/

namespace Sys2Proof.Machine

/-! ## One bit of a register -/

/-- Setting or clearing bit `i` leaves every other bit. -/
theorem or_bit_of_ne (v : Byte) {i m : Nat} (h : m ≠ i) :
    (v ||| bit i).getLsbD m = v.getLsbD m := by
  by_cases hm : m < 8
  · simp [bit_getLsbD i hm, Ne.symm h]
  · rw [BitVec.getLsbD_of_ge _ _ (not_lt.1 hm), BitVec.getLsbD_of_ge _ _ (not_lt.1 hm)]

theorem or_bit_self (v : Byte) {i : Nat} (hi : i < 8) : (v ||| bit i).getLsbD i = true := by
  simp [bit_getLsbD i hi]

theorem and_not_bit_of_ne (v : Byte) {i m : Nat} (h : m ≠ i) :
    (v &&& ~~~bit i).getLsbD m = v.getLsbD m := by
  by_cases hm : m < 8
  · rw [BitVec.getLsbD_and, BitVec.getLsbD_not, bit_getLsbD i hm]
    simp [Ne.symm h, hm]
  · rw [BitVec.getLsbD_of_ge _ _ (not_lt.1 hm), BitVec.getLsbD_of_ge _ _ (not_lt.1 hm)]

theorem take_isr_self (p : Pic) {n : Nat} (hn : n < 8) : (p.take n).isr.getLsbD n = true :=
  or_bit_self p.isr hn

theorem take_irr_of_ne (p : Pic) {n m : Nat} (h : m ≠ n) :
    (p.take n).irr.getLsbD m = p.irr.getLsbD m :=
  and_not_bit_of_ne p.irr h

theorem take_isr_of_ne (p : Pic) {n m : Nat} (h : m ≠ n) :
    (p.take n).isr.getLsbD m = p.isr.getLsbD m :=
  or_bit_of_ne p.isr h

theorem lsb_le_eight (v : Byte) : lsb v ≤ 8 := by
  rcases lsb_cases v with ⟨-, h8⟩ | ⟨hlt, -⟩
  · exact Nat.le_of_eq h8
  · exact Nat.le_of_lt hlt

/-! ## The acknowledge's turn -/

section
variable {s : State} {later : List Turn} (hschedule : s.schedule = .event .ack :: later)
include hschedule

theorem step_ack_disabled (hoff : s.intOut .P = false) :
    step s = .next { s with schedule := later } :=
  step_event_not_enabled hschedule (if_neg (ne_true_of_eq_false hoff))

theorem step_ack_primary (hon : s.intOut .P = true) (hline : lsb (s.req .P) ≠ 2) :
    step s = .next { ackPrimary (lsb (s.req .P)) s with schedule := later, intDropped := none } :=
  step_event_enabled hschedule ((if_pos hon).trans (congrArg some (if_neg hline)))

theorem step_ack_secondary (hon : s.intOut .P = true) (hline : lsb (s.req .P) = 2) :
    step s = .next { ackSecondary (lsb (s.req .S)) s with schedule := later, intDropped := none } :=
  step_event_enabled hschedule ((if_pos hon).trans (congrArg some (if_pos hline)))

end

end Sys2Proof.Machine

namespace Sys2Proof.Claims

open Sys2Proof.Machine

/-! ## The input an acknowledge takes -/

theorem lowest_le_of_passes {s : State} {c : Ctl} {i : Nat} (hi : i < 8) (h : passes s c i) :
    lsb (s.req c) ≤ i := by
  obtain ⟨-, hirr, himr, -⟩ := h
  exact lsb_le_of_bit ((req_bit hi).2 ⟨hirr, himr⟩)

/-- A controller whose output is on has its lowest-numbered request passing. -/
theorem lowest_passes {s : State} {c : Ctl} (h : s.intOut c = true) :
    lsb (s.req c) < 8 ∧ passes s c (lsb (s.req c)) := by
  obtain ⟨hready, hlt, hservice⟩ := (intOut_iff s c).1 h
  obtain ⟨hirr, himr⟩ := (req_bit hlt).1 (lsb_bit hlt)
  exact ⟨hlt, hready, hirr, himr, (lt_lsb_iff hlt).1 hservice⟩

theorem intOut_of_passes {s : State} {c : Ctl} {i : Nat} (hi : i < 8) (h : passes s c i) :
    s.intOut c = true :=
  (intOut_iff_passes s c).2 ⟨i, hi, h⟩

/-- Input 2 of the primary passes only while the secondary's output is on. -/
theorem secondary_on_of_passes {s : State} (h : passes s .P 2) : s.intOut .S = true := by
  obtain ⟨-, hirr, -⟩ := h
  rwa [irr_P_bit s (by decide), if_pos rfl] at hirr

/-- An input in service stops itself and every input after it. -/
theorem lt_of_passes {s : State} {c : Ctl} {i n : Nat} (hservice : (s.pic c).isr.getLsbD i = true)
    (h : passes s c n) : n < i := by
  obtain ⟨-, -, -, hclear⟩ := h
  by_contra hle
  rw [hclear i (not_lt.1 hle)] at hservice
  cases hservice

/-- With its lowest-numbered request in service and nothing new requested before it, the output is
off. -/
theorem intOut_off_of_taken {s t : State} {c : Ctl}
    (hservice : (t.pic c).isr.getLsbD (lsb (s.req c)) = true) (himr : (t.pic c).imr = (s.pic c).imr)
    (hirr : ∀ j, j < 8 → j < lsb (s.req c) → (t.irr c).getLsbD j = (s.irr c).getLsbD j) :
    t.intOut c = false := by
  by_contra hon
  obtain ⟨j, hj, hpasses⟩ := (intOut_iff_passes t c).1 (Bool.eq_true_of_not_eq_false hon)
  have hlt : j < lsb (s.req c) := lt_of_passes hservice hpasses
  obtain ⟨-, hpending, hunmasked, -⟩ := hpasses
  have hle : lsb (s.req c) ≤ j :=
    lsb_le_of_bit ((req_bit hj).2 ⟨hirr j hj hlt ▸ hpending, himr ▸ hunmasked⟩)
  omega

/-! ## What an acknowledge leaves -/

/-- From `s` to `t` input `n` of the primary is taken and its vector delivered. -/
structure TakesPrimary (s t : State) (n : Nat) : Prop where
  input : n < 8
  noCascade : n ≠ 2
  passing : passes s .P n
  pic1 : t.pic1 = s.pic1.take n
  pic2 : t.pic2 = s.pic2
  vectors : t.vectors = s.vectors ++ [s.pic1.vbase.toNat + n]

/-- From `s` to `t` input `k` of the secondary is taken, with bit 2 in service at the primary, and
its vector delivered. -/
structure TakesSecondary (s t : State) (k : Nat) : Prop where
  input : k < 8
  cascade : passes s .P 2
  passing : passes s .S k
  pic1 : t.pic1 = { s.pic1 with isr := s.pic1.isr ||| bit 2 }
  pic2 : t.pic2 = s.pic2.take k
  vectors : t.vectors = s.vectors ++ [s.pic2.vbase.toNat + k]

theorem takesPrimary_of_ack {s t : State} (hon : s.intOut .P = true) (hline : lsb (s.req .P) ≠ 2)
    (hpic1 : t.pic1 = (ackPrimary (lsb (s.req .P)) s).pic1) (hpic2 : t.pic2 = s.pic2)
    (hvectors : t.vectors = (ackPrimary (lsb (s.req .P)) s).vectors) :
    TakesPrimary s t (lsb (s.req .P)) := by
  obtain ⟨hlt, hpasses⟩ := lowest_passes hon
  exact ⟨hlt, hline, hpasses, hpic1, hpic2, hvectors⟩

theorem takesSecondary_of_ack {s t : State} (hon : s.intOut .P = true) (hline : lsb (s.req .P) = 2)
    (hpic1 : t.pic1 = (ackSecondary (lsb (s.req .S)) s).pic1)
    (hpic2 : t.pic2 = (ackSecondary (lsb (s.req .S)) s).pic2)
    (hvectors : t.vectors = (ackSecondary (lsb (s.req .S)) s).vectors) :
    TakesSecondary s t (lsb (s.req .S)) := by
  obtain ⟨-, hpasses⟩ := lowest_passes hon
  rw [hline] at hpasses
  obtain ⟨hlt, hpassesS⟩ := lowest_passes (secondary_on_of_passes hpasses)
  exact ⟨hlt, hpasses, hpassesS, hpic1, hpic2, hvectors⟩

/-- An acknowledge takes the lowest-numbered request of the primary or, through input 2, that of the
secondary. -/
theorem step_ack_cases {s : State} {later : List Turn}
    (hschedule : s.schedule = .event .ack :: later) (hon : s.intOut .P = true) : ∃ t, step s = .next t ∧
      (TakesPrimary s t (lsb (s.req .P)) ∨
        lsb (s.req .P) = 2 ∧ TakesSecondary s t (lsb (s.req .S))) := by
  by_cases hline : lsb (s.req .P) = 2
  · exact ⟨_, step_ack_secondary hschedule hon hline,
      .inr ⟨hline, takesSecondary_of_ack hon hline rfl rfl rfl⟩⟩
  · exact ⟨_, step_ack_primary hschedule hon hline,
      .inl (takesPrimary_of_ack hon hline rfl rfl rfl)⟩

theorem TakesPrimary.intOut_off {s t : State} (h : TakesPrimary s t (lsb (s.req .P))) :
    t.intOut .P = false := by
  have hcascade : t.intOut .S = s.intOut .S := by
    simp only [State.intOut, State.irr, pic_S, h.pic2]
  refine intOut_off_of_taken (s := s) ?_ (by rw [pic_P, h.pic1]; rfl) fun j hj hbelow => ?_
  · rw [pic_P, h.pic1]
    exact take_isr_self _ h.input
  · rw [irr_P_bit t hj, irr_P_bit s hj, hcascade, h.pic1, take_irr_of_ne _ (Nat.ne_of_lt hbelow)]

theorem TakesSecondary.intOut_P_off {s t : State} {k : Nat} (h : TakesSecondary s t k)
    (hline : lsb (s.req .P) = 2) : t.intOut .P = false := by
  refine intOut_off_of_taken (s := s) ?_ (by rw [pic_P, h.pic1]; rfl) fun j hj hbelow => ?_
  · rw [pic_P, h.pic1, hline]
    exact or_bit_self _ (by decide)
  · have h2 : j ≠ 2 := Nat.ne_of_lt (hline ▸ hbelow)
    rw [irr_P_bit t hj, irr_P_bit s hj, if_neg h2, if_neg h2, h.pic1]

theorem TakesSecondary.intOut_S_off {s t : State} (h : TakesSecondary s t (lsb (s.req .S))) :
    t.intOut .S = false := by
  refine intOut_off_of_taken (s := s) ?_ (by rw [pic_S, h.pic2]; rfl) fun j hj hbelow => ?_
  · rw [pic_S, h.pic2]
    exact take_isr_self _ h.input
  · show t.pic2.irr.getLsbD j = s.pic2.irr.getLsbD j
    rw [h.pic2, take_irr_of_ne _ (Nat.ne_of_lt hbelow)]

/-! ## The line an acknowledge delivers -/

/-- The line an acknowledge delivers: the primary's lowest-numbered request or, through input 2, the
secondary's. -/
def ackLine (s : State) : Nat :=
  if lsb (s.req .P) = 2 then 8 + lsb (s.req .S) else lsb (s.req .P)

theorem deliverable_primary_iff {s : State} {m : Nat} (h : m < 8) :
    deliverable s m ↔ passes s .P m := iff_of_eq (if_pos h)

/-- A line of the secondary reaches the CPU through input 2 of the primary. -/
theorem deliverable_secondary_iff {s : State} {m : Nat} (h8 : 8 ≤ m) (h16 : m < 16) :
    deliverable s m ↔ passes s .S (m - 8) ∧ passes s .P 2 := by
  have hdef : deliverable s m ↔ passes s .S (m - 8) ∧ s.pic1.phase = .ready ∧
      s.pic1.imr.getLsbD 2 = false ∧ ∀ j, j ≤ 2 → s.pic1.isr.getLsbD j = false :=
    iff_of_eq (if_neg (Nat.not_lt.2 h8))
  rw [hdef]
  refine and_congr_right fun hpasses => ⟨fun ⟨hready, himr, hclear⟩ => ?_, fun h => ?_⟩
  · refine ⟨hready, ?_, himr, hclear⟩
    rw [irr_P_bit s (by decide), if_pos rfl]
    exact intOut_of_passes (by omega) hpasses
  · obtain ⟨hready, -, himr, hclear⟩ := h
    exact ⟨hready, himr, hclear⟩

/-- The input of the primary through which a deliverable line passes. -/
theorem primary_passes_of_deliverable {s : State} {m : Nat} (h16 : m < 16) (h : deliverable s m) :
    passes s .P (if m < 8 then m else 2) := by
  split_ifs with h8
  · exact (deliverable_primary_iff h8).1 h
  · exact ((deliverable_secondary_iff (not_lt.1 h8) h16).1 h).2

theorem ackLine_of_primary {s : State} (h : lsb (s.req .P) ≠ 2) : ackLine s = lsb (s.req .P) :=
  if_neg h

theorem ackLine_of_secondary {s : State} (h : lsb (s.req .P) = 2) :
    ackLine s = 8 + lsb (s.req .S) := if_pos h

/-- While the primary's output is on, the line an acknowledge delivers is deliverable. -/
theorem ackLine_deliverable {s : State} (hon : s.intOut .P = true) :
    ackLine s < 16 ∧ ackLine s ≠ 2 ∧ deliverable s (ackLine s) := by
  obtain ⟨hlt, hpasses⟩ := lowest_passes hon
  by_cases hline : lsb (s.req .P) = 2
  · rw [hline] at hpasses
    obtain ⟨hltS, hpassesS⟩ := lowest_passes (secondary_on_of_passes hpasses)
    rw [ackLine_of_secondary hline, deliverable_secondary_iff (by omega) (by omega),
      Nat.add_sub_cancel_left]
    exact ⟨by omega, by omega, hpassesS, hpasses⟩
  · rw [ackLine_of_primary hline, deliverable_primary_iff hlt]
    exact ⟨by omega, hline, hpasses⟩

/-- No deliverable line stands before it in the priority order. -/
theorem ackLine_first {s : State} {m : Nat} (h16 : m < 16) (h2 : m ≠ 2) (h : deliverable s m) :
    priorityPlace (ackLine s) ≤ priorityPlace m := by
  by_cases h8 : m < 8
  · have hleS := lsb_le_eight (s.req .S)
    have hle := lowest_le_of_passes h8 ((deliverable_primary_iff h8).1 h)
    unfold ackLine priorityPlace
    split_ifs <;> omega
  · obtain ⟨hpassesS, hpassesP⟩ := (deliverable_secondary_iff (not_lt.1 h8) h16).1 h
    have hle := lowest_le_of_passes (by decide) hpassesP
    have hleS := lowest_le_of_passes (by omega) hpassesS
    unfold ackLine priorityPlace
    split_ifs <;> omega

/-- Two sources at the same place of the priority order are the same. -/
theorem eq_of_priorityPlace_eq {m n : Nat} (hm16 : m < 16) (hm : m ≠ 2) (hn16 : n < 16)
    (hn : n ≠ 2) (h : priorityPlace m = priorityPlace n) : m = n := by
  unfold priorityPlace at h
  split_ifs at h <;> omega

/-- The vector of a line: the base of its controller plus its input. -/
def lineVector (s : State) (n : Nat) : Nat :=
  if n < 8 then s.pic1.vbase.toNat + n else s.pic2.vbase.toNat + (n - 8)

/-- The primary's output is on exactly when some line reaches the CPU. -/
theorem intOut_iff_deliverable (s : State) :
    s.intOut .P = true ↔ ∃ m, m < 16 ∧ m ≠ 2 ∧ deliverable s m := by
  constructor
  · exact fun hon => ⟨_, ackLine_deliverable hon⟩
  · rintro ⟨m, h16, -, h⟩
    exact intOut_of_passes (by split_ifs <;> omega) (primary_passes_of_deliverable h16 h)

/-- An acknowledge delivers its line's vector, and the requests of the other lines stay. -/
theorem step_ack_delivers {s : State} {later : List Turn}
    (hschedule : s.schedule = .event .ack :: later) (hon : s.intOut .P = true) :
    ∃ t, step s = .next t ∧ t.vectors = s.vectors ++ [lineVector s (ackLine s)] ∧
      (∀ m, m < 16 → m ≠ 2 → m ≠ ackLine s →
        if m < 8 then t.pic1.irr.getLsbD m = s.pic1.irr.getLsbD m
        else t.pic2.irr.getLsbD (m - 8) = s.pic2.irr.getLsbD (m - 8)) := by
  obtain ⟨t, hstep, h | ⟨hline, h⟩⟩ := step_ack_cases hschedule hon
  · refine ⟨t, hstep, ?_, fun m _ _ hne => ?_⟩
    · rw [ackLine_of_primary h.noCascade, lineVector, if_pos h.input, h.vectors]
    · rw [ackLine_of_primary h.noCascade] at hne
      rw [h.pic1, h.pic2, take_irr_of_ne _ hne]
      split_ifs <;> rfl
  · refine ⟨t, hstep, ?_, fun m _ _ hne => ?_⟩
    · rw [ackLine_of_secondary hline, lineVector, if_neg (by omega), Nat.add_sub_cancel_left,
        h.vectors]
    · rw [ackLine_of_secondary hline] at hne
      rw [h.pic1, h.pic2]
      split_ifs
      · rfl
      · exact take_irr_of_ne _ (by omega)

/-! ## The claims -/

/-- Settles O35: by whether the lowest-numbered request is the cascade input. -/
theorem ackTakesTheRequestAndDeliversItsVector :
    Obligations.AckTakesTheRequestAndDeliversItsVector := by
  unfold Obligations.AckTakesTheRequestAndDeliversItsVector
  intro s later hschedule
  refine ⟨fun hon => ?_, fun hoff => step_ack_disabled hschedule hoff⟩
  by_cases hline : lsb (s.req .P) = 2
  · have htakes := takesSecondary_of_ack
      (t := { ackSecondary (lsb (s.req .S)) s with schedule := later, intDropped := none })
      hon hline rfl rfl rfl
    exact ⟨_, step_ack_secondary hschedule hon hline, htakes.intOut_P_off hline,
      fun hne => absurd hline hne, fun _ => ⟨htakes.intOut_S_off, rfl⟩⟩
  · have htakes := takesPrimary_of_ack
      (t := { ackPrimary (lsb (s.req .P)) s with schedule := later, intDropped := none })
      hon hline rfl rfl rfl
    exact ⟨_, step_ack_primary hschedule hon hline, htakes.intOut_off, fun _ => rfl,
      fun heq => absurd heq hline⟩

/-- Settles O36: the acknowledge's line is deliverable and stands first, and its step takes that
line alone; bit 2 in service at the primary stops input 2. -/
theorem ackDeliversTheHighestPriorityLine : Obligations.AckDeliversTheHighestPriorityLine := by
  unfold Obligations.AckDeliversTheHighestPriorityLine
  refine ⟨fun s later hschedule => ⟨intOut_iff_deliverable s, fun hon => ?_⟩,
    fun s m hservice h8 h => ?_⟩
  · obtain ⟨h16, h2, hdeliverable⟩ := ackLine_deliverable hon
    obtain ⟨t, hstep, hvectors, hothers⟩ := step_ack_delivers hschedule hon
    exact ⟨ackLine s, t, h16, h2, hdeliverable, hstep, hvectors, fun _ => ackLine_first, hothers⟩
  · rw [deliverable, if_neg (Nat.not_lt.2 h8)] at h
    obtain ⟨-, -, -, hclear⟩ := h
    rw [hclear 2 (by decide)] at hservice
    cases hservice

/-- Settles O38: the line that stands first is the one the acknowledge delivers, and neither vector
base wraps. -/
theorem lineIsDeliveredAtOffsetPlusLine : Obligations.LineIsDeliveredAtOffsetPlusLine := by
  unfold Obligations.LineIsDeliveredAtOffsetPlusLine
  intro s offset n later hschedule hlow hhigh hbase1 hbase2 h16 h2 hdeliverable hfirst
  have hon := (intOut_iff_deliverable s).2 ⟨n, h16, h2, hdeliverable⟩
  obtain ⟨hack16, hack2, hack⟩ := ackLine_deliverable hon
  obtain rfl : ackLine s = n := eq_of_priorityPlace_eq hack16 hack2 h16 h2
    (le_antisymm (ackLine_first h16 h2 hdeliverable) (hfirst _ hack16 hack2 hack))
  obtain ⟨t, hstep, hvectors, -⟩ := step_ack_delivers hschedule hon
  have hvector : lineVector s (ackLine s) = offset.toNat + ackLine s := by
    rw [lineVector, hbase1, hbase2, BitVec.toNat_add, BitVec.toNat_ofNat]
    split_ifs <;> omega
  exact ⟨by omega, by omega, t, hstep, by rw [hvectors, hvector]⟩

/-- Settles O37: the input an acknowledge takes stands before the one in service at its controller,
and only that input's bits change. -/
theorem missingEoiStallsLowerPriorities : Obligations.MissingEoiStallsLowerPriorities := by
  unfold Obligations.MissingEoiStallsLowerPriorities
  intro s i later _ hschedule
  cases hon : s.intOut .P with
  | false =>
    have hstep := step_ack_disabled hschedule hon
    exact ⟨fun _ => ⟨_, hstep, fun _ _ => ⟨rfl, rfl⟩, fun _ => rfl, .inl rfl⟩,
      fun _ => ⟨_, hstep, fun _ _ => ⟨rfl, rfl⟩, .inl rfl⟩⟩
  | true =>
    obtain ⟨t, hstep, h | ⟨-, h⟩⟩ := step_ack_cases hschedule hon
    · generalize lsb (s.req .P) = n at h
      obtain ⟨-, hpending, -⟩ := h.passing
      have htaken : t.pic1.isr.getLsbD n = true := h.pic1 ▸ take_isr_self _ h.input
      refine ⟨fun hservice => ?_, fun _ => ⟨t, hstep, fun k _ => by simp [h.pic2],
        .inr (.inl ⟨n, h.input, h.noCascade, hpending, htaken, h.pic2, h.vectors⟩)⟩⟩
      have hbelow : n < i := lt_of_passes (c := .P) hservice h.passing
      refine ⟨t, hstep, fun m hm => ?_, fun _ => h.pic2,
        .inr (.inl ⟨n, hbelow, h.noCascade, hpending, htaken, h.pic2, h.vectors⟩)⟩
      rw [h.pic1]
      exact ⟨take_irr_of_ne _ (by omega), take_isr_of_ne _ (by omega)⟩
    · generalize lsb (s.req .S) = k at h
      obtain ⟨-, hpending, -⟩ := h.passing
      have htaken : t.pic2.isr.getLsbD k = true := h.pic2 ▸ take_isr_self _ h.input
      refine ⟨fun hservice => ?_, fun hservice => ?_⟩
      · have hcascade : 2 < i := lt_of_passes (c := .P) hservice h.cascade
        refine ⟨t, hstep, fun m hm => ?_, fun h2 => absurd hcascade (Nat.not_lt.2 h2),
          .inr (.inr ⟨hcascade, k, h.input, hpending, htaken, h.vectors⟩)⟩
        rw [h.pic1]
        exact ⟨rfl, or_bit_of_ne _ (by omega)⟩
      · have hbelow : k < i := lt_of_passes (c := .S) hservice h.passing
        refine ⟨t, hstep, fun m hm => ?_,
          .inr (.inr ⟨k, hbelow, hpending, htaken, h.vectors⟩)⟩
        rw [h.pic2]
        exact ⟨take_irr_of_ne _ (by omega), take_isr_of_ne _ (by omega)⟩

end Sys2Proof.Claims
end

section
/-! Power-on, and what a call at a UART answers before `uart.init()` or while the transmitter is
stuck (70_reset_and_hazards.md rules R200, R202 and R205). -/

namespace Sys2Proof.Machine

/-- A controller that has not left `Uninit` drives no output (10_state.md rule R36). -/
theorem output_of_uninit {p : Pic} (h : p.phase = .uninit) (irr : Byte) : p.output irr = false := by
  simp [Pic.output, h]

/-- With no turn scheduled, no call in progress and none left, nothing happens (log entry 7). -/
theorem step_idle {s : State} (hq : s.Quiet) (hp : s.program = []) : step s = .next s := by
  simp only [step, turn_of_empty_schedule hq.schedule, driverTurn, hq.failure, hq.stack, hp]

theorem withInited_of_not_inited {s : State} {u : Com} {d : Uart} (hu : s.uart u = some d)
    (hinited : d.inited = false) (actions : List Action) :
    withInited u actions s = .refuse (.uartNotInitialised u) := by
  simp [withInited, hu, hinited]

end Sys2Proof.Machine

namespace Sys2Proof.Claims

open Sys2Proof.Machine

/-- Settles O25: a controller in `Uninit` drives no output, and a quiet machine with no call left
stands still. -/
theorem powerOnLeavesTheControllersUninitialised :
    Obligations.PowerOnLeavesTheControllersUninitialised := by
  unfold Obligations.PowerOnLeavesTheControllersUninitialised
  have uninit : ∀ c, (State.reset.pic c).phase = .uninit := by
    intro c
    cases c <;> rfl
  refine ⟨fun c => ⟨uninit c, output_of_uninit (uninit c) _⟩, fun u d hu => ?line, rfl, rfl,
    rfl, rfl, step_idle ⟨rfl, rfl, rfl⟩ rfl⟩
  case line =>
    rw [reset_uart] at hu
    cases hu
    rfl

/-- Settles O60: each of the three calls begins with the check that the UART is initialised. -/
theorem serialOperationsNeedInit : Obligations.SerialOperationsNeedInit := by
  unfold Obligations.SerialOperationsNeedInit
  intro s u d b rest hq hu hinited hp
  rcases hp with hp | hp | hp
  all_goals exact step_refuses_call hq hp (withInited_of_not_inited hu hinited _)

/-- Settles O57: the loop spins, since a pending byte keeps bit 5 of every status read clear. -/
theorem sendRawSpinsOnAStuckTransmitter : Obligations.SendRawSpinsOnAStuckTransmitter := by
  unfold Obligations.SendRawSpinsOnAStuckTransmitter
  intro n s u d b rest hq hp hu hinited hpending
  have begun := SerialRun.begins hq.failure hq.stack hp hu (.inr ⟨hq.schedule, rfl⟩)
    (withInited_of_inited hu hinited _)
  obtain ⟨reads, hlength, hreads, t, hrun, hat⟩ := begun.spins (k := n) (.inr ⟨rfl, rfl⟩)
    fun draw => not_not.1 (mt (lsr_and_outputEmpty d draw).1 hpending)
  have hcall := hat.2
  refine ⟨t, reads, Nat.add_comm 1 n ▸ hrun, hlength, hcall.trace, fun v hv => ?busy, hat.uart,
    fun hempty => List.cons_ne_nil _ _ (hcall.stack.symm.trans hempty), hcall.program,
    hcall.failure⟩
  case busy =>
    obtain ⟨draw, rfl⟩ := hreads v hv
    exact Bool.eq_false_iff.2 (mt (lsr_outputEmpty d draw).1 hpending)

end Sys2Proof.Claims
end

section
/-! A read-modify-write of the primary's mask under any schedule, with handlers' calls nested on it
(20_memory.md rule R52): where the calls stand after each turn, and what each turn of `enable_irq`
of a primary line does. -/

namespace Sys2Proof.Machine

theorem start_enableIrq_primary {irq : Nat} (h : irq < 8) (s : State) :
    (Call.enableIrq irq).start s =
      .run [.input (Ctl.dataPort .P) .x, .output (Ctl.dataPort .P) (.clearBits .x (bit irq)),
        .ret .unit] := by
  rw [Call.start, withIrq_below (by omega), enableIrqActions, if_pos h, lineInput, if_pos h]

theorem step_handler {s : State} {c : Call} {later : List Turn} {actions : List Action}
    (hschedule : s.schedule = .handler c :: later) (hfailure : s.failure = none)
    (hstart : c.start { s with schedule := later } = .run actions) :
    step s = .next { s with
      schedule := later, stack := { todo := actions, x := 0x00#8, y := 0x00#8 } :: s.stack } := by
  have hturn : step s = enterCall c { s with schedule := later } := by
    simp only [step, turn, hschedule, handlerTurn, hfailure]
  rw [hturn, enterCall, hstart]

end Sys2Proof.Machine

namespace Sys2Proof.Claims

open Sys2Proof.Machine

theorem issueAt_ocw1 {s : State} {c : Ctl} (ready : (s.pic c).phase = .ready) (b : Byte) :
    issueAt issue true c.dataPort b s =
      finish (some c) (dataWrite c b) s (s.setPic c { s.pic c with imr := b }) := by
  rw [issueAt_data c true b s (by rw [ready]; rfl), ← encode_ocw1]
  exact PicCommand.exec_eq (.ocw1 b ready)

/-- In the state `t` the calls begun since `s` have brought the primary's mask to `mask`, have
issued `words` and stand at `stack`; the turns to come are `now`. -/
structure MaskAt (s : State) (rest : List Call) (mask : Byte) (words : List TxnWord)
    (stack : List Frame) (now : List Turn) (t : State) : Prop where
  pic1 : t.pic1 = { s.pic1 with imr := mask }
  trace : t.trace = s.trace ++ words
  program : t.program = rest
  failure : t.failure = none
  schedule : t.schedule = now
  stack : t.stack = stack

/-- After `n` steps the calls begun since `s` stand so. -/
def MaskRun (s : State) (rest : List Call) (n : Nat) (mask : Byte) (words : List TxnWord)
    (stack : List Frame) (now : List Turn) : Prop :=
  ∃ t, run n s = .next t ∧ MaskAt s rest mask words stack now t

section
variable {s t : State} {rest : List Call} {n : Nat} {mask b x y : Byte} {words : List TxnWord}
  {a : Action} {todo : List Action} {below stack : List Frame} {now later : List Turn}

/-- The innermost call's next action, on the driver's turn. -/
theorem MaskAt.step_eq
    (h : MaskAt s rest mask words ({ todo := a :: todo, x := x, y := y } :: below) now t)
    (hturn : DriverMoves 1 now later) :
    step t = act issue a { todo := a :: todo, x := x, y := y } todo below
      { t with schedule := later } := by
  obtain rfl := h.schedule
  rw [step_of_driverMoves hturn]
  exact driverTurn_act h.failure h.stack rfl

/-- The driver begins a call. -/
theorem MaskRun.begins {call : Call} {actions : List Action} (hfailure : s.failure = none)
    (hstack : s.stack = []) (hp : s.program = call :: rest)
    (hturn : DriverMoves 1 s.schedule later) (hstart : ∀ t, call.start t = .run actions) :
    MaskRun s rest 1 s.pic1.imr [] [{ todo := actions, x := 0x00#8, y := 0x00#8 }] later := by
  have hstep := (step_of_driverMoves hturn).trans (driverTurn_call hfailure hstack hp)
  rw [enterCall, hstart] at hstep
  refine ⟨_, run_succ hstep, rfl, (List.append_nil _).symm, rfl, hfailure, rfl, ?_⟩
  simp only [hstack]

/-- A handler begins a call on top of those in progress. -/
theorem MaskRun.handlerBegins {call : Call} {actions : List Action}
    (h : MaskRun s rest n mask words stack (.handler call :: later))
    (hstart : ∀ t, call.start t = .run actions) :
    MaskRun s rest (n + 1) mask words ({ todo := actions, x := 0x00#8, y := 0x00#8 } :: stack)
      later := by
  obtain ⟨t, hrun, hat⟩ := h
  have hstep := step_handler hat.schedule hat.failure (hstart _)
  exact ⟨_, run_then_step hrun hstep, hat.pic1, hat.trace, hat.program, hat.failure, rfl,
    congrArg _ hat.stack⟩

section
variable (hturn : DriverMoves 1 now later)
include hturn

/-- The innermost call ends, and the one below it goes on. -/
theorem MaskRun.ends {r : Ret}
    (h : MaskRun s rest n mask words ({ todo := [.ret r], x := x, y := y } :: below) now) :
    MaskRun s rest (n + 1) mask words below later := by
  obtain ⟨t, hrun, hat⟩ := h
  exact ⟨_, run_then_step hrun (hat.step_eq hturn), hat.pic1, hat.trace, hat.program, hat.failure,
    rfl, rfl⟩

variable (hready : s.pic1.phase = .ready)
include hready

/-- The innermost call reads the mask as it stands. -/
theorem MaskRun.readsMask
    (h : MaskRun s rest n mask words
      ({ todo := .input (Ctl.dataPort .P) .x :: todo, x := x, y := y } :: below) now) :
    MaskRun s rest (n + 1) mask (words ++ [dataRead .P mask])
      ({ todo := todo, x := mask, y := y } :: below) later := by
  obtain ⟨t, hrun, hat⟩ := h
  have hphase : t.pic1.phase = .ready := hat.pic1 ▸ hready
  have hmask : t.pic1.imr = mask := by rw [hat.pic1]
  have hissue := issueAt_rdImr (c := .P) (s := t) (t := { t with schedule := later }) hphase
    ⟨rfl, rfl⟩
  rw [encode_rdImr_withData, pic_P, hmask] at hissue
  refine ⟨_, run_then_step hrun ((hat.step_eq hturn).trans (act_input hissue)), hat.pic1, ?_,
    hat.program, hat.failure, rfl, rfl⟩
  exact (congrArg (· ++ _) hat.trace).trans (List.append_assoc ..)

/-- The innermost call writes the mask it computes from the bytes it holds, whatever the mask is
now. -/
theorem MaskRun.writesMask {e : ByteExpr}
    (h : MaskRun s rest n mask words
      ({ todo := .output (Ctl.dataPort .P) e :: todo, x := x, y := y } :: below) now)
    (he : e.eval { todo := .output (Ctl.dataPort .P) e :: todo, x := x, y := y } = b) :
    MaskRun s rest (n + 1) b (words ++ [dataWrite .P b])
      ({ todo := todo, x := x, y := y } :: below) later := by
  obtain ⟨t, hrun, hat⟩ := h
  have hphase : (State.pic { t with schedule := later } .P).phase = .ready := hat.pic1 ▸ hready
  have hissue := (congrArg (issueAt issue true _ · _) he).trans (issueAt_ocw1 hphase b)
  refine ⟨_, run_then_step hrun ((hat.step_eq hturn).trans (act_output hissue)), ?_, ?_,
    hat.program, hat.failure, rfl, rfl⟩
  · exact congrArg (fun p : Pic => { p with imr := b }) hat.pic1
  · exact (congrArg (· ++ _) hat.trace).trans (List.append_assoc ..)

end

end

/-- Settles O53: the handler's call stands on the driver's between the driver's read and its write,
and the driver's write is computed from the mask of before. -/
theorem interruptedMaskUpdateIsLost : Obligations.InterruptedMaskUpdateIsLost := by
  unfold Obligations.InterruptedMaskUpdateIsLost
  intro s a b rest ha hb hready hfailure hstack hp hschedule
  have driver : DriverMoves 1 [] [] := .inr ⟨rfl, rfl⟩
  have begun := MaskRun.begins hfailure hstack hp (.inl hschedule) (start_enableIrq_primary ha)
  have interrupted :=
    (begun.readsMask (.inl rfl) hready.1).handlerBegins (start_enableIrq_primary hb)
  have handled :=
    ((interrupted.readsMask driver hready.1).writesMask driver hready.1 rfl).ends driver
  obtain ⟨t, hrun, hat⟩ := (handled.writesMask driver hready.1 rfl).ends driver
  exact ⟨t, hrun, hat.program, hat.stack, hat.pic1, hat.trace⟩

end Sys2Proof.Claims
end

section
/-! A table word placed where the next step fetches it (log entry 8). Placing it puts the device it
goes to in the condition of the `when` column of 30_encoding.md rule R77, under which the decoder
reads the word as its row and the transaction is carried out. -/

namespace Sys2Proof

/-- Of the selection, only what separates rows with the same bits takes part in reading a word. -/
theorem Selectors.Reads.of_selects {sel sel' : Selectors} {w : TxnWord} {i : Instr}
    (h : sel.Reads w i) (hsel : sel'.selects i = true) : sel'.Reads w i := by
  have hencode : sel'.Reads (encode i) i := reads_encode h.wellFormed hsel
  have hword := h.encode_eq
  cases h
  case rdSel c b => exact .rdSel c b
  case rdImr c b => exact .rdImr c b
  case rbrRd u b _ => exact .rbrRd u b (by simpa [Selectors.selects] using hsel)
  case lsrRd u b => exact .lsrRd u b
  case icw1 c | selIrr c | selIsr c | eoi c | icw2 c _ _ _ | icw3 c _ | icw4 c _ | ocw1 c _ _ =>
    cases c <;> exact hencode
  all_goals exact hencode

/-- A number that the table reads as an instruction is a word, read under the table's selection. -/
theorem decodeTableWord_eq_some_iff {nbits w : Nat} {i : Instr} :
    decodeTableWord nbits w = some i ↔
      ∃ word, tableWord nbits w = some word ∧ (tableSelectors word).Reads word i := by
  unfold decodeTableWord
  cases htable : tableWord nbits w with
  | none => simp
  | some word =>
    cases hdecode : decode (tableSelectors word) word <;>
      simp [← decode_ok_iff_reads, hdecode]

end Sys2Proof

namespace Sys2Proof.Machine

open Sys2Proof.Claims

/-! ## The placed state -/

section
variable (s : State) (w : TxnWord)

@[simp] theorem placeTxn_pic (c : Ctl) : (s.placeTxn w).pic c = s.pic c := by cases c <;> rfl
@[simp] theorem placeTxn_uart (u : Com) : (s.placeTxn w).uart u = s.uart u := rfl
@[simp] theorem inPhase_phase (c : Ctl) (p : Phase) : ((s.inPhase c p).pic c).phase = p := by
  rw [State.inPhase, setPic_pic_same]

theorem readyFor_stack (i : Instr) (b : Byte) : (s.readyFor i b).stack = s.stack := by
  cases i <;> rfl

theorem withFetchWord_of_decodes {nbits n : Nat} {w : TxnWord} {i : Instr}
    (htable : tableWord nbits n = some w) (hdecode : decodeTableWord nbits n = some i) :
    s.withFetchWord nbits n = (s.readyFor i w.data).placeTxn w := by
  simp only [State.withFetchWord, placeWord, htable, hdecode]

end

/-! ## A controller's row -/

/-- A word read at a controller is ICW1, or its row names the phase it needs. -/
theorem icw1_or_phaseNeeded {sel : Selectors} {w : BitVec 25} {i : Instr}
    (h : sel.Reads (.pic25 w) i) :
    (∃ c, i = .icw1 c) ∨ ∃ c needed, phaseNeeded i = some (c, needed) := by
  cases h
  case icw1 c => exact .inl ⟨c, rfl⟩
  case selIrr c | selIsr c | eoi c | rdSel c _ | icw2 c _ _ _ | icw3 c _ | icw4 c _ | ocw1 c _ _ |
    rdImr c _ => cases c <;> exact .inr ⟨_, _, rfl⟩

theorem selects_icw1 (sel : Selectors) (c : Ctl) : sel.selects (.icw1 c) = true := by
  cases c <;> rfl

section
variable {i : Instr} {c : Ctl} {needed : Phase} (hneeded : phaseNeeded i = some (c, needed))
include hneeded

theorem selects_of_phase {sel : Selectors} (hphase : sel.phase c = needed) :
    sel.selects i = true := by
  cases i <;> cases hneeded
  case pic1Icw2 | pic1Icw3 | pic1Icw4 | pic1Ocw1 | pic2Icw2 | pic2Icw3 | pic2Icw4 | pic2Ocw1 =>
    exact beq_of_eq hphase
  all_goals rfl

theorem readyFor_of_phaseNeeded (s : State) (b : Byte) : s.readyFor i b = s.inPhase c needed := by
  cases i <;> cases hneeded <;> rfl

end

/-! ## A UART's row -/

theorem withDlab_dlab (d : Uart) (b : Bool) : (d.withDlab b).dlab = b := by
  unfold Uart.withDlab
  split_ifs with h
  · exact h
  · calc
      (d.lcr ^^^ 0x80#8).getLsbD 7 = !d.dlab := by simp [Uart.dlab]
      _ = b := Bool.not_eq.2 h

theorem withReceived_dlab (d : Uart) (b : Byte) : (d.withReceived b).dlab = d.dlab := by
  unfold Uart.withReceived
  split_ifs <;> rfl

theorem withReceived_rxFifo (d : Uart) (b : Byte) :
    ∃ a rest, (d.withReceived b).rxFifo = a :: rest := by
  unfold Uart.withReceived
  split_ifs with h
  · exact ⟨b, [], rfl⟩
  · exact List.ne_nil_iff_exists_cons.1 h

/-- Making a UART ready for a row leaves it where the row's command is admitted. -/
theorem readyFor_uart {i : Instr} {u : Com} (hwf : i.wellFormed = true) (hsite : i.site = .inr u)
    (s : State) (b : Byte) :
    ∃ d, s.readyFor i b = s.setUart u d ∧ (i = .uartLsrRd u ∨ ∃ e, UartCommand u d i e) := by
  cases i <;> cases hsite <;> refine ⟨_, rfl, ?_⟩
  case uartThrWr v => exact .inr ⟨_, .thrWr v (withDlab_dlab ..) rfl⟩
  case uartRbrRd =>
    obtain ⟨a, rest, hrx⟩ := withReceived_rxFifo ((s.uartOrNew u).withDlab false) b
    exact .inr ⟨_, .rbrRd a rest ((withReceived_dlab ..).trans (withDlab_dlab ..)) hrx⟩
  case uartDllWr v => exact .inr ⟨_, .dllWr v (withDlab_dlab ..)⟩
  case uartDlmWr v => exact .inr ⟨_, .dlmWr v (withDlab_dlab ..)⟩
  case uartIerWr v => exact .inr ⟨_, .ierWr v hwf (withDlab_dlab ..)⟩
  case uartFcrWr => exact .inr ⟨_, .fcrWr⟩
  case uartLcrWr v => exact .inr ⟨_, .lcrWr v hwf⟩
  case uartMcrWr => exact .inr ⟨_, .mcrWr⟩
  case uartLsrRd => exact .inl rfl

section
variable {i : Instr} {u : Com} {d e : Uart}

theorem UartCommand.selects {sel : Selectors} (h : UartCommand u d i e)
    (hsel : sel.dlab = d.dlab) : sel.selects i = true := by
  cases h
  case thrWr b dlab _ | rbrRd b rest dlab _ | ierWr b _ dlab =>
    exact congrArg Bool.not (hsel.trans dlab)
  case dllWr b dlab | dlmWr b dlab => exact hsel.trans dlab
  all_goals rfl

theorem UartCommand.answers {s : State} (h : UartCommand u d i e) (hu : s.uart u = some d) :
    ∃ r, exec i s = .next r := by
  have hcommand := h
  cases h
  case rbrRd b rest dlab received => exact ⟨_, rbrRd_after hu dlab received⟩
  all_goals exact ⟨_, uartCommand_after hu hcommand rfl⟩

end

/-! ## The placed word runs -/

/-- In the state a word is placed in, the selection is its row's and the row's transaction is
carried out. -/
theorem placed_selects_and_answers {sel : Selectors} {w : TxnWord} {i : Instr} (h : sel.Reads w i)
    (s : State) (b : Byte) :
    (((s.readyFor i b).placeTxn w).selectors w).selects i = true ∧
      ∃ r, exec i ((s.readyFor i b).placeTxn w) = .next r := by
  have hwf := h.wellFormed
  cases w with
  | pic25 w =>
    rcases icw1_or_phaseNeeded h with ⟨c, rfl⟩ | ⟨c, needed, hneeded⟩
    · exact ⟨selects_icw1 _ c, _, exec_icw1 c _⟩
    · have hphase : (((s.readyFor i b).placeTxn (.pic25 w)).pic c).phase = needed := by
        rw [placeTxn_pic, readyFor_of_phaseNeeded hneeded, inPhase_phase]
      obtain ⟨r, hexec⟩ := exec_by_phase hwf hneeded ((s.readyFor i b).placeTxn (.pic25 w))
      exact ⟨selects_of_phase hneeded ((selectors_phase ..).trans hphase), r,
        hexec.trans (if_pos hphase)⟩
  | uart12 u w =>
    obtain ⟨d, hready, hrow⟩ := readyFor_uart hwf h.site_uart s b
    have hu : ((s.readyFor i b).placeTxn (.uart12 u w)).uart u = some d := by
      rw [placeTxn_uart, hready, setUart_uart_same]
    rcases hrow with rfl | ⟨e, hcommand⟩
    · exact ⟨rfl, _, lsrRd_after hu⟩
    · exact ⟨hcommand.selects (selectors_dlab w hu), hcommand.answers hu⟩

end Sys2Proof.Machine

namespace Sys2Proof.Claims

open Sys2Proof.Machine

/-- Settles O7: the placed word is the driver's next action and decodes to its row, whose transaction
answers; the step is then the one O5 gives. -/
theorem placedTableWordRunsAndCompletes : Obligations.PlacedTableWordRunsAndCompletes := by
  unfold Obligations.PlacedTableWordRunsAndCompletes
  intro s nbits w i hdecode
  obtain ⟨word, htable, hreads⟩ := decodeTableWord_eq_some_iff.1 hdecode
  obtain ⟨hselects, r, hexec⟩ := placed_selects_and_answers hreads s word.data
  rw [withFetchWord_of_decodes s htable hdecode]
  obtain ⟨hruns, -⟩ := stepRunsTheDecodedInstruction ((s.readyFor i word.data).placeTxn word) _ word
    _ [] _ rfl rfl rfl (.inl ⟨rfl, rfl⟩)
  refine ⟨r, hexec, ?_⟩
  rw [hruns i (decode_of_reads (hreads.of_selects hselects)), hexec, andThen_next, readyFor_stack]

end Sys2Proof.Claims
end
